-- ==== Sys2Proof/Word.lean ====
section
/-! DEFINITION. The two value types of TFS (spec rule R7): `Byte`, an unsigned 8-bit value, and `U16`, an unsigned 16-bit value.
Bit 0 is the least significant bit (R6). -/

namespace Sys2Proof

/-- R7: an unsigned 8-bit value, what travels on the bus and what a buffer cell holds. -/
abbrev Byte := BitVec 8

/-- R7: an unsigned 16-bit value: lengths and capacities (R5 `LEN_WIDTH`, `CAP_WIDTH`). -/
abbrev U16 := BitVec 16

end Sys2Proof
end

