-- ==== Sys2Proof/Config.lean ====
section
/-! DEFINITION. The implementation parameters of rule R5: the constants of every instance, the record `Config` of the
parameters R5 leaves to an instance, their defaults, and the free value `Config.busDraw`. -/

namespace Sys2Proof

/-- R5, R34: the parameters of one instance of TFS. No operation writes them and the host cannot change them at run time.
State carries this record so that claims hold for every instance (log 4). -/
structure Config where
  /-- `TFI_CHIP_TO_HOST`: the direction byte a response must carry (R5, R71). -/
  tfiChipToHost : Byte
  /-- `READY_POLL_BUDGET`: how many status bytes one ready loop may read (R124). -/
  readyPollBudget : Nat
  /-- `SCAN_BUDGET`: how many bytes the start-code scanner may read (R152). -/
  scanBudget : Nat
  /-- `SETTLE_US`: the delay at the start of every transfer (R120). -/
  settleUs : Nat
  /-- `WAKE_US`: how long WAKE holds the select (R126). -/
  wakeUs : Nat
  /-- `BAUD_CHANGE_US`: used by a wrapper only; no TFS rule reads it (R5, R231). -/
  baudChangeUs : Nat
  /-- `BUS_CLOCK_MAX_HZ`: a property of the Bus Primitive; no TFS rule reads it (R5, R232). -/
  busClockMaxHz : Nat
  /-- `PFX_WRITE`: the first byte of a write transfer, if the instance has one (R79). -/
  pfxWrite : Option Byte
  /-- `PFX_STATUS`: the first byte of a status transfer, if the instance has one (R79). -/
  pfxStatus : Option Byte
  /-- `PFX_READ`: the first byte of a read transfer, if the instance has one (R79). -/
  pfxRead : Option Byte
  deriving DecidableEq, Repr

/-- R5: the defaults. PRESUMED: the 0xD5 of `tfiChipToHost` is the spec's general knowledge, not DOC0's (D5, log 4);
the prefixes are absent (D6, log 5). -/
def Config.default : Config where
  tfiChipToHost := 0xD5
  readyPollBudget := 10000
  scanBudget := 1000
  settleUs := 2000
  wakeUs := 2000
  baudChangeUs := 200
  busClockMaxHz := 4000000
  pfxWrite := none
  pfxStatus := none
  pfxRead := none

/-- R5 `PREAMBLE`. -/
def Config.preamble : Byte := 0x00
/-- R5 `START1`. -/
def Config.start1 : Byte := 0x00
/-- R5 `START2`. -/
def Config.start2 : Byte := 0xFF
/-- R5 `POSTAMBLE`. -/
def Config.postamble : Byte := 0x00
/-- R5 `TFI_HOST_TO_CHIP`: the direction byte of a command frame. -/
def Config.tfiHostToChip : Byte := 0xD4
/-- R5 `EXT_MARK`: each of the two bytes that select the extended length form. -/
def Config.extMark : Byte := 0xFF
/-- R5 `ACK_SEQ`: format AK of R73. -/
def Config.ackSeq : List Byte := [0x00, 0x00, 0xFF, 0x00, 0xFF, 0x00]
/-- R5 `READY_MASK`: bit 0. -/
def Config.readyMask : Byte := 0x01
/-- R5 `MAX_TX_PAYLOAD`, derived in R106. -/
def Config.maxTxPayload : Nat := 253

/-- FREE VALUE (U1, D22, log 2): the byte the chip answers to the k-th `BusRead()` after the script has run out.
It has no body: nothing in the model or in a proof can know it. -/
opaque Config.busDraw : Nat → Byte

end Sys2Proof
end

