-- ==== Sys2Proof/Machine/Codec.lean ====
section
/-! DEFINITION. The Frame Codec (spec file 40): byte arithmetic modulo 256, the checksums, the command frame encoder ENCODE,
the ACK comparator, and the start-code recogniser. Pure functions: no state and no bus access. -/

namespace Sys2Proof.Codec

/-- R100 `add8`. -/
def add8 (a b : Byte) : Byte := BitVec.ofNat 8 ((a.toNat + b.toNat) % 256)

/-- R7, R100 `neg8`: the two's complement in 8 bits. -/
def neg8 (x : Byte) : Byte := BitVec.ofNat 8 ((256 - x.toNat) % 256)

/-- R100 `sum8`; `sum8 []` is 0. -/
def sum8 : List Byte → Byte
  | [] => 0
  | b :: bs => add8 b (sum8 bs)

/-- R101 `LCS`: the length checksum of a normal frame. -/
def lcs (l : Byte) : Byte := neg8 l

/-- R101 `len_ok`. -/
def lenOk (l0 l1 : Byte) : Bool := add8 l0 l1 == 0

/-- R101 `xlen_ok`. -/
def xlenOk (xm xl xc : Byte) : Bool := sum8 [xm, xl, xc] == 0

/-- R102 `DCS`: the data checksum over direction, id and data. -/
def dcs (t c : Byte) (data : List Byte) : Byte := neg8 (sum8 (t :: c :: data))

/-- R102 `body_ok`. -/
def bodyOk (t c : Byte) (data : List Byte) (k : Byte) : Bool := sum8 (t :: c :: (data ++ [k])) == 0

/-- R75, R70: the LEN byte of a command frame with `n` data bytes. -/
def lenByte (n : Nat) : Byte := BitVec.ofNat 8 (n + 2)

/-- R76: the length of an extended frame, most significant byte first (R59). -/
def xlen (xm xl : Byte) : U16 := (xm.setWidth 16 <<< 8) ||| xl.setWidth 16

/-- R104 `ENCODE`: the command frame, in wire order. Its domain is at most 253 data bytes (R106). -/
def encodeFrame (c : Byte) (data : List Byte) : List Byte :=
  [Config.preamble, Config.start1, Config.start2]
    ++ [lenByte data.length, lcs (lenByte data.length)]
    ++ [Config.tfiHostToChip, c]
    ++ data
    ++ [dcs Config.tfiHostToChip c data]
    ++ [Config.postamble]

/-- R107 `is_ack`: exact match of all six positions. -/
def isAck (a : List Byte) : Bool := a == Config.ackSeq

/-- R77: the two bytes after the start code select the extended form. -/
def isExtMark (l0 l1 : Byte) : Bool := l0 == Config.extMark && l1 == Config.extMark

/-- R78, R152: the first 0x00 followed at once by 0xFF: the bytes before it, and the bytes after it. -/
def splitStart : List Byte → Option (List Byte × List Byte)
  | [] => none
  | b :: bs =>
    if b = Config.start1 ∧ bs.head? = some Config.start2 then some ([], bs.tail)
    else (splitStart bs).map fun (n, r) => (b :: n, r)

/-- R76: the number of data bytes a length field of value `n` announces (0 when the field is too small). -/
def dataLen (n : Nat) : Nat := n - 2

end Sys2Proof.Codec
end

