-- ==== Sys2Proof/Syntax.lean ====
section
/-! DEFINITION. The instructions of TFS: one constructor for each row of spec/opcode_table.json (rules R80 to R86).
The operands of the host operations are not in the instruction: they are the ARG_ registers and TXBUF (R30, R80). -/

namespace Sys2Proof

/-- One constructor per row of the opcode table. -/
inductive Instr where
  /-- `WAKE`, OP = 001 (R126). -/
  | wake
  /-- `WAITRDY`, OP = 010 (R127). -/
  | waitrdy
  /-- `SENDCMD`, OP = 011 (R130 to R134). -/
  | sendcmd
  /-- `READRSP`, OP = 100 (R150 to R163). -/
  | readrsp
  /-- `SENDACK`, OP = 101 (R136). -/
  | sendack
  /-- `RESERVED_OP_0`, OP = 000 (R81). -/
  | reservedOp0
  /-- `RESERVED_OP_6_7`, OP = 110 or 111: the operand is OP[0] (R81). -/
  | reservedOp67 (low : BitVec 1)
  /-- `INIT`, a pseudo-operation of the host (R181). -/
  | init
  /-- `XCHG c, payload, cap`, a pseudo-operation of the host (R180). -/
  | xchg (c : Byte) (payload : List Byte) (cap : U16)
  /-- `CF`, the command frame of command id `c` and data `data` (R70, R104). -/
  | cf (c : Byte) (data : List Byte)
  /-- `RN`, a response frame of normal length (R71). `noise` is every byte before the start code, the preamble among them
  (R78); `l`, `k` are LEN and LCS, `t` TFI, `r` RID, `d` DATA, `s` DCS, `p` POSTAMBLE. No checksum need be right. -/
  | rn (noise : List Byte) (l k t r : Byte) (d : List Byte) (s p : Byte)
  /-- `RX`, a response frame of extended length (R72): `m`, `l` are LEN_MSB and LEN_LSB, `k` LCS, the rest as in `rn`. -/
  | rx (noise : List Byte) (m l k t r : Byte) (d : List Byte) (s p : Byte)
  /-- `AK`, the ACK frame (R73). -/
  | ak
  /-- `ST_READY`, a status byte with bit 0 set; the operand is bits [7:1], which TFS ignores (R74). -/
  | stReady (hi : BitVec 7)
  /-- `ST_NOT_READY`, a status byte with bit 0 clear (R74). -/
  | stNotReady (hi : BitVec 7)
  deriving DecidableEq, Repr

end Sys2Proof
end

