-- ==== Sys2Proof/WellFormed.lean ====
section
/-! DEFINITION. Which instructions are well formed: the checks the opcode table's formats put on their operands. -/

namespace Sys2Proof

open Codec

/-- The checks, each from the format of the row. Host operations and reserved codes have no operand to check.
XCHG and CF: at most 253 payload bytes (R106, R180). RN, RX: the noise before the frame holds no start code (R78),
the two length bytes of RN are not the extended marker (R77), and DATA has the length the length field announces (R76). -/
def Instr.wellFormed : Instr → Bool
  | .wake | .waitrdy | .sendcmd | .readrsp | .sendack | .reservedOp0 | .reservedOp67 _ | .init => true
  | .xchg _ payload _ => payload.length ≤ Config.maxTxPayload
  | .cf _ data => data.length ≤ Config.maxTxPayload
  | .rn noise l k _ _ d _ _ =>
    (splitStart noise).isNone && !isExtMark l k && d.length == dataLen l.toNat
  | .rx noise m l _ _ _ d _ _ =>
    (splitStart noise).isNone && d.length == dataLen (xlen m l).toNat
  | .ak | .stReady _ | .stNotReady _ => true

/-- Well-formedness as a decidable proposition. -/
abbrev Instr.WellFormed (i : Instr) : Prop := i.wellFormed = true

end Sys2Proof
end

