-- ==== Sys2Proof/Decode.lean ====
section
/-! DEFINITION. Decoding and encoding (spec file 30). TFS has no instruction memory: what it meets comes from a PORT, and the port
it stands at is known from the sequencer state, never from the bytes (R73, R77, R86). A `Code` is what is met at a port;
`decode` reads it as an instruction or rejects it by name, `encode` writes it from the same format tables. -/

namespace Sys2Proof

open Codec

/-- What is met at a port of TFS, before it is decoded. -/
inductive Code where
  /-- The host port: the three bits written to OP (R80). -/
  | op (o : BitVec 3)
  /-- The host's line `INIT` (R85): a pseudo-operation has no bits of its own. -/
  | lineInit
  /-- The host's line `XCHG c, payload, cap` (R85). -/
  | lineXchg (c : Byte) (payload : List Byte) (cap : U16)
  /-- Outbound bytes of a command frame, state SENT (R70). -/
  | command (bs : List Byte)
  /-- Bytes standing where the six ACK bytes stand, inbound in ACK_CHECK or outbound in SA_SEND (R73). -/
  | ack (bs : List Byte)
  /-- Inbound bytes standing where a status byte stands (R74). -/
  | status (bs : List Byte)
  /-- Inbound bytes as the Response Reader meets them, noise included (R71, R72, R78). -/
  | response (bs : List Byte)
  deriving DecidableEq, Repr

/-- Why bytes met at a port are no instruction of that port. -/
inductive DecodeError where
  /-- Fewer bytes than the format needs. -/
  | truncated
  /-- No 0x00 directly followed by 0xFF (R78). -/
  | noStartCode
  /-- Six bytes other than the ACK sequence (R73, R82). -/
  | notAck
  /-- Bytes that are no frame of format CF (R70). -/
  | notCommandFrame
  /-- An XCHG line with more than 253 payload bytes (R106, R180). -/
  | payloadTooLong
  deriving DecidableEq, Repr

/-- R80: OP code of WAKE. -/
def opWake : BitVec 3 := 0b001
/-- R80: OP code of WAITRDY. -/
def opWaitrdy : BitVec 3 := 0b010
/-- R80: OP code of SENDCMD. -/
def opSendcmd : BitVec 3 := 0b011
/-- R80: OP code of READRSP. -/
def opReadrsp : BitVec 3 := 0b100
/-- R80: OP code of SENDACK. -/
def opSendack : BitVec 3 := 0b101

/-- R80, R81: the host port. Every three bits are a row of the table. -/
def decodeOp (o : BitVec 3) : Instr :=
  if o = opWake then .wake
  else if o = opWaitrdy then .waitrdy
  else if o = opSendcmd then .sendcmd
  else if o = opReadrsp then .readrsp
  else if o = opSendack then .sendack
  else if o = 0b000 then .reservedOp0
  else .reservedOp67 (o.extractLsb' 0 1)

/-- R74, R123: a status byte. Bit 0 decides, bits [7:1] are kept and ignored. -/
def decodeStatus (b : Byte) : Instr :=
  if b.getLsbD 0 then .stReady (b.extractLsb' 1 7) else .stNotReady (b.extractLsb' 1 7)

/-- The status byte with bits [7:1] `hi` and bit 0 `rdy` (R74). -/
def statusByte (hi : BitVec 7) (rdy : BitVec 1) : Byte := hi ++ rdy

/-- R73: exactly the six bytes, taken by position. -/
def decodeAck (bs : List Byte) : Except DecodeError (Instr × List Byte) :=
  if bs.length < 6 then .error .truncated
  else if isAck (bs.take 6) then .ok (.ak, bs.drop 6)
  else .error .notAck

/-- R70: format CF with every field at the value R70 gives it. -/
def decodeCommand (bs : List Byte) : Except DecodeError (Instr × List Byte) :=
  match bs with
  | _ :: _ :: _ :: l :: _ :: _ :: c :: rest =>
    let data := rest.take (dataLen l.toNat)
    let frame := encodeFrame c data
    if bs.take frame.length = frame then .ok (.cf c data, bs.drop frame.length)
    else .error .notCommandFrame
  | _ => .error .truncated

/-- R71, R72: what follows a length field: TFI, RID, `n` data bytes, DCS, POSTAMBLE, and the rest of the stream. -/
def decodeBody (n : Nat) (bs : List Byte) : Option ((Byte × Byte × List Byte × Byte × Byte) × List Byte) :=
  match bs with
  | t :: r :: rest =>
    match rest.drop n with
    | s :: p :: more => some ((t, r, rest.take n, s, p), more)
    | _ => none
  | _ => none

/-- R77, R78: the Response Reader's port. Everything before the first start code is noise; the two bytes after it decide
between RN and RX. -/
def decodeResponse (bs : List Byte) : Except DecodeError (Instr × List Byte) :=
  match splitStart bs with
  | none => .error .noStartCode
  | some (noise, l0 :: l1 :: rest) =>
    if isExtMark l0 l1 then
      match rest with
      | m :: l :: k :: body =>
        match decodeBody (dataLen (xlen m l).toNat) body with
        | some ((t, r, d, s, p), more) => .ok (.rx noise m l k t r d s p, more)
        | none => .error .truncated
      | _ => .error .truncated
    else
      match decodeBody (dataLen l0.toNat) rest with
      | some ((t, r, d, s, p), more) => .ok (.rn noise l0 l1 t r d s p, more)
      | none => .error .truncated
  | some _ => .error .truncated

/-- The decoder: total on what any port can hold. The second component is what the instruction leaves of the bytes. -/
def decode : Code → Except DecodeError (Instr × List Byte)
  | .op o => .ok (decodeOp o, [])
  | .lineInit => .ok (.init, [])
  | .lineXchg c payload cap =>
    if payload.length ≤ Config.maxTxPayload then .ok (.xchg c payload cap, []) else .error .payloadTooLong
  | .command bs => decodeCommand bs
  | .ack bs => decodeAck bs
  | .status (b :: rest) => .ok (decodeStatus b, rest)
  | .status [] => .error .truncated
  | .response bs => decodeResponse bs

/-- R71: the bytes of a normal response frame, the noise before it included. -/
def encodeRn (noise : List Byte) (l k t r : Byte) (d : List Byte) (s p : Byte) : List Byte :=
  noise ++ [Config.start1, Config.start2, l, k, t, r] ++ d ++ [s, p]

/-- R72: the bytes of an extended response frame, the noise before it included. -/
def encodeRx (noise : List Byte) (m l k t r : Byte) (d : List Byte) (s p : Byte) : List Byte :=
  noise ++ [Config.start1, Config.start2, Config.extMark, Config.extMark, m, l, k, t, r] ++ d ++ [s, p]

/-- The encoder: the port and the bits or bytes of each row (R70 to R74, R80, R81, R85). -/
def encode : Instr → Code
  | .wake => .op opWake
  | .waitrdy => .op opWaitrdy
  | .sendcmd => .op opSendcmd
  | .readrsp => .op opReadrsp
  | .sendack => .op opSendack
  | .reservedOp0 => .op 0b000
  | .reservedOp67 low => .op (0b11#2 ++ low)
  | .init => .lineInit
  | .xchg c payload cap => .lineXchg c payload cap
  | .cf c data => .command (encodeFrame c data)
  | .rn noise l k t r d s p => .response (encodeRn noise l k t r d s p)
  | .rx noise m l k t r d s p => .response (encodeRx noise m l k t r d s p)
  | .ak => .ack Config.ackSeq
  | .stReady hi => .status [statusByte hi 1]
  | .stNotReady hi => .status [statusByte hi 0]

/-- The bytes a code carries; the host port carries none. -/
def Code.bytes : Code → List Byte
  | .op _ | .lineInit | .lineXchg _ _ _ => []
  | .command bs | .ack bs | .status bs | .response bs => bs

/-- The same port with `more` bytes behind those already there. -/
def Code.append (more : List Byte) : Code → Code
  | .op o => .op o
  | .lineInit => .lineInit
  | .lineXchg c payload cap => .lineXchg c payload cap
  | .command bs => .command (bs ++ more)
  | .ack bs => .ack (bs ++ more)
  | .status bs => .status (bs ++ more)
  | .response bs => .response (bs ++ more)

/-- The `n` bytes of a table word, most significant byte first (R86). -/
def tableBytes (n w : Nat) : List Byte :=
  (List.range n).map fun i => BitVec.ofNat 8 (w / 2 ^ (8 * (n - 1 - i)))

/-- The instruction of a decoding, if there is one. -/
def instrOf (r : Except DecodeError (Instr × List Byte)) : Option Instr :=
  match r with
  | .ok (i, _) => some i
  | .error _ => none

/-- The instruction the decoder reads from a table word (log 10). A word of up to 8 bits that fits in 3 is an OP code, another
one is a status byte; a longer word is a wire format's bytes, the missing ones 0: the ACK frame, else a command frame, else
a response. -/
def decodeTableWord (nbits w : Nat) : Option Instr :=
  if nbits ≤ 8 then
    if w < 8 then instrOf (decode (.op (BitVec.ofNat 3 w)))
    else instrOf (decode (.status [BitVec.ofNat 8 w]))
  else
    let bytes := tableBytes (nbits / 8) w
    let padded := bytes ++ List.replicate 65545 0
    if isAck bytes then some .ak
    else (instrOf (decode (.command padded))).orElse fun _ => instrOf (decode (.response padded))

end Sys2Proof
end

