-- ==== Sys2Proof/Machine/State.lean ====
section
/-! DEFINITION. The state of TFS as plain data (spec files 10 and 20), the reasons a step can stop, and the state after reset.
What the spec gives the machine and what is the model's own is said at each field; INVENTORY.md lists every one. -/

namespace Sys2Proof.Machine

/-- R21: the values of the sequencer state SEQ, the only control-flow state TFS has. -/
inductive Seq where
  /-- No operation in flight. -/
  | idle
  /-- SENDCMD: encode and transmit the command frame. -/
  | sent
  /-- SENDCMD: first status poll loop. -/
  | awaitReady1
  /-- SENDCMD: read six bytes and compare them with the ACK sequence. -/
  | ackCheck
  /-- SENDCMD: second status poll loop. -/
  | awaitReady2
  /-- Success exit of any operation. -/
  | done
  /-- Failure exit of any operation. -/
  | failed
  /-- WAKE: select held. -/
  | wkHold
  /-- WAITRDY: status poll loop. -/
  | wrPoll
  /-- READRSP: start-code scan. -/
  | rrScan
  /-- READRSP: two length bytes. -/
  | rrLen
  /-- READRSP: three extended-length bytes. -/
  | rrXlen
  /-- READRSP: direction and response id. -/
  | rrHdr
  /-- READRSP: data bytes. -/
  | rrData
  /-- READRSP: checksum and postamble. -/
  | rrTail
  /-- SENDACK: write the six ACK bytes. -/
  | saSend
  deriving DecidableEq, Repr

/-- R32, R190: the outcome of an operation. -/
inductive Kind where
  | ok
  | timeout
  | protocolMismatch
  | corruption
  | refused
  deriving DecidableEq, Repr

/-- R9, R10: one bus or delay event of TRACE. -/
inductive Event where
  /-- `BusSelect()`. -/
  | sel
  /-- `BusDeselect()`. -/
  | des
  /-- `Delay(n)`, microseconds. -/
  | dly (n : Nat)
  /-- `BusWrite(b)`. -/
  | wr (b : Byte)
  /-- `BusRead()` that answered `b`. -/
  | rd (b : Byte)
  deriving DecidableEq, Repr

/-- R35, R132: the six bytes captured in ACK_CHECK. -/
structure AckBytes where
  b0 : Byte
  b1 : Byte
  b2 : Byte
  b3 : Byte
  b4 : Byte
  b5 : Byte
  deriving DecidableEq, Repr

/-- R198: what a diagnostic record carries besides the kind (the `info` the spec suggests, log 16). -/
inductive DiagInfo where
  /-- Timeout: the loop that ran out. -/
  | loop (q : Seq)
  /-- ProtocolMismatch: the six bytes read. -/
  | ackBytes (a : AckBytes)
  /-- Corruption of a normal length field: its two bytes. -/
  | lengthBytes (l0 l1 : Byte)
  /-- Corruption of an extended length field: its three bytes. -/
  | extLengthBytes (xm xl xc : Byte)
  /-- Corruption of the header: direction, id and length. -/
  | header (hd hi : Byte) (len : U16)
  /-- Corruption of the checksum: the byte received and the byte expected. -/
  | checksum (received expected : Byte)
  deriving DecidableEq, Repr

/-- R9, R198: one record handed to the diagnostic sink. -/
structure DiagRecord where
  kind : Kind
  info : DiagInfo
  deriving DecidableEq, Repr

/-- R23: the working registers. All are transient (R20, R24) and none is addressable by the host. -/
structure Work where
  /-- `OPL`, the latched operation code. -/
  opl : BitVec 3
  /-- `CMD`, the latched command id. -/
  cmd : Byte
  /-- `TXN`, the latched payload length. -/
  txn : Byte
  /-- `EXP`, the latched expected response id. -/
  exp : Byte
  /-- `CAPL`, the latched capacity. -/
  capl : U16
  /-- `CNT`, iterations used so far (R203); a Nat, as R23 allows (log 14). -/
  cnt : Nat
  /-- `PZ`, set when the scanner's previous byte was 0x00 (R25). -/
  pz : Bool
  /-- `L0`, first byte after the start code. -/
  l0 : Byte
  /-- `L1`, second byte after the start code. -/
  l1 : Byte
  /-- `XM`, LEN_MSB of an extended frame. -/
  xm : Byte
  /-- `XL`, LEN_LSB of an extended frame. -/
  xl : Byte
  /-- `XC`, LCS of an extended frame. -/
  xc : Byte
  /-- `LEN`, the length field's value. -/
  len : U16
  /-- `HD`, the received direction byte. -/
  hd : Byte
  /-- `HI`, the received response id. -/
  hi : Byte
  /-- `DLEN`, the data length. -/
  dlen : U16
  /-- `IDX`, index of the next byte; a Nat (log 14). -/
  idx : Nat
  /-- `ACC`, running sum of body bytes. -/
  acc : Byte
  /-- `ACKB[0..5]`. -/
  ackb : AckBytes
  /-- `RDCS`, the received checksum. -/
  rdcs : Byte
  /-- `RPOST`, the received postamble. -/
  rpost : Byte
  deriving DecidableEq, Repr

/-- R30: the operand registers the host writes. -/
structure Args where
  /-- `ARG_CMD`. -/
  cmd : Byte
  /-- `ARG_TXN`. -/
  txn : Byte
  /-- `ARG_EXP`. -/
  exp : Byte
  /-- `ARG_CAP`. -/
  cap : U16
  deriving DecidableEq, Repr

/-- R30: the host-visible registers by name. -/
inductive HostReg where
  | op
  | argCmd
  | argTxn
  | argExp
  | argCap
  | status
  | resKind
  | resLen
  deriving DecidableEq, Repr

/-- R12 (2), R30, R51, R84, R85: what the host can do between two operations. -/
inductive HostMove where
  /-- Write a host register; a write to OP requests an operation (R31). -/
  | write (r : HostReg) (v : U16)
  /-- Put bytes into TXBUF from index 0 (R84). -/
  | fillTx (bs : List Byte)
  /-- Put bytes into RXBUF from index 0: the host owns it too (R51). -/
  | fillRx (bs : List Byte)
  /-- Run the pseudo-operation INIT (R181). -/
  | lineInit
  /-- Run the pseudo-operation XCHG (R180). -/
  | lineXchg (c : Byte) (payload : List Byte) (cap : U16)
  deriving DecidableEq, Repr

/-- A byte buffer: pairs of index and byte, indexes rising, no pair equal to what an unlisted index reads as (log 8). -/
abbrev Memory := List Host.Cell

/-- The state of TFS, its buffers, its configuration and its inputs. -/
structure State where
  /-- R5, R34: the parameters of this instance (log 4). -/
  cfg : Config
  /-- R21: the sequencer state. -/
  seq : Seq
  /-- The values SEQ has held, oldest first: the SEQ path of spec file 95, the model's own record (log 15). -/
  path : List Seq
  /-- R25 `BUSY`. -/
  busy : Bool
  /-- R25 `SEL`. -/
  sel : Bool
  /-- R23: the working registers. -/
  work : Work
  /-- R30: the operand registers. -/
  args : Args
  /-- R32 `RES_KIND`. -/
  resKind : Kind
  /-- R33 `RES_LEN`. -/
  resLen : U16
  /-- R35, R52 `TXBUF`. -/
  txbuf : Memory
  /-- R35, R54 `RXBUF`. -/
  rxbuf : Memory
  /-- R10 `TRACE`, oldest event first. -/
  trace : List Event
  /-- R9, R198: no sink, or the records handed to it, oldest first (log 16). -/
  diag : Option (List DiagRecord)
  /-- R12 (3): the answers the environment has ready for `BusRead()`, next one first (log 2). -/
  script : List Byte
  /-- How many answers past the script were drawn from `Config.busDraw` (log 2). -/
  draws : Nat
  /-- R12 (2): the host's moves still to come (log 12). -/
  host : List HostMove
  deriving DecidableEq, Repr

/-- Why the machine stops with a fault. No instruction does: every failure the spec describes is a next state (R195, R196). -/
inductive Fault where
  /-- The host wrote a register R30 calls host read-only; the spec gives such a write no effect. Raised by
  `Sys2Proof.Machine.hostWrite` only. Safe: the model stops where hardware would go on (log 12). -/
  | hostWriteReadOnly (r : HostReg)
  deriving DecidableEq, Repr

/-- Why an instruction has no meaning. -/
inductive Refusal where
  /-- The row is not modelled. Raised by no arm: every row of the table has its meaning. Safe. -/
  | notModelled (mnemonic : String)
  deriving DecidableEq, Repr

/-- DESIGN CHOICE (log 6): the working registers before any operation; R40 says "unspecified; written before read". -/
def Work.reset : Work where
  opl := 0
  cmd := 0
  txn := 0
  exp := 0
  capl := 0
  cnt := 0
  pz := false
  l0 := 0
  l1 := 0
  xm := 0
  xl := 0
  xc := 0
  len := 0
  hd := 0
  hi := 0
  dlen := 0
  idx := 0
  acc := 0
  ackb := ⟨0, 0, 0, 0, 0, 0⟩
  rdcs := 0
  rpost := 0

/-- R40, R41: the state after reset. The values R40 calls unspecified are named in log 6, 7, 8; the model's own fields in
log 2, 12, 15, 16. -/
def State.reset : State where
  cfg := Config.default
  seq := .idle
  path := [.idle]
  busy := false
  sel := false
  work := Work.reset
  args := ⟨0, 0, 0, 0⟩
  resKind := .ok
  resLen := 0
  txbuf := []
  rxbuf := []
  trace := []
  diag := none
  script := []
  draws := 0
  host := []

end Sys2Proof.Machine
end

