-- ==== Sys2Proof/Machine/Ops.lean ====
section
/-! DEFINITION. The shared operations: buffer bytes, the bus and delay primitives (R9), the transfer bracket (R120), the
sequencer register (R21), and the three ways an operation ends (R194 refusal, R195 success, R196 failure). -/

namespace Sys2Proof.Machine

open Codec

/-- What an unlisted buffer index reads as. DESIGN CHOICE (log 8): 0x00. -/
def Memory.fill : Byte := 0x00

/-- R53: read one byte of a buffer. -/
def Memory.read : Memory → Nat → Byte
  | [], _ => Memory.fill
  | (k, b) :: m, a => if k = a then b else Memory.read m a

/-- R53: store one byte of a buffer; the result keeps the canonical form. -/
def Memory.write : Memory → Nat → Byte → Memory
  | [], a, b => if b = Memory.fill then [] else [(a, b)]
  | (k, v) :: m, a, b =>
    if a < k then (if b = Memory.fill then (k, v) :: m else (a, b) :: (k, v) :: m)
    else if a = k then (if b = Memory.fill then m else (a, b) :: m)
    else (k, v) :: Memory.write m a b

/-- Store bytes at rising indexes from `a`. -/
def Memory.writeAll : Memory → Nat → List Byte → Memory
  | m, _, [] => m
  | m, a, b :: bs => Memory.writeAll (Memory.write m a b) (a + 1) bs

/-- Every index listed in `m` is at least `a`, they rise, and no entry is the fill byte. -/
def Memory.wfFrom : Nat → Memory → Bool
  | _, [] => true
  | a, (k, b) :: m => decide (a ≤ k) && decide (b ≠ Memory.fill) && Memory.wfFrom (k + 1) m

/-- The canonical form of a buffer. -/
def Memory.wf (m : Memory) : Bool := Memory.wfFrom 0 m

/-- The `n` bytes of a buffer from index 0 on. -/
def Memory.bytes (m : Memory) (n : Nat) : List Byte := (List.range n).map (Memory.read m)

/-- R9 `BusSelect()`. -/
def busSelect (s : State) : State := { s with sel := true, trace := s.trace ++ [.sel] }

/-- R9 `BusDeselect()`. -/
def busDeselect (s : State) : State := { s with sel := false, trace := s.trace ++ [.des] }

/-- R9 `Delay(n)`: changes nothing but TRACE (D31). -/
def delay (n : Nat) (s : State) : State := { s with trace := s.trace ++ [.dly n] }

/-- R9 `BusWrite(b)`. -/
def busWrite (b : Byte) (s : State) : State := { s with trace := s.trace ++ [.wr b] }

/-- R9, R12 `BusRead()`: the next answer of the script, or a free draw when the script is used up (U1, log 2). -/
def busRead (s : State) : Byte × State :=
  match s.script with
  | b :: rest => (b, { s with script := rest, trace := s.trace ++ [.rd b] })
  | [] =>
    let b := Config.busDraw s.draws
    (b, { s with draws := s.draws + 1, trace := s.trace ++ [.rd b] })

/-- R120: how a transfer opens: select, settle delay, and the prefix byte if this kind of transfer has one (R79). -/
def openTransfer (pfx : Option Byte) (s : State) : State :=
  let s := delay s.cfg.settleUs (busSelect s)
  match pfx with
  | some b => busWrite b s
  | none => s

/-- R120: one whole transfer. -/
def transfer (pfx : Option Byte) (body : State → State) (s : State) : State :=
  busDeselect (body (openTransfer pfx s))

/-- `SEQ <- q`. -/
def setSeq (q : Seq) (s : State) : State := { s with seq := q, path := s.path ++ [q] }

/-- R9, R198 `Diag(kind, info)`: hands a record to the sink if there is one. -/
def emitDiag (k : Kind) (info : DiagInfo) (s : State) : State :=
  { s with diag := s.diag.map fun log => log ++ [⟨k, info⟩] }

/-- R195: the success exit, reporting `n` bytes. -/
def succeed (n : U16) (s : State) : State :=
  let s := setSeq .done s
  setSeq .idle { s with resKind := .ok, resLen := n, busy := false }

/-- R196: the failure exit of kind `k`. Every failing operation leaves by it; RXBUF is not cleared and nothing is drained. -/
def raise (k : Kind) (info : DiagInfo) (s : State) : State :=
  let s := if s.sel then busDeselect s else s
  let s := setSeq .failed s
  let s := emitDiag k info { s with resKind := k, resLen := 0 }
  setSeq .idle { s with busy := false }

/-- R194: a refused request. SEQ stays IDLE, nothing reaches the bus. -/
def refuse (s : State) : State := { s with resKind := .refused, resLen := 0, busy := false }

end Sys2Proof.Machine
end

