-- ==== Sys2Proof/Machine/Flags.lean ====
section
/-! DEFINITION. The one-bit tests and flags: the ready test of a status byte (R123), the scanner's flag PZ (R25, R152), the
STATUS register's image of BUSY (R30), and the numeric codes of SEQ and RES_KIND (R21, R32). -/

namespace Sys2Proof.Machine

/-- R123: bit 0 of the status byte; the other bits are ignored. -/
def ready (b : Byte) : Bool := (b &&& Config.readyMask) != 0

/-- R152: the byte `b` completes a start code. -/
def scanHit (pz : Bool) (b : Byte) : Bool := pz && b == Config.start2

/-- R23, R25: PZ after the scanner has read the byte `b`. -/
def scanZero (b : Byte) : Bool := b == Config.start1

/-- R30: what the host reads from STATUS: BUSY in bit 0, bits [7:1] 0. -/
def statusReg (busy : Bool) : Byte := if busy then 1 else 0

/-- R21: the code of a sequencer state. No rule depends on it. -/
def Seq.code : Seq → BitVec 4
  | .idle => 0
  | .sent => 1
  | .awaitReady1 => 2
  | .ackCheck => 3
  | .awaitReady2 => 4
  | .done => 5
  | .failed => 6
  | .wkHold => 7
  | .wrPoll => 8
  | .rrScan => 9
  | .rrLen => 10
  | .rrXlen => 11
  | .rrHdr => 12
  | .rrData => 13
  | .rrTail => 14
  | .saSend => 15

/-- R32: the code of an outcome. -/
def Kind.code : Kind → BitVec 3
  | .ok => 0
  | .timeout => 1
  | .protocolMismatch => 2
  | .corruption => 3
  | .refused => 4

/-- The sequencer stands inside a READRSP. -/
def Seq.inReader : Seq → Bool
  | .rrScan | .rrLen | .rrXlen | .rrHdr | .rrData | .rrTail => true
  | .idle | .sent | .awaitReady1 | .ackCheck | .awaitReady2 | .done | .failed | .wkHold | .wrPoll | .saSend => false

end Sys2Proof.Machine
end

