-- ==== Sys2Proof/Machine/Operands.lean ====
section
/-! DEFINITION. Where operands come from and how the host reaches the registers: acceptance latches the operands (R31), TXBUF gives
the payload (R52), the host reads and writes its registers (R30), and the answers of `BusRead()` by position (R12). -/

namespace Sys2Proof.Machine

open Codec

/-- R31: request acceptance: latch the operation code and every operand, and set BUSY. -/
def accept (o : BitVec 3) (s : State) : State :=
  { s with
    work := { s.work with opl := o, cmd := s.args.cmd, txn := s.args.txn, exp := s.args.exp, capl := s.args.cap }
    busy := true }

/-- R52: the payload bytes TXBUF[0] .. TXBUF[TXN-1]. -/
def payload (s : State) : List Byte := Memory.bytes s.txbuf s.work.txn.toNat

/-- R33, R160: min(DLEN, CAPL). -/
def reportedLen (s : State) : U16 := if s.work.dlen.toNat ≤ s.work.capl.toNat then s.work.dlen else s.work.capl

/-- R23, R132: the six captured bytes in order. -/
def AckBytes.toList (a : AckBytes) : List Byte := [a.b0, a.b1, a.b2, a.b3, a.b4, a.b5]

/-- R12: the answer at position `k` of the environment: from the script, then a free draw (U1, log 2). -/
def answerAt (script : List Byte) (draws k : Nat) : Byte :=
  match script[k]? with
  | some b => b
  | none => Config.busDraw (draws + (k - script.length))

/-- R12: the answer the k-th `BusRead()` from now on gets (k from 0). -/
def State.answer (s : State) (k : Nat) : Byte := answerAt s.script s.draws k

/-- R12: `n` answers from position `start` on. -/
def State.answers (s : State) (start n : Nat) : List Byte := (List.range n).map fun j => s.answer (start + j)

/-- The environment after `n` more answers. -/
def State.skip (s : State) (n : Nat) : State :=
  { s with script := s.script.drop n, draws := s.draws + (n - s.script.length) }

/-- R30: what the host reads. OP reads as 0. -/
def hostRead (r : HostReg) (s : State) : U16 :=
  match r with
  | .op => 0
  | .argCmd => s.args.cmd.setWidth 16
  | .argTxn => s.args.txn.setWidth 16
  | .argExp => s.args.exp.setWidth 16
  | .argCap => s.args.cap
  | .status => (statusReg s.busy).setWidth 16
  | .resKind => s.resKind.code.setWidth 16
  | .resLen => s.resLen

/-- R30: a host write to a register other than OP. Bits above the register's width do not exist (log 12); a host read-only
register stops the model by name. -/
def hostWrite (r : HostReg) (v : U16) (s : State) : Host.Outcome State Fault Refusal :=
  match r with
  | .argCmd => .next { s with args := { s.args with cmd := v.setWidth 8 } }
  | .argTxn => .next { s with args := { s.args with txn := v.setWidth 8 } }
  | .argExp => .next { s with args := { s.args with exp := v.setWidth 8 } }
  | .argCap => .next { s with args := { s.args with cap := v } }
  | .op => .next s
  | .status => .fault (.hostWriteReadOnly .status)
  | .resKind => .fault (.hostWriteReadOnly .resKind)
  | .resLen => .fault (.hostWriteReadOnly .resLen)

/-- R84: the host's part of a `SENDCMD c, [b0 .. bN-1]` line before the request: ARG_CMD, ARG_TXN and TXBUF. A payload no
ARG_TXN can count is counted as 255, which R81 refuses (log 17). -/
def loadSend (c : Byte) (bs : List Byte) (s : State) : State :=
  { s with
    args := { s.args with cmd := c, txn := BitVec.ofNat 8 (min bs.length 255) }
    txbuf := Memory.writeAll s.txbuf 0 bs }

/-- R84: the host's part of a `READRSP e, cap` line before the request: ARG_EXP and ARG_CAP. -/
def loadRead (e : Byte) (cap : U16) (s : State) : State :=
  { s with args := { s.args with exp := e, cap := cap } }

/-- The environment has `bs` ready as its next answers. -/
def present (bs : List Byte) (s : State) : State := { s with script := bs ++ s.script }

end Sys2Proof.Machine
end

