-- ==== Sys2Proof/Machine/Handshake.lean ====
section
/-! DEFINITION. The Handshake Controller (spec file 41): the status transfer and the ready loop, and one function per sequencer
state of WAKE, WAITRDY, SENDCMD and SENDACK. Each takes the state in which SEQ holds that value. -/

namespace Sys2Proof.Machine

open Codec

/-- R122: one status transfer. -/
def statusRead (s : State) : Byte × State :=
  let r := busRead (openTransfer s.cfg.pfxStatus s)
  (r.1, busDeselect r.2)

/-- `CNT <- n`. -/
def setCnt (n : Nat) (s : State) : State := { s with work := { s.work with cnt := n } }

/-- R124: one iteration of the ready loop. A ready byte leaves by `onReady`; the loop leaves by `onExhausted` when the budget is
used up, be it after this byte or, with nothing left to spend, before reading one; else the loop stays where it is. -/
def poll (onReady onExhausted : State → State) (s : State) : State :=
  if s.work.cnt < s.cfg.readyPollBudget then
    let r := statusRead s
    let s' := setCnt (s.work.cnt + 1) r.2
    if ready r.1 then onReady s'
    else if s'.work.cnt < s.cfg.readyPollBudget then s'
    else onExhausted s'
  else onExhausted s

/-- R191 (a): the Timeout of a ready loop. -/
def pollTimeout (q : Seq) (s : State) : State := raise .timeout (.loop q) s

/-- Enter a ready loop: `SEQ <- q` and `CNT <- 0` (R124). -/
def enterPoll (q : Seq) (s : State) : State := setCnt 0 (setSeq q s)

/-- R126, state WK_HOLD: hold the select for WAKE_US. -/
def wkHold (s : State) : State := succeed 0 (busDeselect (delay s.cfg.wakeUs (busSelect s)))

/-- R127, state WR_POLL. -/
def wrPoll (s : State) : State := poll (succeed 0) (pollTimeout .wrPoll) s

/-- R130: write payload bytes one by one, each added to ACC as it goes out. -/
def sendBytes : List Byte → State → State
  | [], s => s
  | b :: bs, s =>
    let s := busWrite b s
    sendBytes bs { s with work := { s.work with acc := add8 s.work.acc b, idx := s.work.idx + 1 } }

/-- Write bytes one by one. -/
def writeBytes : List Byte → State → State
  | [], s => s
  | b :: bs, s => writeBytes bs (busWrite b s)

/-- R130: what goes out inside the SENT transfer for command id `c` and payload `data`, with the checksum accumulated on the fly. -/
def frameBody (c : Byte) (data : List Byte) (s : State) : State :=
  let s := writeBytes [Config.preamble, Config.start1, Config.start2] s
  let s := writeBytes [lenByte data.length, neg8 (lenByte data.length)] s
  let s := writeBytes [Config.tfiHostToChip, c] s
  let s := sendBytes data { s with work := { s.work with acc := add8 Config.tfiHostToChip c, idx := 0 } }
  writeBytes [neg8 s.work.acc, Config.postamble] s

/-- R130: transmit one command frame in one write transfer and go on to the first ready loop. -/
def sendFrame (c : Byte) (data : List Byte) (s : State) : State :=
  enterPoll .awaitReady1 (transfer s.cfg.pfxWrite (frameBody c data) s)

/-- R130, state SENT. -/
def sent (s : State) : State := sendFrame s.work.cmd (payload s) s

/-- R131, state AWAIT_READY_1. -/
def awaitReady1 (s : State) : State := poll (setSeq .ackCheck) (pollTimeout .awaitReady1) s

/-- R132: read the six bytes into ACKB. -/
def readAck (s : State) : State :=
  let r0 := busRead s
  let r1 := busRead r0.2
  let r2 := busRead r1.2
  let r3 := busRead r2.2
  let r4 := busRead r3.2
  let r5 := busRead r4.2
  let s' := r5.2
  { s' with work := { s'.work with ackb := ⟨r0.1, r1.1, r2.1, r3.1, r4.1, r5.1⟩, idx := 6 } }

/-- R132, state ACK_CHECK: all six bytes are read in one transfer before the comparison. -/
def ackCheck (s : State) : State :=
  let s := transfer s.cfg.pfxRead readAck s
  if isAck s.work.ackb.toList then enterPoll .awaitReady2 s
  else raise .protocolMismatch (.ackBytes s.work.ackb) s

/-- R133, state AWAIT_READY_2. -/
def awaitReady2 (s : State) : State := poll (succeed 0) (pollTimeout .awaitReady2) s

/-- R136: the six ACK bytes, counted by IDX. -/
def ackFrameBody (s : State) : State :=
  let s := writeBytes Config.ackSeq s
  { s with work := { s.work with idx := 6 } }

/-- R136, state SA_SEND. -/
def saSend (s : State) : State := succeed 0 (transfer s.cfg.pfxWrite ackFrameBody s)

end Sys2Proof.Machine
end

