-- ==== Sys2Proof/Machine/Reader.lean ====
section
/-! DEFINITION. The Response Reader (spec file 42): one function per sequencer state of READRSP, in the order of its rules.
The whole operation is one transfer: `rrEntry` opens it, `rrTail` or a failure exit closes it. -/

namespace Sys2Proof.Machine

open Codec

/-- R151: READRSP's entry. -/
def rrEntry (s : State) : State :=
  setSeq .rrScan (openTransfer s.cfg.pfxRead { s with resLen := 0 })

/-- R152: the scan loop with `n` iterations left; answers whether a start code was found. Every byte read writes PZ (R23, R25), the
0xFF that completes the start code too, which R152's pseudocode passes over (log 23). -/
def scanLoop : Nat → State → Bool × State
  | 0, s => (false, s)
  | n + 1, s =>
    let r := busRead s
    let s' := { r.2 with work := { r.2.work with cnt := s.work.cnt + 1, pz := scanZero r.1 } }
    if scanHit s.work.pz r.1 then (true, s') else scanLoop n s'

/-- R152, state RR_SCAN: the start-sequence scanner. -/
def rrScan (s : State) : State :=
  let r := scanLoop s.cfg.scanBudget { s with work := { s.work with cnt := 0, pz := false } }
  if r.1 then setSeq .rrLen r.2 else raise .timeout (.loop .rrScan) r.2

/-- R153, state RR_LEN: both length bytes are read before either test. -/
def rrLen (s : State) : State :=
  let r0 := busRead s
  let r1 := busRead r0.2
  let s' := { r1.2 with work := { r1.2.work with l0 := r0.1, l1 := r1.1 } }
  if isExtMark r0.1 r1.1 then setSeq .rrXlen s'
  else if lenOk r0.1 r1.1 then setSeq .rrHdr { s' with work := { s'.work with len := r0.1.setWidth 16 } }
  else raise .corruption (.lengthBytes r0.1 r1.1) s'

/-- R154, state RR_XLEN: all three bytes are read before the test. -/
def rrXlen (s : State) : State :=
  let r0 := busRead s
  let r1 := busRead r0.2
  let r2 := busRead r1.2
  let s' := { r2.2 with work := { r2.2.work with xm := r0.1, xl := r1.1, xc := r2.1 } }
  if xlenOk r0.1 r1.1 r2.1 then setSeq .rrHdr { s' with work := { s'.work with len := xlen r0.1 r1.1 } }
  else raise .corruption (.extLengthBytes r0.1 r1.1 r2.1) s'

/-- R156: the three tests of the header, made together. -/
def headerOk (s : State) (hd hi : Byte) : Bool :=
  hd == s.cfg.tfiChipToHost && hi == s.work.exp && decide (2 ≤ s.work.len.toNat)

/-- R156, state RR_HDR: direction, response id, minimum length. -/
def rrHdr (s : State) : State :=
  let r0 := busRead s
  let r1 := busRead r0.2
  let s' := { r1.2 with work := { r1.2.work with hd := r0.1, hi := r1.1 } }
  if headerOk s r0.1 r1.1 then
    setSeq .rrData { s' with work := { s'.work with dlen := s'.work.len - 2, acc := add8 r0.1 r1.1 } }
  else raise .corruption (.header r0.1 r1.1 s.work.len) s'

/-- R158: one data byte: stored while the buffer has capacity, always accumulated. -/
def dataByte (s : State) : State :=
  let r := busRead s
  let s' := r.2
  { s' with
    rxbuf := if s'.work.idx < s'.work.capl.toNat then Memory.write s'.rxbuf s'.work.idx r.1 else s'.rxbuf
    work := { s'.work with acc := add8 s'.work.acc r.1, idx := s'.work.idx + 1 } }

/-- R158: `n` data bytes. -/
def dataLoop : Nat → State → State
  | 0, s => s
  | n + 1, s => dataLoop n (dataByte s)

/-- R158, state RR_DATA: extract and drain. -/
def rrData (s : State) : State :=
  setSeq .rrTail (dataLoop s.work.dlen.toNat { s with work := { s.work with idx := 0 } })

/-- R160, state RR_TAIL: checksum, postamble, verdict. -/
def rrTail (s : State) : State :=
  let r0 := busRead s
  let r1 := busRead r0.2
  let s' := busDeselect { r1.2 with work := { r1.2.work with rdcs := r0.1, rpost := r1.1 } }
  if add8 r0.1 s.work.acc == 0 then succeed (reportedLen s') s'
  else raise .corruption (.checksum r0.1 (neg8 s.work.acc)) s'

end Sys2Proof.Machine
end

