-- ==== Sys2Proof/Machine/Sequencer.lean ====
section
/-! DEFINITION. The sequencer: dispatch of an accepted request (R31, R80), one move per sequencer state (R22), and running an
operation to its exit (R13, R61). -/

namespace Sys2Proof.Machine

/-- R31, R80, R81: dispatch on OPL. -/
def dispatch (s : State) : State :=
  if s.work.opl = opWake then setSeq .wkHold s
  else if s.work.opl = opWaitrdy then enterPoll .wrPoll s
  else if s.work.opl = opSendcmd then
    (if Config.maxTxPayload < s.work.txn.toNat then refuse s else setSeq .sent s)
  else if s.work.opl = opReadrsp then rrEntry s
  else if s.work.opl = opSendack then setSeq .saSend s
  else refuse s

/-- R195, R196, last line of both exits: `BUSY <- 0; SEQ <- IDLE`. -/
def leave (s : State) : State := setSeq .idle { s with busy := false }

/-- R22: the move the running operation makes from the sequencer state it stands in: to the next state, or, in a ready loop,
through one status byte. IDLE with BUSY set is a request accepted and not yet dispatched (R31). -/
def tick (s : State) : State :=
  match s.seq with
  | .idle => dispatch s
  | .wkHold => wkHold s
  | .wrPoll => wrPoll s
  | .sent => sent s
  | .awaitReady1 => awaitReady1 s
  | .ackCheck => ackCheck s
  | .awaitReady2 => awaitReady2 s
  | .saSend => saSend s
  | .rrScan => rrScan s
  | .rrLen => rrLen s
  | .rrXlen => rrXlen s
  | .rrHdr => rrHdr s
  | .rrData => rrData s
  | .rrTail => rrTail s
  | .done => leave s
  | .failed => leave s

/-- Up to `n` moves, until BUSY is clear. -/
def run : Nat → State → State
  | 0, s => s
  | n + 1, s => if s.busy then run n (tick s) else s

/-- R13: more moves than any operation makes: two ready loops and a few. -/
def opFuel (s : State) : Nat := 2 * s.cfg.readyPollBudget + 10

/-- R31, R61: a request with operation code `o` as one blocking call: accepted, dispatched, and run to its exit.
With BUSY set a write to OP has no effect and is not queued. -/
def request (o : BitVec 3) (s : State) : State :=
  if s.busy then s
  else
    let s := dispatch (accept o s)
    run (opFuel s) s

/-- What TFS does next while an operation is in flight (log 1): the whole response frame inside READRSP, else one move. -/
def inFlight (s : State) : State := if s.seq.inReader then run 6 s else tick s

/-- The chip presents `bs` as its next answers, and TFS makes its next move if an operation is in flight; between
operations it reads nothing (R36, R55; log 9). -/
def deliver (bs : List Byte) (s : State) : State :=
  if s.busy then inFlight (present bs s) else present bs s

end Sys2Proof.Machine
end

