-- ==== Sys2Proof/Machine/HostOps.lean ====
section
/-! DEFINITION. The meanings of the host operations and of the reserved codes (R80, R81): each is the request with its code.
What each does in each sequencer state stands in Handshake.lean and Reader.lean. -/

namespace Sys2Proof.Machine

/-- R126. -/
def execWake (s : State) : Host.Outcome State Fault Refusal := .next (request opWake s)

/-- R127. -/
def execWaitrdy (s : State) : Host.Outcome State Fault Refusal := .next (request opWaitrdy s)

/-- R130 to R134. -/
def execSendcmd (s : State) : Host.Outcome State Fault Refusal := .next (request opSendcmd s)

/-- R150 to R163. -/
def execReadrsp (s : State) : Host.Outcome State Fault Refusal := .next (request opReadrsp s)

/-- R136. -/
def execSendack (s : State) : Host.Outcome State Fault Refusal := .next (request opSendack s)

/-- R81, R194: refused, which is a next state with RES_KIND = Refused (log 19). -/
def execReservedOp0 (s : State) : Host.Outcome State Fault Refusal := .next (request 0b000 s)

/-- R81, R194: OP = 110 or 111. -/
def execReservedOp67 (low : BitVec 1) (s : State) : Host.Outcome State Fault Refusal :=
  .next (request (0b11#2 ++ low) s)

end Sys2Proof.Machine
end

