-- ==== Sys2Proof/Machine/Pseudo.lean ====
section
/-! DEFINITION. The meanings of the pseudo-operations (spec file 43): host programs over the real operations. -/

namespace Sys2Proof.Machine

/-- R181: INIT expands to WAKE. -/
def execInit (s : State) : Host.Outcome State Fault Refusal := .next (request opWake s)

/-- R180: the host program of XCHG: SENDCMD, then, if it ended Ok, READRSP with id (c + 1) mod 256. -/
def exchange (c : Byte) (bs : List Byte) (cap : U16) (s : State) : State :=
  let s := request opSendcmd (loadSend c bs s)
  if s.resKind = .ok then request opReadrsp (loadRead (Codec.add8 c 1) cap s) else s

/-- R180. While an operation runs the host issues nothing (R12 (2), R51; log 13). -/
def execXchg (c : Byte) (bs : List Byte) (cap : U16) (s : State) : Host.Outcome State Fault Refusal :=
  .next (if s.busy then s else exchange c bs cap s)

end Sys2Proof.Machine
end

