-- ==== Sys2Proof/Machine/Wire.lean ====
section
/-! DEFINITION. The meanings of the wire formats (R70 to R74): what TFS does with those bytes. Which format bytes are taken as is
decided by the sequencer state alone (R73, R77), so an inbound format is presented to the machine, which makes its own move
(log 9); the outbound CF and AK are what TFS writes in SENT and SA_SEND. -/

namespace Sys2Proof.Machine

/-- R104, R105: the command frame. TFS writes it in state SENT, in one write transfer; in any other state the codec is a pure
function that touches neither state nor bus. More than 253 data bytes are no frame (R106). -/
def execCf (c : Byte) (data : List Byte) (s : State) : Host.Outcome State Fault Refusal :=
  .next (if s.seq = .sent ∧ data.length ≤ Config.maxTxPayload then sendFrame c data s else s)

/-- R71, R153, R161: a normal response frame. In RR_SCAN the Response Reader takes it whole. -/
def execRn (noise : List Byte) (l k t r : Byte) (d : List Byte) (x p : Byte) (s : State) :
    Host.Outcome State Fault Refusal :=
  .next (deliver (encodeRn noise l k t r d x p) s)

/-- R72, R154, R161: an extended response frame. -/
def execRx (noise : List Byte) (m l k t r : Byte) (d : List Byte) (x p : Byte) (s : State) :
    Host.Outcome State Fault Refusal :=
  .next (deliver (encodeRx noise m l k t r d x p) s)

/-- R73, R107: the ACK frame: outbound in SA_SEND (R136), inbound otherwise: accepted in ACK_CHECK (R132). -/
def execAk (s : State) : Host.Outcome State Fault Refusal :=
  .next (if s.busy && s.seq == .saSend then inFlight s else deliver Config.ackSeq s)

/-- R74, R123: a status byte that says ready. -/
def execStReady (hi : BitVec 7) (s : State) : Host.Outcome State Fault Refusal :=
  .next (deliver [statusByte hi 1] s)

/-- R74, R123: a status byte that says not ready. -/
def execStNotReady (hi : BitVec 7) (s : State) : Host.Outcome State Fault Refusal :=
  .next (deliver [statusByte hi 0] s)

end Sys2Proof.Machine
end

