-- ==== Sys2Proof/Machine/Dispatch.lean ====
section
/-! DEFINITION. One arm per constructor of Instr, each one call of its meaning. -/

namespace Sys2Proof.Machine

def exec (i : Instr) (s : State) : Host.Outcome State Fault Refusal :=
  match i with
  -- host operations and reserved codes (R80, R81)
  | .wake => Sys2Proof.Machine.execWake s
  | .waitrdy => Sys2Proof.Machine.execWaitrdy s
  | .sendcmd => Sys2Proof.Machine.execSendcmd s
  | .readrsp => Sys2Proof.Machine.execReadrsp s
  | .sendack => Sys2Proof.Machine.execSendack s
  | .reservedOp0 => Sys2Proof.Machine.execReservedOp0 s
  | .reservedOp67 low => Sys2Proof.Machine.execReservedOp67 low s
  -- pseudo-operations (R85)
  | .init => Sys2Proof.Machine.execInit s
  | .xchg c payload cap => Sys2Proof.Machine.execXchg c payload cap s
  -- wire formats (R70 to R74)
  | .cf c data => Sys2Proof.Machine.execCf c data s
  | .rn noise l k t r d x p => Sys2Proof.Machine.execRn noise l k t r d x p s
  | .rx noise m l k t r d x p => Sys2Proof.Machine.execRx noise m l k t r d x p s
  | .ak => Sys2Proof.Machine.execAk s
  | .stReady hi => Sys2Proof.Machine.execStReady hi s
  | .stNotReady hi => Sys2Proof.Machine.execStNotReady hi s

end Sys2Proof.Machine
end

