-- ==== Sys2Proof/Machine/Fetch.lean ====
section
/-! DEFINITION. Where the next instruction comes from. SEQ plays the part of a program counter (R8): with BUSY clear the next
instruction is the host's next request (R31, R85); with BUSY set it is the wire format the running operation stands before
(R70 to R77). Also where a given instruction is put so that the next step meets it (log 11). -/

namespace Sys2Proof.Machine

/-- R80, R85: the host moves that are requests, as codes of the host port. -/
def hostCode : HostMove → Option Code
  | .write .op v => some (.op (v.setWidth 3))
  | .lineInit => some .lineInit
  | .lineXchg c bs cap => some (.lineXchg c bs cap)
  | .write .argCmd _ | .write .argTxn _ | .write .argExp _ | .write .argCap _ => none
  | .write .status _ | .write .resKind _ | .write .resLen _ => none
  | .fillTx _ | .fillRx _ => none

/-- The host's next request, decoded, and the state in which the host has made it. -/
def fetchHost (s : State) : Option (Instr × State) :=
  match s.host with
  | [] => none
  | m :: rest =>
    match hostCode m with
    | some code => (instrOf (decode code)).map fun i => (i, { s with host := rest })
    | none => none

/-- The format at the inbound stream's front, decoded with the answers `bs` of it, and the state `s'` without them. -/
def fetchInbound (code : Code) (s' : List Byte → State) : Option (Instr × State) :=
  match decode code with
  | .ok (i, rest) => some (i, s' rest)
  | .error _ => none

/-- The wire format the running operation stands before, and the state with its bytes taken off the inbound stream: the
command frame in SENT, a status byte in a ready loop with budget left, six ACK bytes in ACK_CHECK, the ACK frame in
SA_SEND, a response frame in RR_SCAN. -/
def fetchWire (s : State) : Option (Instr × State) :=
  match s.seq with
  | .sent =>
    if s.work.txn.toNat ≤ Config.maxTxPayload then
      fetchInbound (.command (Codec.encodeFrame s.work.cmd (payload s))) fun _ => s
    else none
  | .wrPoll | .awaitReady1 | .awaitReady2 =>
    if s.work.cnt < s.cfg.readyPollBudget then fetchInbound (.status (s.answers 0 1)) fun _ => s.skip 1 else none
  | .ackCheck => fetchInbound (.ack (s.answers 0 6)) fun _ => s.skip 6
  | .saSend => fetchInbound (.ack Config.ackSeq) fun _ => s
  | .rrScan => fetchInbound (.response s.script) fun rest => { s with script := rest }
  | .idle | .done | .failed | .wkHold | .rrLen | .rrXlen | .rrHdr | .rrData | .rrTail => none

/-- The instruction the next step runs, if the machine stands before one, and the state it runs it in. -/
def fetch (s : State) : Option (Instr × State) := if s.busy then fetchWire s else fetchHost s

/-- What the host's next move does when it is no request, and a request that is no line of the host's language: an XCHG with
more than 253 payload bytes is refused (R81). With no move pending TFS waits (R40). -/
def hostAct (s : State) : Host.Outcome State Fault Refusal :=
  match s.host with
  | [] => .next s
  | .write r v :: rest => hostWrite r v { s with host := rest }
  | .fillTx bs :: rest => .next { s with txbuf := Memory.writeAll s.txbuf 0 bs, host := rest }
  | .fillRx bs :: rest => .next { s with rxbuf := Memory.writeAll s.rxbuf 0 bs, host := rest }
  | .lineInit :: rest => .next { s with host := rest }
  | .lineXchg _ _ _ :: rest => .next (refuse { s with host := rest })

/-- What a step does where no instruction is met: the running operation's next move, or the host's. -/
def noInstr (s : State) : Host.Outcome State Fault Refusal := if s.busy then .next (inFlight s) else hostAct s

/-- The machine between operations, its other registers as they are. -/
def quiet (s : State) : State := { s with seq := .idle, busy := false, sel := false }

/-- The machine inside the operation with code `o`, at sequencer state `q`, a ready loop's count at 0. -/
def inside (o : BitVec 3) (q : Seq) (s : State) : State :=
  { s with seq := q, busy := true, sel := q.inReader, work := { s.work with opl := o, cnt := 0 } }

/-- `s` with the instruction `i` where the next step meets it (log 11): a request at the head of the host's moves of an idle
machine; a wire format in the sequencer state that takes it, its bytes first on the inbound stream. -/
def place (i : Instr) (s : State) : State :=
  let hostMove (m : HostMove) : State := { quiet s with host := m :: s.host }
  match i with
  | .wake => hostMove (.write .op (opWake.setWidth 16))
  | .waitrdy => hostMove (.write .op (opWaitrdy.setWidth 16))
  | .sendcmd => hostMove (.write .op (opSendcmd.setWidth 16))
  | .readrsp => hostMove (.write .op (opReadrsp.setWidth 16))
  | .sendack => hostMove (.write .op (opSendack.setWidth 16))
  | .reservedOp0 => hostMove (.write .op 0)
  | .reservedOp67 low => hostMove (.write .op ((0b11#2 ++ low).setWidth 16))
  | .init => hostMove .lineInit
  | .xchg c bs cap => hostMove (.lineXchg c bs cap)
  | .cf c data =>
    let s := inside opSendcmd .sent s
    { s with
      work := { s.work with cmd := c, txn := BitVec.ofNat 8 data.length }
      txbuf := Memory.writeAll s.txbuf 0 data }
  | .rn noise l k t r d x p => present (encodeRn noise l k t r d x p) (inside opReadrsp .rrScan s)
  | .rx noise m l k t r d x p => present (encodeRx noise m l k t r d x p) (inside opReadrsp .rrScan s)
  | .ak => present Config.ackSeq (inside opSendcmd .ackCheck s)
  | .stReady hi => present [statusByte hi 1] (inside opWaitrdy .wrPoll s)
  | .stNotReady hi => present [statusByte hi 0] (inside opWaitrdy .wrPoll s)

end Sys2Proof.Machine
end

