-- ==== Sys2Proof/Machine/Step.lean ====
section
/-! DEFINITION. One step: fetch, decode and run an instruction, or, where none is met, the machine's or the host's next move. -/

namespace Sys2Proof.Machine

/-- One step (log 1): a request runs to its exit, an operation in flight takes the wire format it stands before. -/
def step (s : State) : Host.Outcome State Fault Refusal :=
  match fetch s with
  | some (i, s') => exec i s'
  | none => noInstr s

/-- `s` with the instruction of a table word placed where `step` meets it next (log 11); `s` itself if the word is none. -/
def State.withFetchWord (s : State) (nbits w : Nat) : State :=
  match decodeTableWord nbits w with
  | some i => place i s
  | none => s

end Sys2Proof.Machine
end

