-- ==== Sys2Proof/Machine/FrameDecoder.lean ====
section
/-! DEFINITION. R108: `DECODE`, the stream-free statement of the decoder: the outcome of READRSP on a given list of bytes with a
given direction byte. It is no circuit of its own: it runs the Response Reader. -/

namespace Sys2Proof.Machine

/-- What R108 observes of a run of the decoder. -/
structure Decoded where
  /-- `RES_KIND`. -/
  kind : Kind
  /-- `RES_LEN`. -/
  len : Nat
  /-- The bytes stored in RXBUF, index 0 first. -/
  stored : List Byte
  /-- How many bytes of the stream were consumed. -/
  consumed : Nat
  deriving DecidableEq, Repr

/-- The idle machine DECODE runs on: the instance `cfg` with its direction byte replaced, expected id `e`, capacity `cap`, and the
stream `bs`. -/
def decoderStart (cfg : Config) (t e : Byte) (cap : U16) (bs : List Byte) : State :=
  { State.reset with
    cfg := { cfg with tfiChipToHost := t }
    args := { State.reset.args with exp := e, cap := cap }
    script := bs }

/-- R108 `DECODE(t, e, cap, s)` on an instance `cfg`. Defined as R108 says only when `bs` is long enough for every read. -/
def decodeStream (cfg : Config) (t e : Byte) (cap : U16) (bs : List Byte) : Decoded :=
  let s := request opReadrsp (decoderStart cfg t e cap bs)
  { kind := s.resKind
    len := s.resLen.toNat
    stored := Memory.bytes s.rxbuf (min s.work.idx cap.toNat)
    consumed := bs.length - s.script.length }

end Sys2Proof.Machine
end

