-- ==== Sys2Proof/Safety.lean ====
section
/-! DEFINITION. The terms claims are stated in: the transition table of SEQ (R22), the select bracket of TRACE (R26, R120), the events
of a transfer, and the invariant of the machine. -/

namespace Sys2Proof.Machine

open Codec

/-- R22: the complete transition relation of SEQ, in the table's order. -/
def seqTable : List (Seq × Seq) :=
  [(.idle, .wkHold), (.wkHold, .done),
   (.idle, .wrPoll), (.wrPoll, .done), (.wrPoll, .failed),
   (.idle, .sent), (.sent, .awaitReady1), (.awaitReady1, .ackCheck), (.awaitReady1, .failed),
   (.ackCheck, .awaitReady2), (.ackCheck, .failed), (.awaitReady2, .done), (.awaitReady2, .failed),
   (.idle, .saSend), (.saSend, .done),
   (.idle, .rrScan), (.rrScan, .rrLen), (.rrScan, .failed),
   (.rrLen, .rrXlen), (.rrLen, .rrHdr), (.rrLen, .failed),
   (.rrXlen, .rrHdr), (.rrXlen, .failed),
   (.rrHdr, .rrData), (.rrHdr, .failed), (.rrData, .rrTail), (.rrTail, .done), (.rrTail, .failed),
   (.done, .idle), (.failed, .idle), (.idle, .idle)]

/-- Every two neighbours of a SEQ path are a row of R22. -/
def pathOk : List Seq → Bool
  | a :: b :: p => seqTable.contains (a, b) && pathOk (b :: p)
  | _ => true

/-- R26, R120: the select line after the events, from `sel`: none when a select or deselect does not alternate or a byte
travels outside a bracket. -/
def selAfter (sel : Bool) : List Event → Option Bool
  | [] => some sel
  | .sel :: es => if sel then none else selAfter true es
  | .des :: es => if sel then selAfter false es else none
  | .dly _ :: es => selAfter sel es
  | .wr _ :: es => if sel then selAfter sel es else none
  | .rd _ :: es => if sel then selAfter sel es else none

/-- R120: what opens a transfer with the optional prefix `pfx`. -/
def openEvents (cfg : Config) (pfx : Option Byte) : List Event :=
  [.sel, .dly cfg.settleUs] ++ (pfx.toList.map Event.wr)

/-- R120: one whole transfer around `body`. -/
def transferEvents (cfg : Config) (pfx : Option Byte) (body : List Event) : List Event :=
  openEvents cfg pfx ++ body ++ [.des]

/-- R122, R124: the events of one status transfer for each byte of `bs`. -/
def pollEvents (cfg : Config) (bs : List Byte) : List Event :=
  (bs.map fun b => transferEvents cfg cfg.pfxStatus [.rd b]).flatten

/-- The invariant: what holds between any two moves of the machine. -/
structure State.Inv (s : State) : Prop where
  /-- The buffers are in canonical form. -/
  txWf : s.txbuf.wf = true
  rxWf : s.rxbuf.wf = true
  /-- R22: SEQ has followed the transition table, and the path ends where SEQ stands. -/
  pathOk : Machine.pathOk s.path = true
  pathLast : s.path.getLast? = some s.seq
  /-- R26, R120: the events so far are well bracketed, and SEL is what they leave. -/
  bracket : selAfter false s.trace = some s.sel
  /-- R26: between moves SEL is set exactly inside the one transfer of a READRSP. -/
  selReader : s.sel = s.seq.inReader
  /-- R22: SEQ is IDLE between operations. -/
  idle : s.busy = false → s.seq = .idle
  /-- R33, R190: a failure reports length 0. -/
  failZero : s.resKind ≠ .ok → s.resLen = 0
  /-- R30: RES_LEN is at most 65533. -/
  lenBound : s.resLen.toNat ≤ 65533
  /-- R156: DLEN is LEN - 2 with LEN at least 2. -/
  dlenBound : (s.seq = .rrData ∨ s.seq = .rrTail) → s.work.dlen.toNat ≤ 65533
  /-- R130: SENT is entered only with TXN at most 253. -/
  txnBound : s.seq = .sent → s.work.txn.toNat ≤ Config.maxTxPayload

/-- The working registers right after acceptance of the operation code `o` (R31). -/
def latched (o : BitVec 3) (s : State) : Work :=
  { s.work with opl := o, cmd := s.args.cmd, txn := s.args.txn, exp := s.args.exp, capl := s.args.cap }

/-- R35, R52: the payload the ARG_ registers and TXBUF announce. -/
def requestPayload (s : State) : List Byte := Memory.bytes s.txbuf s.args.txn.toNat

/-- R12: the answers from position `start` on are exactly `bs`. -/
abbrev answersAre (s : State) (start : Nat) (bs : List Byte) : Prop := s.answers start bs.length = bs

/-- R124: a ready loop that starts at answer `start` sees its first ready byte at its `k`-th poll (from 0), within the budget. -/
abbrev readyAt (s : State) (start k : Nat) : Prop :=
  k < s.cfg.readyPollBudget ∧ (∀ j < k, ready (s.answer (start + j)) = false) ∧ ready (s.answer (start + k)) = true

/-- R124: no answer a ready loop that starts at answer `start` may spend its budget on is ready. -/
abbrev neverReady (s : State) (start : Nat) : Prop :=
  ∀ j < s.cfg.readyPollBudget, ready (s.answer (start + j)) = false

/-- What a READRSP that read the bytes `bs` and failed with kind `k` leaves: the stream behind those bytes, the bus deselected, the
kind, length 0, RXBUF as given, and everything outside the working registers and the records otherwise untouched. -/
def ReadrspFails (s : State) (k : Kind) (x : DiagInfo) (bs : List Byte) (rxbuf : Memory) (path : List Seq) : Prop :=
  ∃ w : Work,
    exec .readrsp s = .next { s.skip bs.length with
      seq := .idle
      path := s.path ++ path ++ [.failed, .idle]
      sel := false
      work := w
      resKind := k
      resLen := 0
      rxbuf := rxbuf
      trace := s.trace ++ transferEvents s.cfg s.cfg.pfxRead (bs.map Event.rd)
      diag := s.diag.map fun log => log ++ [⟨k, x⟩] }
    ∧ w.opl = opReadrsp ∧ w.cmd = s.args.cmd ∧ w.txn = s.args.txn ∧ w.exp = s.args.exp ∧ w.capl = s.args.cap
    ∧ w.ackb = s.work.ackb

/-- What a response frame `i` met in RR_SCAN that fails with kind `k` leaves: of its bytes `bs` read and `left` first in the
stream, the bus deselected, the kind, length 0, RXBUF as given, and everything outside the working registers and the records
otherwise untouched. -/
def ScannedFrameFails (s : State) (i : Instr) (k : Kind) (x : DiagInfo) (bs left : List Byte) (rxbuf : Memory)
    (path : List Seq) : Prop :=
  ∃ w : Work,
    exec i s = .next { s with
      seq := .idle
      path := s.path ++ path ++ [.failed, .idle]
      busy := false
      sel := false
      work := w
      resKind := k
      resLen := 0
      rxbuf := rxbuf
      trace := s.trace ++ bs.map Event.rd ++ [.des]
      script := left ++ s.script
      diag := s.diag.map fun log => log ++ [⟨k, x⟩] }
    ∧ w.opl = s.work.opl ∧ w.cmd = s.work.cmd ∧ w.txn = s.work.txn ∧ w.exp = s.work.exp ∧ w.capl = s.work.capl
    ∧ w.ackb = s.work.ackb

/-- R180: an XCHG whose ready loops see ready at their polls `k1` and `k2` ends Ok: the command frame, the polls, the ACK and the
response frame `fr` on the bus, the data `d` of that frame stored up to `cap` and their number reported. -/
def XchgEndsOk (s : State) (c : Byte) (pl : List Byte) (cap : U16) (k1 k2 : Nat) (d fr : List Byte) : Prop :=
  ∃ e : State, exec (.xchg c pl cap) s = .next e
    ∧ e.resKind = .ok ∧ e.resLen.toNat = min d.length cap.toNat
    ∧ e.rxbuf = Memory.writeAll s.rxbuf 0 (d.take cap.toNat)
    ∧ e.busy = false ∧ e.seq = .idle ∧ e.sel = false
    ∧ e.trace = s.trace
      ++ transferEvents s.cfg s.cfg.pfxWrite ((encodeFrame c pl).map Event.wr)
      ++ pollEvents s.cfg (s.answers 0 (k1 + 1))
      ++ transferEvents s.cfg s.cfg.pfxRead (Config.ackSeq.map Event.rd)
      ++ pollEvents s.cfg (s.answers (k1 + 7) (k2 + 1))
      ++ transferEvents s.cfg s.cfg.pfxRead (fr.map Event.rd)

/-- The state with no diagnostic sink (R198, R204). -/
def State.dropSink (s : State) : State := { s with diag := none }

/-- An outcome with no diagnostic sink. -/
def dropSinkOutcome : Host.Outcome State Fault Refusal → Host.Outcome State Fault Refusal
  | .next s => .next s.dropSink
  | .fault r => .fault r
  | .refused r => .refused r

end Sys2Proof.Machine
end

