-- ==== Sys2Proof/Certificates/Slice0/Obligations.lean ====
section
/-! DEFINITION. The statements for the provers. `s.answer k` is the answer the k-th `BusRead()` from `s` on gets, whatever the
script and the free draws are (R12, log 2): no statement rests on a value of `Config.busDraw`. -/

open Sys2Proof Sys2Proof.Machine Sys2Proof.Codec

/-! ## The Frame Codec -/

/-- R101: LCS, both validation forms, and the rule's corner cases and example. -/
def Obligations.LengthChecksumRule : Prop :=
  ∀ l l0 l1 xm xl xc : Byte,
    lcs l = neg8 l ∧ (neg8 l).toNat = (256 - l.toNat) % 256
    ∧ (lenOk l0 l1 = true ↔ (l0.toNat + l1.toNat) % 256 = 0)
    ∧ (xlenOk xm xl xc = true ↔ (xm.toNat + xl.toNat + xc.toNat) % 256 = 0)
    ∧ lcs 0x00 = 0x00 ∧ lenOk 0x00 0x00 = true ∧ lcs 0xFF = 0x01 ∧ lenOk 0xFF 0xFF = false
    ∧ lcs 0x02 = 0xFE

/-- R102: DCS, its validation form as a sum of naturals, the corner cases and the example. -/
def Obligations.DataChecksumRule : Prop :=
  ∀ (t c : Byte) (data : List Byte) (k : Byte),
    dcs t c data = neg8 (sum8 ([t, c] ++ data))
    ∧ (bodyOk t c data k = true ↔ (t.toNat + c.toNat + (data.map BitVec.toNat).sum + k.toNat) % 256 = 0)
    ∧ (bodyOk t c data k = true ↔ k = dcs t c data)
    ∧ dcs t c [] = neg8 (add8 t c)
    ∧ dcs 0xD4 0x2C [] = 0x00 ∧ dcs 0xD4 0x02 [] = 0x2A

/-- R104: the command frame byte by byte, its length, and the example. -/
def Obligations.CommandFrameLayout : Prop :=
  (∀ (c : Byte) (data : List Byte), data.length ≤ 253 →
    encodeFrame c data =
      [0x00, 0x00, 0xFF] ++ [BitVec.ofNat 8 (data.length + 2), lcs (BitVec.ofNat 8 (data.length + 2))]
        ++ [0xD4, c] ++ data ++ [dcs 0xD4 c data] ++ [0x00]
    ∧ (BitVec.ofNat 8 (data.length + 2)).toNat = data.length + 2
    ∧ (encodeFrame c data).length = 9 + data.length
    ∧ (data.length = 253 → (encodeFrame c data)[3]? = some 0xFF ∧ (encodeFrame c data)[4]? = some 0x01))
  ∧ encodeFrame 0x02 [] = [0x00, 0x00, 0xFF, 0x02, 0xFE, 0xD4, 0x02, 0x2A, 0x00]

/-- R107: the ACK comparator matches exactly six bytes, and every single-byte corruption is rejected. -/
def Obligations.AckComparatorIsExact : Prop :=
  (∀ a b c d e f : Byte,
    isAck [a, b, c, d, e, f] = true ↔ a = 0x00 ∧ b = 0x00 ∧ c = 0xFF ∧ d = 0x00 ∧ e = 0xFF ∧ f = 0x00)
  ∧ (∀ (i : Nat) (v : Byte), i < 6 → Config.ackSeq[i]? ≠ some v → isAck (Config.ackSeq.set i v) = false)

/-- R100: byte addition and negation are those of the naturals modulo 256, and a sum does not depend on the order. -/
def Obligations.ByteArithmeticLaws : Prop :=
  (∀ a b : Byte, (add8 a b).toNat = (a.toNat + b.toNat) % 256)
  ∧ (∀ x : Byte, add8 x (neg8 x) = 0 ∧ neg8 (neg8 x) = x)
  ∧ (∀ xs ys : List Byte, xs.Perm ys → sum8 xs = sum8 ys)
  ∧ sum8 [] = 0 ∧ neg8 0 = 0 ∧ neg8 1 = 0xFF ∧ neg8 0x80 = 0x80 ∧ neg8 0xFF = 0x01

/-- R110 (an inference the spec marks as its own): changing one summed byte of a good frame, or LEN or LCS, breaks the check that
covers it. -/
def Obligations.OneChangedByteBreaksTheCheck : Prop :=
  (∀ (t c : Byte) (data : List Byte) (k : Byte) (i : Nat) (v : Byte),
    bodyOk t c data k = true → i < data.length + 3 → (t :: c :: (data ++ [k]))[i]? ≠ some v →
      sum8 ((t :: c :: (data ++ [k])).set i v) ≠ 0)
  ∧ (∀ l k v : Byte, lenOk l k = true → (v ≠ l → lenOk v k = false) ∧ (v ≠ k → lenOk l v = false))

/-- R109, the round-trip law as conflict C5 reads it: the decoder, told to expect the encoder's direction and id, gets the
command id's frame back: its data, and every byte consumed. -/
def Obligations.CommandRoundTrip : Prop :=
  ∀ (cfg : Config) (c : Byte) (data : List Byte) (cap : U16),
    3 ≤ cfg.scanBudget → data.length ≤ 253 → data.length ≤ cap.toNat →
      decodeStream cfg 0xD4 c cap (encodeFrame c data) = ⟨.ok, data.length, data, 9 + data.length⟩

/-- R109, the same law for normal response frames, with any capacity (R162). -/
def Obligations.ResponseRoundTrip : Prop :=
  ∀ (cfg : Config) (t e : Byte) (data : List Byte) (cap : U16),
    3 ≤ cfg.scanBudget → data.length ≤ 253 →
      decodeStream cfg t e cap
          (encodeRn [0x00] (lenByte data.length) (lcs (lenByte data.length)) t e data (dcs t e data) 0x00)
        = ⟨.ok, min data.length cap.toNat, data.take cap.toNat, 9 + data.length⟩

/-- R72, R154, R162: the same law for extended response frames, up to the longest. -/
def Obligations.ExtendedResponseRoundTrip : Prop :=
  ∀ (cfg : Config) (t e m l k p : Byte) (data : List Byte) (cap : U16),
    3 ≤ cfg.scanBudget → data.length ≤ 65533 → (xlen m l).toNat = data.length + 2 → xlenOk m l k = true →
      decodeStream cfg t e cap (encodeRx [0x00] m l k t e data (dcs t e data) p)
        = ⟨.ok, min data.length cap.toNat, data.take cap.toNat, 12 + data.length⟩

/-! ## Encoding -/

/-- Every well-formed instruction decodes to itself from its own encoding, with any bytes behind it. -/
def Obligations.DecodeInvertsEncode : Prop :=
  ∀ (i : Instr) (more : List Byte), i.WellFormed →
    ∃ rest, decode ((encode i).append more) = .ok (i, rest)
      ∧ ((encode i).append more).bytes = (encode i).bytes ++ rest

/-- Whatever decodes is well formed, and is the encoding of what it decodes to, followed by the rest: no two codes of one port
mean the same, and no bit is dropped. -/
def Obligations.EncodeInvertsDecode : Prop :=
  ∀ (code : Code) (i : Instr) (rest : List Byte), decode code = .ok (i, rest) →
    i.WellFormed ∧ code = (encode i).append rest

/-- R70 to R74, R80, R81: the host port code by code (the codes are the spec's decision D2), and words of the wire formats written
out from the spec's tables. -/
def Obligations.WordsOfTheTableDecode : Prop :=
  (decodeOp 0b001 = .wake ∧ decodeOp 0b010 = .waitrdy ∧ decodeOp 0b011 = .sendcmd ∧ decodeOp 0b100 = .readrsp
    ∧ decodeOp 0b101 = .sendack ∧ decodeOp 0b000 = .reservedOp0 ∧ decodeOp 0b110 = .reservedOp67 0
    ∧ decodeOp 0b111 = .reservedOp67 1)
  ∧ decode (.status [0b00001001]) = .ok (.stReady 0b0000100, [])
  ∧ decode (.status [0b11111110]) = .ok (.stNotReady 0b1111111, [])
  ∧ decode (.ack [0x00, 0x00, 0xFF, 0x00, 0xFF, 0x00]) = .ok (.ak, [])
  ∧ decode (.command [0x00, 0x00, 0xFF, 0x05, 0xFB, 0xD4, 0x14, 0x01, 0x14, 0x01, 0x02, 0x00])
      = .ok (.cf 0x14 [0x01, 0x14, 0x01], [])
  ∧ decode (.response [0x00, 0x00, 0xFF, 0x03, 0xFD, 0xD5, 0x03, 0x32, 0xF6, 0x00])
      = .ok (.rn [0x00] 0x03 0xFD 0xD5 0x03 [0x32] 0xF6 0x00, [])
  ∧ decode (.response [0x00, 0x00, 0xFF, 0xFF, 0xFF, 0x00, 0x03, 0xFD, 0xD5, 0x03, 0x32, 0xF6, 0x00])
      = .ok (.rx [0x00] 0x00 0x03 0xFD 0xD5 0x03 [0x32] 0xF6 0x00, [])

/-! ## Steps -/

/-- R31, R85: with no operation in flight, a step runs the host's next request: the instruction its code decodes to. -/
def Obligations.StepRunsTheHostsRequest : Prop :=
  ∀ (s : State) (m : HostMove) (rest : List HostMove) (code : Code) (i : Instr) (left : List Byte),
    s.busy = false → s.host = m :: rest → hostCode m = some code → decode code = .ok (i, left) →
      step s = exec i { s with host := rest }

/-- R70 to R77: with an operation in flight, a step runs the wire format the sequencer stands before, its bytes taken off the
inbound stream (which instruction that is, is the model's reading of the opcode table: log 9). -/
def Obligations.StepRunsTheWireFormat : Prop :=
  ∀ (s : State) (rest : List Byte), s.busy = true →
    (s.seq = .sent → s.work.txn.toNat ≤ 253 → step s = exec (.cf s.work.cmd (payload s)) s)
    ∧ (∀ hi, s.seq = .wrPoll ∨ s.seq = .awaitReady1 ∨ s.seq = .awaitReady2 →
        s.work.cnt < s.cfg.readyPollBudget →
        (s.script = statusByte hi 1 :: rest → step s = exec (.stReady hi) { s with script := rest })
        ∧ (s.script = statusByte hi 0 :: rest → step s = exec (.stNotReady hi) { s with script := rest }))
    ∧ (s.seq = .ackCheck → s.script = Config.ackSeq ++ rest → step s = exec .ak { s with script := rest })
    ∧ (s.seq = .saSend → step s = exec .ak s)
    ∧ (∀ noise l k t r d x p, s.seq = .rrScan → (Instr.rn noise l k t r d x p).WellFormed →
        s.script = encodeRn noise l k t r d x p ++ rest →
          step s = exec (.rn noise l k t r d x p) { s with script := rest })
    ∧ (∀ noise m l k t r d x p, s.seq = .rrScan → (Instr.rx noise m l k t r d x p).WellFormed →
        s.script = encodeRx noise m l k t r d x p ++ rest →
          step s = exec (.rx noise m l k t r d x p) { s with script := rest })

/-- A step with an operation in flight is the running operation's next move: framing the stream with the decoder first, as a
step does, and reading it byte by byte come to the same (log 1). -/
def Obligations.StepInFlightIsTheNextMove : Prop :=
  ∀ s : State, s.busy = true → step s = .next (inFlight s)

/-- R30: the host's writes, R84: the buffers, and R40: with nothing pending TFS waits. A write to a host read-only register is the
model's fault, and an XCHG line of more than 253 payload bytes is a refused request (both log 12). -/
def Obligations.HostMovesBetweenOperations : Prop :=
  ∀ (s : State) (v : U16) (bs : List Byte) (rest : List HostMove), s.busy = false →
    (s.host = [] → step s = .next s)
    ∧ (s.host = .write .argCmd v :: rest →
        step s = .next { s with args := { s.args with cmd := v.setWidth 8 }, host := rest })
    ∧ (s.host = .write .argTxn v :: rest →
        step s = .next { s with args := { s.args with txn := v.setWidth 8 }, host := rest })
    ∧ (s.host = .write .argExp v :: rest →
        step s = .next { s with args := { s.args with exp := v.setWidth 8 }, host := rest })
    ∧ (s.host = .write .argCap v :: rest →
        step s = .next { s with args := { s.args with cap := v }, host := rest })
    ∧ (∀ r, r = .status ∨ r = .resKind ∨ r = .resLen → s.host = .write r v :: rest →
        step s = .fault (.hostWriteReadOnly r))
    ∧ (s.host = .fillTx bs :: rest → s.txbuf.wf = true →
        ∃ t, step s = .next t ∧ t = { s with txbuf := t.txbuf, host := rest } ∧
          ∀ a, t.txbuf.read a = if a < bs.length then bs[a]?.getD 0 else s.txbuf.read a)
    ∧ (s.host = .fillRx bs :: rest → s.rxbuf.wf = true →
        ∃ t, step s = .next t ∧ t = { s with rxbuf := t.rxbuf, host := rest } ∧
          ∀ a, t.rxbuf.read a = if a < bs.length then bs[a]?.getD 0 else s.rxbuf.read a)
    ∧ (∀ c cap, s.host = .lineXchg c bs cap :: rest → 253 < bs.length →
        step s = .next { s with host := rest, resKind := .refused, resLen := 0 })

/-- R30, R32: what the host reads in every state. -/
def Obligations.HostReads : Prop :=
  ∀ s : State,
    hostRead .op s = 0
    ∧ (hostRead .argCmd s).toNat = s.args.cmd.toNat ∧ (hostRead .argTxn s).toNat = s.args.txn.toNat
    ∧ (hostRead .argExp s).toNat = s.args.exp.toNat ∧ hostRead .argCap s = s.args.cap
    ∧ hostRead .status s = (if s.busy then 1 else 0)
    ∧ (hostRead .resKind s).toNat = (match s.resKind with
        | .ok => 0 | .timeout => 1 | .protocolMismatch => 2 | .corruption => 3 | .refused => 4)
    ∧ hostRead .resLen s = s.resLen

/-- Log 11: the instruction of a table word, placed, is what the very next step runs, in a state that agrees with the given one on
everything the placing does not need. -/
def Obligations.PlacedWordRunsNext : Prop :=
  ∀ (s : State) (nbits w : Nat) (i : Instr),
    1 ≤ s.cfg.readyPollBudget → s.txbuf.wf = true → decodeTableWord nbits w = some i →
      ∃ s', step (s.withFetchWord nbits w) = exec i s'
        ∧ s'.cfg = s.cfg ∧ s'.args = s.args ∧ s'.rxbuf = s.rxbuf ∧ s'.trace = s.trace ∧ s'.path = s.path
        ∧ s'.script = s.script ∧ s'.draws = s.draws ∧ s'.host = s.host ∧ s'.diag = s.diag
        ∧ s'.resKind = s.resKind ∧ s'.resLen = s.resLen

/-! ## Reset and the invariant -/

/-- R40, R41 (the spec's decision D19): the values after reset that the spec gives, and an idle machine that has touched nothing. -/
def Obligations.ResetValues : Prop :=
  State.reset.seq = .idle ∧ State.reset.busy = false ∧ State.reset.sel = false
  ∧ hostRead .op State.reset = 0 ∧ hostRead .status State.reset = 0
  ∧ State.reset.resKind = .ok ∧ State.reset.resLen = 0 ∧ State.reset.trace = []
  ∧ step State.reset = .next State.reset

/-- The invariant holds after reset. -/
def Obligations.ResetMeetsTheInvariant : Prop := State.reset.Inv

/-- R22, R26, R33, R30, R156: every step keeps the invariant: SEQ follows the transition table, every bus byte lies inside a
select bracket, the bus is deselected between operations, a failure reports length 0, RES_LEN and DLEN stay at most 65533, and the
buffers keep their canonical form. -/
def Obligations.StepKeepsTheInvariant : Prop :=
  ∀ s s' : State, s.Inv → step s = .next s' → s'.Inv

/-- R22: every move of a running operation follows the transition table, in every state. -/
def Obligations.MovesFollowTheTransitionTable : Prop :=
  ∀ s : State, ∃ qs : List Seq,
    (tick s).path = s.path ++ qs ∧ pathOk (s.seq :: qs) = true ∧ (s.seq :: qs).getLast? = some (tick s).seq

/-- R13, R197: every request of an idle machine runs to its exit: not busy, IDLE, deselected, ready for any request. -/
def Obligations.OperationsEnd : Prop :=
  ∀ (i : Instr) (s : State),
    (i ∈ [Instr.wake, .waitrdy, .sendcmd, .readrsp, .sendack, .reservedOp0, .reservedOp67 0, .reservedOp67 1, .init]
      ∨ ∃ c p cap, i = .xchg c p cap) →
    s.busy = false → s.seq = .idle → s.sel = false →
      ∃ t, exec i s = .next t ∧ t.busy = false ∧ t.seq = .idle ∧ t.sel = false

/-- R61, R22: one blocking call and the running operation's moves, one step each, from the moment of acceptance, end in the same
state. -/
def Obligations.OneCallIsItsMoves : Prop :=
  ∀ (o : BitVec 3) (s : State), s.busy = false → s.seq = .idle →
    ∃ n, Sys2Proof.core.run n (accept o s) = exec (decodeOp o) s

/-! ## Requests -/

/-- R31 (the spec's decision D20): with BUSY set a request has no effect and is not queued, and a pseudo-operation issues nothing
(log 13). -/
def Obligations.RequestWhileBusyHasNoEffect : Prop :=
  ∀ (s : State) (o : BitVec 3) (c : Byte) (p : List Byte) (cap : U16), s.busy = true →
    exec (decodeOp o) s = .next s ∧ exec .init s = .next s ∧ exec (.xchg c p cap) s = .next s

/-- R31, R64 (the spec's decision D34): the operands are latched at acceptance and stay so to the end; the ARG_ registers keep their
values. -/
def Obligations.AcceptanceLatchesTheOperands : Prop :=
  ∀ (s : State) (o : BitVec 3), s.busy = false →
    ∃ t, exec (decodeOp o) s = .next t ∧ t.args = s.args ∧ t.work.opl = o ∧ t.work.cmd = s.args.cmd
      ∧ t.work.txn = s.args.txn ∧ t.work.exp = s.args.exp ∧ t.work.capl = s.args.cap

/-- R126, R181 (D16, D29): WAKE, and INIT, whole: the events, the result, the SEQ path (log 15), and nothing else. -/
def Obligations.WakeHoldsTheSelect : Prop :=
  ∀ s : State, s.busy = false →
    let t : State := { s with
      seq := .idle
      path := s.path ++ [.wkHold, .done, .idle]
      sel := false
      work := latched opWake s
      resKind := .ok
      resLen := 0
      trace := s.trace ++ [.sel, .dly s.cfg.wakeUs, .des] }
    exec .wake s = .next t ∧ exec .init s = .next t

/-- R136 (D24): SENDACK whole: one write transfer of the six ACK bytes, always Ok. IDX after its loop is log 14's choice, the SEQ
path the model's record (log 15). -/
def Obligations.SendackWritesTheAckFrame : Prop :=
  ∀ s : State, s.busy = false →
    exec .sendack s = .next { s with
      seq := .idle
      path := s.path ++ [.saSend, .done, .idle]
      sel := false
      work := { latched opSendack s with idx := 6 }
      resKind := .ok
      resLen := 0
      trace := s.trace ++ transferEvents s.cfg s.cfg.pfxWrite
        [.wr 0x00, .wr 0x00, .wr 0xFF, .wr 0x00, .wr 0xFF, .wr 0x00] }

/-- R81, R194 (D3): a reserved code is refused: the result says so and nothing reaches the bus. -/
def Obligations.ReservedCodesAreRefused : Prop :=
  ∀ (s : State) (low : BitVec 1), s.busy = false →
    exec .reservedOp0 s = .next { s with work := latched 0b000 s, resKind := .refused, resLen := 0 }
    ∧ exec (.reservedOp67 low) s =
        .next { s with work := latched (0b11#2 ++ low) s, resKind := .refused, resLen := 0 }

/-- R127, R124 (D8, D9, D16): WAITRDY whole, when the k-th poll (from 0) is the first to see ready (SEQ path:
log 15). -/
def Obligations.WaitrdySeesReady : Prop :=
  ∀ (s : State) (k : Nat), s.busy = false → readyAt s 0 k →
    exec .waitrdy s = .next { s.skip (k + 1) with
      seq := .idle
      path := s.path ++ [.wrPoll, .done, .idle]
      sel := false
      work := { latched opWaitrdy s with cnt := k + 1 }
      resKind := .ok
      resLen := 0
      trace := s.trace ++ pollEvents s.cfg (s.answers 0 (k + 1)) }

/-- R127, R124, R191 (D8, D9): WAITRDY whole, when the budget runs out: exactly the budget's polls, then Timeout (SEQ path:
log 15; diagnostic record: log 16, D23). -/
def Obligations.WaitrdyTimesOut : Prop :=
  ∀ s : State, s.busy = false → s.sel = false → neverReady s 0 →
    exec .waitrdy s = .next { s.skip s.cfg.readyPollBudget with
      seq := .idle
      path := s.path ++ [.wrPoll, .failed, .idle]
      work := { latched opWaitrdy s with cnt := s.cfg.readyPollBudget }
      resKind := .timeout
      resLen := 0
      trace := s.trace ++ pollEvents s.cfg (s.answers 0 s.cfg.readyPollBudget)
      diag := s.diag.map fun log => log ++ [⟨.timeout, .loop .wrPoll⟩] }

/-- R130 to R134, R105 (D7, D8, D9, D15): SENDCMD whole, on success: the frame ENCODE gives, the first ready loop, six ACK bytes,
the second ready loop; nothing else changes. IDX after its loop is log 14's choice, the SEQ path the model's record (log 15). -/
def Obligations.SendcmdSucceeds : Prop :=
  ∀ (s : State) (k1 k2 : Nat), s.busy = false → s.args.txn.toNat ≤ 253 →
    readyAt s 0 k1 → answersAre s (k1 + 1) Config.ackSeq → readyAt s (k1 + 7) k2 →
    exec .sendcmd s = .next { s.skip (k1 + k2 + 8) with
      seq := .idle
      path := s.path ++ [.sent, .awaitReady1, .ackCheck, .awaitReady2, .done, .idle]
      sel := false
      work := { latched opSendcmd s with
        acc := sum8 (0xD4 :: s.args.cmd :: requestPayload s), idx := 6,
        ackb := ⟨0x00, 0x00, 0xFF, 0x00, 0xFF, 0x00⟩, cnt := k2 + 1 }
      resKind := .ok
      resLen := 0
      trace := s.trace
        ++ transferEvents s.cfg s.cfg.pfxWrite ((encodeFrame s.args.cmd (requestPayload s)).map Event.wr)
        ++ pollEvents s.cfg (s.answers 0 (k1 + 1))
        ++ transferEvents s.cfg s.cfg.pfxRead (Config.ackSeq.map Event.rd)
        ++ pollEvents s.cfg (s.answers (k1 + 7) (k2 + 1)) }

/-- R131, R191: SENDCMD whole, when the first ready loop runs out: Timeout, and no ACK byte is read. The model's choices: IDX after
its loop (log 14), the SEQ path (log 15), the diagnostic record (log 16, D23). -/
def Obligations.SendcmdTimesOutBeforeTheAck : Prop :=
  ∀ s : State, s.busy = false → s.args.txn.toNat ≤ 253 → neverReady s 0 →
    exec .sendcmd s = .next { s.skip s.cfg.readyPollBudget with
      seq := .idle
      path := s.path ++ [.sent, .awaitReady1, .failed, .idle]
      sel := false
      work := { latched opSendcmd s with
        acc := sum8 (0xD4 :: s.args.cmd :: requestPayload s), idx := s.args.txn.toNat,
        cnt := s.cfg.readyPollBudget }
      resKind := .timeout
      resLen := 0
      trace := s.trace
        ++ transferEvents s.cfg s.cfg.pfxWrite ((encodeFrame s.args.cmd (requestPayload s)).map Event.wr)
        ++ pollEvents s.cfg (s.answers 0 s.cfg.readyPollBudget)
      diag := s.diag.map fun log => log ++ [⟨.timeout, .loop .awaitReady1⟩] }

/-- R132, R192 (D15): SENDCMD whole, when the six bytes are not the ACK: all six are read, then ProtocolMismatch, and no second
ready loop. The model's choices: IDX after its loop (log 14), the SEQ path (log 15), the diagnostic record (log 16, D23). -/
def Obligations.SendcmdMeetsNoAck : Prop :=
  ∀ (s : State) (k : Nat) (a : AckBytes), s.busy = false → s.args.txn.toNat ≤ 253 →
    readyAt s 0 k → answersAre s (k + 1) a.toList → a.toList ≠ Config.ackSeq →
    exec .sendcmd s = .next { s.skip (k + 7) with
      seq := .idle
      path := s.path ++ [.sent, .awaitReady1, .ackCheck, .failed, .idle]
      sel := false
      work := { latched opSendcmd s with
        acc := sum8 (0xD4 :: s.args.cmd :: requestPayload s), idx := 6, ackb := a, cnt := k + 1 }
      resKind := .protocolMismatch
      resLen := 0
      trace := s.trace
        ++ transferEvents s.cfg s.cfg.pfxWrite ((encodeFrame s.args.cmd (requestPayload s)).map Event.wr)
        ++ pollEvents s.cfg (s.answers 0 (k + 1))
        ++ transferEvents s.cfg s.cfg.pfxRead (a.toList.map Event.rd)
      diag := s.diag.map fun log => log ++ [⟨.protocolMismatch, .ackBytes a⟩] }

/-- R133, R191: SENDCMD whole, when the second ready loop runs out: its own full budget, then Timeout. The model's
choices: IDX after its loop (log 14), the SEQ path (log 15), the diagnostic record (log 16, D23). -/
def Obligations.SendcmdTimesOutAfterTheAck : Prop :=
  ∀ (s : State) (k : Nat), s.busy = false → s.args.txn.toNat ≤ 253 →
    readyAt s 0 k → answersAre s (k + 1) Config.ackSeq → neverReady s (k + 7) →
    exec .sendcmd s = .next { s.skip (k + 7 + s.cfg.readyPollBudget) with
      seq := .idle
      path := s.path ++ [.sent, .awaitReady1, .ackCheck, .awaitReady2, .failed, .idle]
      sel := false
      work := { latched opSendcmd s with
        acc := sum8 (0xD4 :: s.args.cmd :: requestPayload s), idx := 6,
        ackb := ⟨0x00, 0x00, 0xFF, 0x00, 0xFF, 0x00⟩, cnt := s.cfg.readyPollBudget }
      resKind := .timeout
      resLen := 0
      trace := s.trace
        ++ transferEvents s.cfg s.cfg.pfxWrite ((encodeFrame s.args.cmd (requestPayload s)).map Event.wr)
        ++ pollEvents s.cfg (s.answers 0 (k + 1))
        ++ transferEvents s.cfg s.cfg.pfxRead (Config.ackSeq.map Event.rd)
        ++ pollEvents s.cfg (s.answers (k + 7) s.cfg.readyPollBudget)
      diag := s.diag.map fun log => log ++ [⟨.timeout, .loop .awaitReady2⟩] }

/-- R81, R194 (D11): SENDCMD with 254 or 255 payload bytes is refused, with no bus event and no buffer access. -/
def Obligations.SendcmdRefusesALongPayload : Prop :=
  ∀ s : State, s.busy = false → 253 < s.args.txn.toNat →
    exec .sendcmd s = .next { s with work := latched opSendcmd s, resKind := .refused, resLen := 0 }

/-- R150 to R162, R33, R54 (D10, D14, D26, D27): READRSP on a good normal frame behind noise, whole: one transfer, every byte
read, the first CAPL data bytes stored, `min(DLEN, CAPL)` reported. Of the working registers it leaves alone the extended
length bytes and ACKB. IDX after its loop is log 14's choice, the SEQ path the model's record (log 15); PZ is R25's (log 23). -/
def Obligations.ReadrspTakesANormalFrame : Prop :=
  ∀ (s : State) (noise d : List Byte) (l k t r x p : Byte), s.busy = false →
    (Instr.rn noise l k t r d x p).WellFormed → noise.length + 2 ≤ s.cfg.scanBudget →
    answersAre s 0 (encodeRn noise l k t r d x p) →
    lenOk l k = true → 2 ≤ l.toNat → t = s.cfg.tfiChipToHost → r = s.args.exp → bodyOk t r d x = true →
    ∃ w : Work,
      exec .readrsp s = .next { s.skip (noise.length + d.length + 8) with
        seq := .idle
        path := s.path ++ [.rrScan, .rrLen, .rrHdr, .rrData, .rrTail, .done, .idle]
        sel := false
        work := w
        resKind := .ok
        resLen := BitVec.ofNat 16 (min d.length s.args.cap.toNat)
        rxbuf := Memory.writeAll s.rxbuf 0 (d.take s.args.cap.toNat)
        trace := s.trace
          ++ transferEvents s.cfg s.cfg.pfxRead ((encodeRn noise l k t r d x p).map Event.rd) }
      ∧ w = { latched opReadrsp s with
          cnt := noise.length + 2, pz := false, l0 := l, l1 := k, len := l.setWidth 16, hd := t, hi := r,
          dlen := BitVec.ofNat 16 d.length, idx := d.length, acc := sum8 (t :: r :: d), rdcs := x, rpost := p }

/-- R154, R72, R162 (D30): READRSP on a good extended frame behind noise, whole. IDX after its loop is log 14's choice, the SEQ path
the model's record (log 15); PZ is R25's (log 23). -/
def Obligations.ReadrspTakesAnExtendedFrame : Prop :=
  ∀ (s : State) (noise d : List Byte) (m l k t r x p : Byte), s.busy = false →
    (Instr.rx noise m l k t r d x p).WellFormed → noise.length + 2 ≤ s.cfg.scanBudget →
    answersAre s 0 (encodeRx noise m l k t r d x p) →
    xlenOk m l k = true → 2 ≤ (xlen m l).toNat → t = s.cfg.tfiChipToHost → r = s.args.exp →
    bodyOk t r d x = true →
    ∃ w : Work,
      exec .readrsp s = .next { s.skip (noise.length + d.length + 11) with
        seq := .idle
        path := s.path ++ [.rrScan, .rrLen, .rrXlen, .rrHdr, .rrData, .rrTail, .done, .idle]
        sel := false
        work := w
        resKind := .ok
        resLen := BitVec.ofNat 16 (min d.length s.args.cap.toNat)
        rxbuf := Memory.writeAll s.rxbuf 0 (d.take s.args.cap.toNat)
        trace := s.trace
          ++ transferEvents s.cfg s.cfg.pfxRead ((encodeRx noise m l k t r d x p).map Event.rd) }
      ∧ w = { latched opReadrsp s with
          cnt := noise.length + 2, pz := false, l0 := 0xFF, l1 := 0xFF, xm := m, xl := l, xc := k, len := xlen m l,
          hd := t, hi := r, dlen := BitVec.ofNat 16 d.length, idx := d.length, acc := sum8 (t :: r :: d),
          rdcs := x, rpost := p }

/-- R152, R191, R25 (D10): READRSP whole, when the scan budget holds no start code: exactly the budget's bytes read, then Timeout,
with PZ set if and only if the last of them was 0x00 (SEQ path: log 15; diagnostic record: log 16, D23). -/
def Obligations.ReadrspFindsNoStartCode : Prop :=
  ∀ s : State, s.busy = false → splitStart (s.answers 0 s.cfg.scanBudget) = none →
    ReadrspFails s .timeout (.loop .rrScan) (s.answers 0 s.cfg.scanBudget) s.rxbuf [.rrScan]
    ∧ ∃ e : State, exec .readrsp s = .next e ∧ (e.work.pz = true ↔ (s.answers 0 s.cfg.scanBudget).getLast? = some 0x00)

/-- R153, R154, R193, R82 (D14): READRSP whole, when a length checksum fails: two or five bytes read behind the start code, then
Corruption, RXBUF untouched (SEQ path: log 15; diagnostic record: log 16, D23). -/
def Obligations.ReadrspRejectsABadLength : Prop :=
  ∀ (s : State) (noise : List Byte) (l0 l1 m l k : Byte), s.busy = false → splitStart noise = none →
    noise.length + 2 ≤ s.cfg.scanBudget →
    (answersAre s 0 (noise ++ [0x00, 0xFF, l0, l1]) → isExtMark l0 l1 = false → lenOk l0 l1 = false →
      ReadrspFails s .corruption (.lengthBytes l0 l1) (noise ++ [0x00, 0xFF, l0, l1]) s.rxbuf [.rrScan, .rrLen])
    ∧ (answersAre s 0 (noise ++ [0x00, 0xFF, 0xFF, 0xFF, m, l, k]) → xlenOk m l k = false →
      ReadrspFails s .corruption (.extLengthBytes m l k) (noise ++ [0x00, 0xFF, 0xFF, 0xFF, m, l, k]) s.rxbuf
        [.rrScan, .rrLen, .rrXlen])

/-- R156, R193, R82 (D13, D14): READRSP whole, when the direction, the response id or the length is wrong: both header bytes read,
then Corruption, RXBUF untouched and the rest of the frame left in the stream (SEQ path: log 15; diagnostic record: log 16, D23). -/
def Obligations.ReadrspRejectsABadHeader : Prop :=
  ∀ (s : State) (noise : List Byte) (l0 l1 m l k t r : Byte), s.busy = false → splitStart noise = none →
    noise.length + 2 ≤ s.cfg.scanBudget →
    (answersAre s 0 (noise ++ [0x00, 0xFF, l0, l1, t, r]) → isExtMark l0 l1 = false → lenOk l0 l1 = true →
      (t ≠ s.cfg.tfiChipToHost ∨ r ≠ s.args.exp ∨ l0.toNat < 2) →
      ReadrspFails s .corruption (.header t r (l0.setWidth 16)) (noise ++ [0x00, 0xFF, l0, l1, t, r]) s.rxbuf
        [.rrScan, .rrLen, .rrHdr])
    ∧ (answersAre s 0 (noise ++ [0x00, 0xFF, 0xFF, 0xFF, m, l, k, t, r]) → xlenOk m l k = true →
      (t ≠ s.cfg.tfiChipToHost ∨ r ≠ s.args.exp ∨ (xlen m l).toNat < 2) →
      ReadrspFails s .corruption (.header t r (xlen m l)) (noise ++ [0x00, 0xFF, 0xFF, 0xFF, m, l, k, t, r]) s.rxbuf
        [.rrScan, .rrLen, .rrXlen, .rrHdr])

/-- R160, R193, R54 (D17, D27): READRSP whole, when only the data checksum is wrong, in both length forms: the whole frame is read,
the data bytes that fit stay stored, and the result is Corruption with length 0 (SEQ path: log 15; diagnostic record: log 16,
D23). -/
def Obligations.ReadrspRejectsABadChecksum : Prop :=
  ∀ (s : State) (noise d : List Byte) (m l k t r x p : Byte), s.busy = false → noise.length + 2 ≤ s.cfg.scanBudget →
    t = s.cfg.tfiChipToHost → r = s.args.exp → bodyOk t r d x = false →
    ((Instr.rn noise l k t r d x p).WellFormed → answersAre s 0 (encodeRn noise l k t r d x p) →
      lenOk l k = true → 2 ≤ l.toNat →
      ReadrspFails s .corruption (.checksum x (dcs t r d)) (encodeRn noise l k t r d x p)
        (Memory.writeAll s.rxbuf 0 (d.take s.args.cap.toNat)) [.rrScan, .rrLen, .rrHdr, .rrData, .rrTail])
    ∧ ((Instr.rx noise m l k t r d x p).WellFormed → answersAre s 0 (encodeRx noise m l k t r d x p) →
      xlenOk m l k = true → 2 ≤ (xlen m l).toNat →
      ReadrspFails s .corruption (.checksum x (dcs t r d)) (encodeRx noise m l k t r d x p)
        (Memory.writeAll s.rxbuf 0 (d.take s.args.cap.toNat)) [.rrScan, .rrLen, .rrXlen, .rrHdr, .rrData, .rrTail])

/-- R180, R84 (D12, D32): XCHG is its expansion: SENDCMD on the operands, and, only if that ended Ok, READRSP with the command id
plus 1 modulo 256. With more than 253 payload bytes, for which R180 gives no expansion, it is Refused (R81) with no bus event:
TXBUF is filled and ARG_TXN counts at most 255 (log 17). -/
def Obligations.XchgIsSendThenRead : Prop :=
  ∀ (s : State) (c : Byte) (p : List Byte) (cap : U16), s.busy = false →
    (p.length ≤ 253 → ∀ t, exec .sendcmd (loadSend c p s) = .next t →
      (t.resKind = .ok →
        exec (.xchg c p cap) s =
          exec .readrsp { t with args := { t.args with exp := BitVec.ofNat 8 (c.toNat + 1), cap := cap } })
      ∧ (t.resKind ≠ .ok → exec (.xchg c p cap) s = .next t))
    ∧ (253 < p.length →
      let n : Byte := BitVec.ofNat 8 (min p.length 255)
      exec (.xchg c p cap) s = .next { s with
        args := { s.args with cmd := c, txn := n }
        txbuf := Memory.writeAll s.txbuf 0 p
        work := { s.work with opl := opSendcmd, cmd := c, txn := n, exp := s.args.exp, capl := s.args.cap }
        resKind := .refused
        resLen := 0 })

/-- R180: XCHG completes: with the chip ready, the ACK, the chip ready again and a good response frame of either length form next,
it ends Ok with the response's data stored and its length reported, the command frame having been sent. -/
def Obligations.XchgCompletes : Prop :=
  ∀ (s : State) (k1 k2 : Nat) (c : Byte) (pl noise d : List Byte) (m l k t r x p : Byte) (cap : U16),
    s.busy = false → s.txbuf.wf = true → pl.length ≤ 253 →
    readyAt s 0 k1 → answersAre s (k1 + 1) Config.ackSeq → readyAt s (k1 + 7) k2 →
    noise.length + 2 ≤ s.cfg.scanBudget → t = s.cfg.tfiChipToHost → r.toNat = (c.toNat + 1) % 256 →
    bodyOk t r d x = true →
    ((Instr.rn noise l k t r d x p).WellFormed → lenOk l k = true → 2 ≤ l.toNat →
      answersAre s (k1 + k2 + 8) (encodeRn noise l k t r d x p) →
      XchgEndsOk s c pl cap k1 k2 d (encodeRn noise l k t r d x p))
    ∧ ((Instr.rx noise m l k t r d x p).WellFormed → xlenOk m l k = true → 2 ≤ (xlen m l).toNat →
      answersAre s (k1 + k2 + 8) (encodeRx noise m l k t r d x p) →
      XchgEndsOk s c pl cap k1 k2 d (encodeRx noise m l k t r d x p))

/-! ## Wire formats in the sequencer states that take them -/

/-- R123: the ready test is bit 0 of the status byte, whatever the others are. -/
def Obligations.ReadyIsBitZero : Prop :=
  (∀ b : Byte, ready b = b.getLsbD 0)
  ∧ (∀ hi : BitVec 7, ready (statusByte hi 1) = true ∧ ready (statusByte hi 0) = false)

/-- R123, R127, R131, R133: a ready status byte in each of the three ready loops (log 9; SEQ path: log 15). -/
def Obligations.ReadyByteEndsTheLoop : Prop :=
  ∀ (s : State) (hi : BitVec 7), s.busy = true → s.work.cnt < s.cfg.readyPollBudget →
    let polled : State := { s with
      sel := false
      work := { s.work with cnt := s.work.cnt + 1 }
      trace := s.trace ++ pollEvents s.cfg [statusByte hi 1] }
    (s.seq = .wrPoll ∨ s.seq = .awaitReady2 →
      exec (.stReady hi) s = .next { polled with
        seq := .idle, path := s.path ++ [.done, .idle], busy := false, resKind := .ok, resLen := 0 })
    ∧ (s.seq = .awaitReady1 →
      exec (.stReady hi) s = .next { polled with seq := .ackCheck, path := s.path ++ [.ackCheck] })

/-- R123, R124, R191: a status byte that is not ready in any of the three loops: the loop goes on, or, when it was the last one
allowed, ends in Timeout (log 9; SEQ path: log 15; diagnostic record: log 16, D23). -/
def Obligations.NotReadyByteGoesOnOrTimesOut : Prop :=
  ∀ (s : State) (hi : BitVec 7), s.busy = true → s.work.cnt < s.cfg.readyPollBudget →
    s.seq = .wrPoll ∨ s.seq = .awaitReady1 ∨ s.seq = .awaitReady2 →
    let polled : State := { s with
      sel := false
      work := { s.work with cnt := s.work.cnt + 1 }
      trace := s.trace ++ pollEvents s.cfg [statusByte hi 0] }
    (s.work.cnt + 1 < s.cfg.readyPollBudget → exec (.stNotReady hi) s = .next polled)
    ∧ (s.work.cnt + 1 = s.cfg.readyPollBudget →
      exec (.stNotReady hi) s = .next { polled with
        seq := .idle, path := s.path ++ [.failed, .idle], busy := false, resKind := .timeout, resLen := 0,
        diag := s.diag.map fun log => log ++ [⟨.timeout, .loop s.seq⟩] })

/-- R107, R132, R136: the ACK frame where it is taken, in ACK_CHECK, and where it is sent, in SA_SEND (log 9). IDX after its
loop is log 14's choice, the SEQ path the model's record (log 15). -/
def Obligations.AckFrameTakenAndSent : Prop :=
  ∀ s : State, s.busy = true →
    (s.seq = .ackCheck →
      exec .ak s = .next { s with
        seq := .awaitReady2
        path := s.path ++ [.awaitReady2]
        sel := false
        work := { s.work with ackb := ⟨0x00, 0x00, 0xFF, 0x00, 0xFF, 0x00⟩, idx := 6, cnt := 0 }
        trace := s.trace ++ transferEvents s.cfg s.cfg.pfxRead
          [.rd 0x00, .rd 0x00, .rd 0xFF, .rd 0x00, .rd 0xFF, .rd 0x00] })
    ∧ (s.seq = .saSend →
      exec .ak s = .next { s with
        seq := .idle
        path := s.path ++ [.done, .idle]
        busy := false
        sel := false
        work := { s.work with idx := 6 }
        resKind := .ok
        resLen := 0
        trace := s.trace ++ transferEvents s.cfg s.cfg.pfxWrite
          [.wr 0x00, .wr 0x00, .wr 0xFF, .wr 0x00, .wr 0xFF, .wr 0x00] })

/-- R105, R130: the command frame in state SENT: the bytes on the bus are ENCODE's, in one write transfer; in every other state
the codec touches nothing, and more than 253 data bytes are no frame (R106) and leave everything as it is (log 9). IDX after its
loop is log 14's choice, the SEQ path the model's record (log 15). -/
def Obligations.CommandFrameGoesOut : Prop :=
  ∀ (s : State) (c : Byte) (data : List Byte),
    (s.seq = .sent → data.length ≤ 253 →
      exec (.cf c data) s = .next { s with
        seq := .awaitReady1
        path := s.path ++ [.awaitReady1]
        sel := false
        work := { s.work with acc := sum8 (0xD4 :: c :: data), idx := data.length, cnt := 0 }
        trace := s.trace ++ transferEvents s.cfg s.cfg.pfxWrite ((encodeFrame c data).map Event.wr) })
    ∧ (s.seq ≠ .sent → exec (.cf c data) s = .next s)
    ∧ (253 < data.length → exec (.cf c data) s = .next s)

/-- R71, R153 to R162: a good normal response frame met in RR_SCAN is taken whole, and the bytes behind it stay in the stream
(log 9). IDX after its loop is log 14's choice, the SEQ path the model's record (log 15); PZ is R25's (log 23). -/
def Obligations.NormalFrameIsTakenWhole : Prop :=
  ∀ (s : State) (noise d : List Byte) (l k t r x p : Byte), s.busy = true → s.seq = .rrScan →
    (Instr.rn noise l k t r d x p).WellFormed → noise.length + 2 ≤ s.cfg.scanBudget →
    lenOk l k = true → 2 ≤ l.toNat → t = s.cfg.tfiChipToHost → r = s.work.exp → bodyOk t r d x = true →
    exec (.rn noise l k t r d x p) s = .next { s with
      seq := .idle
      path := s.path ++ [.rrLen, .rrHdr, .rrData, .rrTail, .done, .idle]
      busy := false
      sel := false
      work := { s.work with
        cnt := noise.length + 2, pz := false, l0 := l, l1 := k, len := l.setWidth 16, hd := t, hi := r,
        dlen := BitVec.ofNat 16 d.length, idx := d.length, acc := sum8 (t :: r :: d), rdcs := x, rpost := p }
      resKind := .ok
      resLen := BitVec.ofNat 16 (min d.length s.work.capl.toNat)
      rxbuf := Memory.writeAll s.rxbuf 0 (d.take s.work.capl.toNat)
      trace := s.trace ++ (encodeRn noise l k t r d x p).map Event.rd ++ [.des] }

/-- R72, R154 to R162: the same for a good extended response frame (log 9, log 14, log 15, log 23). -/
def Obligations.ExtendedFrameIsTakenWhole : Prop :=
  ∀ (s : State) (noise d : List Byte) (m l k t r x p : Byte), s.busy = true → s.seq = .rrScan →
    (Instr.rx noise m l k t r d x p).WellFormed → noise.length + 2 ≤ s.cfg.scanBudget →
    xlenOk m l k = true → 2 ≤ (xlen m l).toNat → t = s.cfg.tfiChipToHost → r = s.work.exp → bodyOk t r d x = true →
    exec (.rx noise m l k t r d x p) s = .next { s with
      seq := .idle
      path := s.path ++ [.rrLen, .rrXlen, .rrHdr, .rrData, .rrTail, .done, .idle]
      busy := false
      sel := false
      work := { s.work with
        cnt := noise.length + 2, pz := false, l0 := 0xFF, l1 := 0xFF, xm := m, xl := l, xc := k, len := xlen m l,
        hd := t, hi := r, dlen := BitVec.ofNat 16 d.length, idx := d.length, acc := sum8 (t :: r :: d),
        rdcs := x, rpost := p }
      resKind := .ok
      resLen := BitVec.ofNat 16 (min d.length s.work.capl.toNat)
      rxbuf := Memory.writeAll s.rxbuf 0 (d.take s.work.capl.toNat)
      trace := s.trace ++ (encodeRx noise m l k t r d x p).map Event.rd ++ [.des] }

/-- R36, R55 (log 9): between operations TFS reads nothing: an inbound format waits as the next answers, and nothing else changes. -/
def Obligations.InboundBytesWaitWhileIdle : Prop :=
  ∀ (s : State) (i : Instr) (bs : List Byte), s.busy = false →
    (encode i = .ack bs ∨ encode i = .status bs ∨ encode i = .response bs) →
      exec i s = .next { s with script := bs ++ s.script }

/-! ## Rules of single sequencer states -/

/-- R153: state RR_LEN, all three outcomes. The SEQ path and the diagnostic record, the model's own (log 15, 16), are left open
here; other statements give them. -/
def Obligations.LengthFieldRule : Prop :=
  ∀ s : State, s.seq = .rrLen →
    let l0 := s.answer 0
    let l1 := s.answer 1
    let was : State := { s.skip 2 with
      work := { s.work with l0 := l0, l1 := l1 }, trace := s.trace ++ [.rd l0, .rd l1] }
    ∃ (p : List Seq) (d : Option (List DiagRecord)),
      (l0 = 0xFF ∧ l1 = 0xFF → tick s = { was with seq := .rrXlen, path := p })
      ∧ (¬ (l0 = 0xFF ∧ l1 = 0xFF) → (l0.toNat + l1.toNat) % 256 = 0 →
          tick s = { was with seq := .rrHdr, path := p, work := { was.work with len := l0.setWidth 16 } })
      ∧ (¬ (l0 = 0xFF ∧ l1 = 0xFF) → (l0.toNat + l1.toNat) % 256 ≠ 0 →
          tick s = { was with
            seq := .idle, path := p, busy := false, sel := false
            trace := was.trace ++ (if s.sel then [.des] else [])
            resKind := .corruption, resLen := 0, diag := d })

/-- R154: state RR_XLEN, both outcomes; LEN is LEN_MSB * 256 + LEN_LSB. Path and diagnostic record as above. -/
def Obligations.ExtendedLengthRule : Prop :=
  ∀ s : State, s.seq = .rrXlen →
    let xm := s.answer 0
    let xl := s.answer 1
    let xc := s.answer 2
    let was : State := { s.skip 3 with
      work := { s.work with xm := xm, xl := xl, xc := xc }, trace := s.trace ++ [.rd xm, .rd xl, .rd xc] }
    ∃ (p : List Seq) (d : Option (List DiagRecord)),
      ((xm.toNat + xl.toNat + xc.toNat) % 256 = 0 →
          tick s = { was with
            seq := .rrHdr, path := p
            work := { was.work with len := BitVec.ofNat 16 (xm.toNat * 256 + xl.toNat) } })
      ∧ ((xm.toNat + xl.toNat + xc.toNat) % 256 ≠ 0 →
          tick s = { was with
            seq := .idle, path := p, busy := false, sel := false
            trace := was.trace ++ (if s.sel then [.des] else [])
            resKind := .corruption, resLen := 0, diag := d })

/-- R158: state RR_DATA: exactly DLEN bytes are read, the first CAPL of them stored in order, all of them accumulated; it cannot
fail. The SEQ path, the model's own record (log 15), and what IDX holds after the loop (log 14) are left open. -/
def Obligations.DataRule : Prop :=
  ∀ s : State, s.seq = .rrData → s.rxbuf.wf = true →
    let n := s.work.dlen.toNat
    (∃ (p : List Seq) (m : Memory) (i : Nat), tick s = { s.skip n with
      seq := .rrTail
      path := p
      work := { s.work with acc := s.work.acc + ((s.answers 0 n).foldl (· + ·) 0), idx := i }
      rxbuf := m
      trace := s.trace ++ (s.answers 0 n).map Event.rd })
    ∧ ∀ a, (tick s).rxbuf.read a =
        if a < n ∧ a < s.work.capl.toNat then s.answer a else s.rxbuf.read a

/-! ## Frames and whole-machine rules -/

/-- R34, R51, R52, R54: what no instruction changes: the configuration, the host's list; and, but for XCHG, which is the host's own
program, the ARG_ registers and every byte of TXBUF. XCHG writes TXBUF only at its payload's indexes. -/
def Obligations.FrameOfEveryInstruction : Prop :=
  ∀ (i : Instr) (s t : State), s.txbuf.wf = true → exec i s = .next t →
    t.cfg = s.cfg ∧ t.host = s.host
    ∧ (∀ c p cap, i = .xchg c p cap → ∀ a, p.length ≤ a → t.txbuf.read a = s.txbuf.read a)
    ∧ ((∀ c p cap, i ≠ .xchg c p cap) → t.args = s.args ∧ ∀ a, t.txbuf.read a = s.txbuf.read a)

/-- R54, R134, R225: RXBUF is written only by the Response Reader, and never at or above the capacity it was given; XCHG gives its
READRSP the capacity `cap` (R180). -/
def Obligations.RxbufIsWrittenByTheReaderOnly : Prop :=
  ∀ (i : Instr) (s t : State), s.rxbuf.wf = true → exec i s = .next t →
    ((s.busy = true → s.seq.inReader = false) → i ≠ .readrsp → (∀ c p cap, i ≠ .xchg c p cap) →
      ∀ a, t.rxbuf.read a = s.rxbuf.read a)
    ∧ (s.busy = false → i = .readrsp → ∀ a, s.args.cap.toNat ≤ a → t.rxbuf.read a = s.rxbuf.read a)
    ∧ (∀ c p cap, s.busy = false → i = .xchg c p cap → ∀ a, cap.toNat ≤ a → t.rxbuf.read a = s.rxbuf.read a)
    ∧ (s.busy = true → s.seq.inReader = true → ∀ a, s.work.capl.toNat ≤ a → t.rxbuf.read a = s.rxbuf.read a)

/-- R10, R61, R196: TRACE is a history: an instruction only appends events. -/
def Obligations.TraceOnlyGrows : Prop :=
  ∀ (i : Instr) (s t : State), exec i s = .next t → ∃ es : List Event, t.trace = s.trace ++ es

/-- R198, R204, R10: the presence of the diagnostic sink changes nothing else: with it taken away before or after, an
instruction and a step come to the same. -/
def Obligations.SinkDoesNotMatter : Prop :=
  ∀ (i : Instr) (s : State),
    dropSinkOutcome (exec i s) = exec i s.dropSink ∧ dropSinkOutcome (step s) = step s.dropSink

/-! ## Response frames that are not good -/

/-- R152 to R161, R191, R193 (D10, D13, D14, D17): a response frame of either length form met in RR_SCAN that is not good. Noise beyond
the scan budget: Timeout after exactly that many bytes. A bad length checksum, then a bad header, then a bad data checksum:
Corruption, what follows the failing check left in the stream, and only the last having stored data. SEL is set, as R26 has it in
RR_SCAN (log 9; SEQ path: log 15; diagnostic record: log 16, D23). -/
def Obligations.BadFrameInTheScannerFails : Prop :=
  ∀ (s : State) (noise d : List Byte) (m l k t r x p : Byte), s.busy = true → s.seq = .rrScan → s.sel = true →
    ((Instr.rn noise l k t r d x p).WellFormed →
      let i := Instr.rn noise l k t r d x p
      let bs := encodeRn noise l k t r d x p
      (s.cfg.scanBudget < noise.length + 2 →
        ScannedFrameFails s i .timeout (.loop .rrScan) (bs.take s.cfg.scanBudget) (bs.drop s.cfg.scanBudget) s.rxbuf [])
      ∧ (noise.length + 2 ≤ s.cfg.scanBudget →
        (lenOk l k = false →
          ScannedFrameFails s i .corruption (.lengthBytes l k) (noise ++ [0x00, 0xFF, l, k]) ([t, r] ++ d ++ [x, p]) s.rxbuf
            [.rrLen])
        ∧ (lenOk l k = true → (t ≠ s.cfg.tfiChipToHost ∨ r ≠ s.work.exp ∨ l.toNat < 2) →
          ScannedFrameFails s i .corruption (.header t r (l.setWidth 16)) (noise ++ [0x00, 0xFF, l, k, t, r]) (d ++ [x, p])
            s.rxbuf [.rrLen, .rrHdr])
        ∧ (lenOk l k = true → 2 ≤ l.toNat → t = s.cfg.tfiChipToHost → r = s.work.exp → bodyOk t r d x = false →
          ScannedFrameFails s i .corruption (.checksum x (dcs t r d)) bs []
            (Memory.writeAll s.rxbuf 0 (d.take s.work.capl.toNat)) [.rrLen, .rrHdr, .rrData, .rrTail])))
    ∧ ((Instr.rx noise m l k t r d x p).WellFormed →
      let i := Instr.rx noise m l k t r d x p
      let bs := encodeRx noise m l k t r d x p
      (s.cfg.scanBudget < noise.length + 2 →
        ScannedFrameFails s i .timeout (.loop .rrScan) (bs.take s.cfg.scanBudget) (bs.drop s.cfg.scanBudget) s.rxbuf [])
      ∧ (noise.length + 2 ≤ s.cfg.scanBudget →
        (xlenOk m l k = false →
          ScannedFrameFails s i .corruption (.extLengthBytes m l k) (noise ++ [0x00, 0xFF, 0xFF, 0xFF, m, l, k])
            ([t, r] ++ d ++ [x, p]) s.rxbuf [.rrLen, .rrXlen])
        ∧ (xlenOk m l k = true → (t ≠ s.cfg.tfiChipToHost ∨ r ≠ s.work.exp ∨ (xlen m l).toNat < 2) →
          ScannedFrameFails s i .corruption (.header t r (xlen m l)) (noise ++ [0x00, 0xFF, 0xFF, 0xFF, m, l, k, t, r])
            (d ++ [x, p]) s.rxbuf [.rrLen, .rrXlen, .rrHdr])
        ∧ (xlenOk m l k = true → 2 ≤ (xlen m l).toNat → t = s.cfg.tfiChipToHost → r = s.work.exp → bodyOk t r d x = false →
          ScannedFrameFails s i .corruption (.checksum x (dcs t r d)) bs []
            (Memory.writeAll s.rxbuf 0 (d.take s.work.capl.toNat)) [.rrLen, .rrXlen, .rrHdr, .rrData, .rrTail])))
end

