-- ==== Sys2Proof/Laws/Codec.lean ====
section
/-! SUPPORT. The laws of the Frame Codec: its arithmetic is that of 8-bit vectors. -/

namespace Sys2Proof.Codec.Laws

theorem add8_eq (a b : Byte) : add8 a b = a + b := by
  apply BitVec.eq_of_toNat_eq; simp [add8, BitVec.toNat_add]

theorem neg8_eq (x : Byte) : neg8 x = -x := by
  apply BitVec.eq_of_toNat_eq; simp [neg8, BitVec.toNat_neg]

theorem sum8_cons (b : Byte) (bs : List Byte) : sum8 (b :: bs) = b + sum8 bs := by rw [sum8, add8_eq]

theorem sum8_nil : sum8 [] = 0 := rfl

theorem sum8_append (xs ys : List Byte) : sum8 (xs ++ ys) = sum8 xs + sum8 ys := by
  induction xs with
  | nil => simp [sum8_nil]
  | cons x xs ih => rw [List.cons_append, sum8_cons, sum8_cons, ih]; ac_rfl

@[simp] theorem encodeFrame_length (c : Byte) (data : List Byte) : (encodeFrame c data).length = 9 + data.length := by
  simp [encodeFrame]; omega

/-- The start-code recogniser finds nothing exactly where no byte 0x00 is followed by 0xFF. -/
theorem splitStart_cons (b : Byte) (bs : List Byte) :
    splitStart (b :: bs) =
      if b = Config.start1 ∧ bs.head? = some Config.start2 then some ([], bs.tail)
      else (splitStart bs).map fun (n, r) => (b :: n, r) := rfl

/-- Noise without a start code, then a start code: the recogniser splits there. -/
theorem splitStart_noise {noise : List Byte} (h : splitStart noise = none) (rest : List Byte) :
    splitStart (noise ++ Config.start1 :: Config.start2 :: rest) = some (noise, rest) := by
  induction noise with
  | nil => simp [splitStart]
  | cons b bs ih =>
    rw [splitStart_cons] at h
    split at h
    · simp at h
    · next hb =>
      rw [List.cons_append, splitStart_cons, if_neg, ih (by simpa using h)]
      · rfl
      · cases bs with
        | nil => rintro ⟨_, h2⟩; simp [Config.start1, Config.start2] at h2
        | cons => simpa using hb

/-- What the recogniser splits is the whole stream again, and the noise holds no start code. -/
theorem splitStart_some {bs noise rest : List Byte} (h : splitStart bs = some (noise, rest)) :
    bs = noise ++ Config.start1 :: Config.start2 :: rest ∧ splitStart noise = none := by
  induction bs generalizing noise with
  | nil => simp [splitStart] at h
  | cons b bs ih =>
    rw [splitStart_cons] at h
    split at h
    · next hb =>
      obtain ⟨rfl, h2⟩ := hb
      cases bs with
      | nil => simp at h2
      | cons c cs =>
        simp only [List.head?_cons, Option.some.injEq] at h2
        simp only [List.tail_cons, Option.some.injEq, Prod.mk.injEq] at h
        obtain ⟨rfl, rfl⟩ := h
        subst h2
        exact ⟨rfl, rfl⟩
    · next hb =>
      simp only [Option.map_eq_some_iff, Prod.mk.injEq] at h
      obtain ⟨⟨n, r⟩, h1, rfl, rfl⟩ := h
      obtain ⟨rfl, h3⟩ := ih h1
      refine ⟨rfl, ?_⟩
      rw [splitStart_cons, if_neg, h3]; · rfl
      cases n with
      | nil => simp
      | cons => simpa using hb

end Sys2Proof.Codec.Laws
end

