-- ==== Sys2Proof/Laws/State.lean ====
section
/-! SUPPORT. One lemma per field per update: what each primitive of the machine leaves in each field of State. All by rfl and in
the simp set, so that no proof unfolds a record update. -/

namespace Sys2Proof.Machine.Laws

@[simp] theorem busSelect_cfg (s : State) : (busSelect s).cfg = s.cfg := rfl
@[simp] theorem busSelect_seq (s : State) : (busSelect s).seq = s.seq := rfl
@[simp] theorem busSelect_path (s : State) : (busSelect s).path = s.path := rfl
@[simp] theorem busSelect_busy (s : State) : (busSelect s).busy = s.busy := rfl
@[simp] theorem busSelect_sel (s : State) : (busSelect s).sel = true := rfl
@[simp] theorem busSelect_work (s : State) : (busSelect s).work = s.work := rfl
@[simp] theorem busSelect_args (s : State) : (busSelect s).args = s.args := rfl
@[simp] theorem busSelect_resKind (s : State) : (busSelect s).resKind = s.resKind := rfl
@[simp] theorem busSelect_resLen (s : State) : (busSelect s).resLen = s.resLen := rfl
@[simp] theorem busSelect_txbuf (s : State) : (busSelect s).txbuf = s.txbuf := rfl
@[simp] theorem busSelect_rxbuf (s : State) : (busSelect s).rxbuf = s.rxbuf := rfl
@[simp] theorem busSelect_trace (s : State) : (busSelect s).trace = s.trace ++ [.sel] := rfl
@[simp] theorem busSelect_diag (s : State) : (busSelect s).diag = s.diag := rfl
@[simp] theorem busSelect_script (s : State) : (busSelect s).script = s.script := rfl
@[simp] theorem busSelect_draws (s : State) : (busSelect s).draws = s.draws := rfl
@[simp] theorem busSelect_host (s : State) : (busSelect s).host = s.host := rfl

@[simp] theorem busDeselect_cfg (s : State) : (busDeselect s).cfg = s.cfg := rfl
@[simp] theorem busDeselect_seq (s : State) : (busDeselect s).seq = s.seq := rfl
@[simp] theorem busDeselect_path (s : State) : (busDeselect s).path = s.path := rfl
@[simp] theorem busDeselect_busy (s : State) : (busDeselect s).busy = s.busy := rfl
@[simp] theorem busDeselect_sel (s : State) : (busDeselect s).sel = false := rfl
@[simp] theorem busDeselect_work (s : State) : (busDeselect s).work = s.work := rfl
@[simp] theorem busDeselect_args (s : State) : (busDeselect s).args = s.args := rfl
@[simp] theorem busDeselect_resKind (s : State) : (busDeselect s).resKind = s.resKind := rfl
@[simp] theorem busDeselect_resLen (s : State) : (busDeselect s).resLen = s.resLen := rfl
@[simp] theorem busDeselect_txbuf (s : State) : (busDeselect s).txbuf = s.txbuf := rfl
@[simp] theorem busDeselect_rxbuf (s : State) : (busDeselect s).rxbuf = s.rxbuf := rfl
@[simp] theorem busDeselect_trace (s : State) : (busDeselect s).trace = s.trace ++ [.des] := rfl
@[simp] theorem busDeselect_diag (s : State) : (busDeselect s).diag = s.diag := rfl
@[simp] theorem busDeselect_script (s : State) : (busDeselect s).script = s.script := rfl
@[simp] theorem busDeselect_draws (s : State) : (busDeselect s).draws = s.draws := rfl
@[simp] theorem busDeselect_host (s : State) : (busDeselect s).host = s.host := rfl

@[simp] theorem delay_cfg (n : Nat) (s : State) : (delay n s).cfg = s.cfg := rfl
@[simp] theorem delay_seq (n : Nat) (s : State) : (delay n s).seq = s.seq := rfl
@[simp] theorem delay_path (n : Nat) (s : State) : (delay n s).path = s.path := rfl
@[simp] theorem delay_busy (n : Nat) (s : State) : (delay n s).busy = s.busy := rfl
@[simp] theorem delay_sel (n : Nat) (s : State) : (delay n s).sel = s.sel := rfl
@[simp] theorem delay_work (n : Nat) (s : State) : (delay n s).work = s.work := rfl
@[simp] theorem delay_args (n : Nat) (s : State) : (delay n s).args = s.args := rfl
@[simp] theorem delay_resKind (n : Nat) (s : State) : (delay n s).resKind = s.resKind := rfl
@[simp] theorem delay_resLen (n : Nat) (s : State) : (delay n s).resLen = s.resLen := rfl
@[simp] theorem delay_txbuf (n : Nat) (s : State) : (delay n s).txbuf = s.txbuf := rfl
@[simp] theorem delay_rxbuf (n : Nat) (s : State) : (delay n s).rxbuf = s.rxbuf := rfl
@[simp] theorem delay_trace (n : Nat) (s : State) : (delay n s).trace = s.trace ++ [.dly n] := rfl
@[simp] theorem delay_diag (n : Nat) (s : State) : (delay n s).diag = s.diag := rfl
@[simp] theorem delay_script (n : Nat) (s : State) : (delay n s).script = s.script := rfl
@[simp] theorem delay_draws (n : Nat) (s : State) : (delay n s).draws = s.draws := rfl
@[simp] theorem delay_host (n : Nat) (s : State) : (delay n s).host = s.host := rfl

@[simp] theorem busWrite_cfg (b : Byte) (s : State) : (busWrite b s).cfg = s.cfg := rfl
@[simp] theorem busWrite_seq (b : Byte) (s : State) : (busWrite b s).seq = s.seq := rfl
@[simp] theorem busWrite_path (b : Byte) (s : State) : (busWrite b s).path = s.path := rfl
@[simp] theorem busWrite_busy (b : Byte) (s : State) : (busWrite b s).busy = s.busy := rfl
@[simp] theorem busWrite_sel (b : Byte) (s : State) : (busWrite b s).sel = s.sel := rfl
@[simp] theorem busWrite_work (b : Byte) (s : State) : (busWrite b s).work = s.work := rfl
@[simp] theorem busWrite_args (b : Byte) (s : State) : (busWrite b s).args = s.args := rfl
@[simp] theorem busWrite_resKind (b : Byte) (s : State) : (busWrite b s).resKind = s.resKind := rfl
@[simp] theorem busWrite_resLen (b : Byte) (s : State) : (busWrite b s).resLen = s.resLen := rfl
@[simp] theorem busWrite_txbuf (b : Byte) (s : State) : (busWrite b s).txbuf = s.txbuf := rfl
@[simp] theorem busWrite_rxbuf (b : Byte) (s : State) : (busWrite b s).rxbuf = s.rxbuf := rfl
@[simp] theorem busWrite_trace (b : Byte) (s : State) : (busWrite b s).trace = s.trace ++ [.wr b] := rfl
@[simp] theorem busWrite_diag (b : Byte) (s : State) : (busWrite b s).diag = s.diag := rfl
@[simp] theorem busWrite_script (b : Byte) (s : State) : (busWrite b s).script = s.script := rfl
@[simp] theorem busWrite_draws (b : Byte) (s : State) : (busWrite b s).draws = s.draws := rfl
@[simp] theorem busWrite_host (b : Byte) (s : State) : (busWrite b s).host = s.host := rfl

@[simp] theorem setSeq_cfg (q : Seq) (s : State) : (setSeq q s).cfg = s.cfg := rfl
@[simp] theorem setSeq_seq (q : Seq) (s : State) : (setSeq q s).seq = q := rfl
@[simp] theorem setSeq_path (q : Seq) (s : State) : (setSeq q s).path = s.path ++ [q] := rfl
@[simp] theorem setSeq_busy (q : Seq) (s : State) : (setSeq q s).busy = s.busy := rfl
@[simp] theorem setSeq_sel (q : Seq) (s : State) : (setSeq q s).sel = s.sel := rfl
@[simp] theorem setSeq_work (q : Seq) (s : State) : (setSeq q s).work = s.work := rfl
@[simp] theorem setSeq_args (q : Seq) (s : State) : (setSeq q s).args = s.args := rfl
@[simp] theorem setSeq_resKind (q : Seq) (s : State) : (setSeq q s).resKind = s.resKind := rfl
@[simp] theorem setSeq_resLen (q : Seq) (s : State) : (setSeq q s).resLen = s.resLen := rfl
@[simp] theorem setSeq_txbuf (q : Seq) (s : State) : (setSeq q s).txbuf = s.txbuf := rfl
@[simp] theorem setSeq_rxbuf (q : Seq) (s : State) : (setSeq q s).rxbuf = s.rxbuf := rfl
@[simp] theorem setSeq_trace (q : Seq) (s : State) : (setSeq q s).trace = s.trace := rfl
@[simp] theorem setSeq_diag (q : Seq) (s : State) : (setSeq q s).diag = s.diag := rfl
@[simp] theorem setSeq_script (q : Seq) (s : State) : (setSeq q s).script = s.script := rfl
@[simp] theorem setSeq_draws (q : Seq) (s : State) : (setSeq q s).draws = s.draws := rfl
@[simp] theorem setSeq_host (q : Seq) (s : State) : (setSeq q s).host = s.host := rfl

@[simp] theorem setCnt_cfg (n : Nat) (s : State) : (setCnt n s).cfg = s.cfg := rfl
@[simp] theorem setCnt_seq (n : Nat) (s : State) : (setCnt n s).seq = s.seq := rfl
@[simp] theorem setCnt_path (n : Nat) (s : State) : (setCnt n s).path = s.path := rfl
@[simp] theorem setCnt_busy (n : Nat) (s : State) : (setCnt n s).busy = s.busy := rfl
@[simp] theorem setCnt_sel (n : Nat) (s : State) : (setCnt n s).sel = s.sel := rfl
@[simp] theorem setCnt_work (n : Nat) (s : State) : (setCnt n s).work = { s.work with cnt := n } := rfl
@[simp] theorem setCnt_args (n : Nat) (s : State) : (setCnt n s).args = s.args := rfl
@[simp] theorem setCnt_resKind (n : Nat) (s : State) : (setCnt n s).resKind = s.resKind := rfl
@[simp] theorem setCnt_resLen (n : Nat) (s : State) : (setCnt n s).resLen = s.resLen := rfl
@[simp] theorem setCnt_txbuf (n : Nat) (s : State) : (setCnt n s).txbuf = s.txbuf := rfl
@[simp] theorem setCnt_rxbuf (n : Nat) (s : State) : (setCnt n s).rxbuf = s.rxbuf := rfl
@[simp] theorem setCnt_trace (n : Nat) (s : State) : (setCnt n s).trace = s.trace := rfl
@[simp] theorem setCnt_diag (n : Nat) (s : State) : (setCnt n s).diag = s.diag := rfl
@[simp] theorem setCnt_script (n : Nat) (s : State) : (setCnt n s).script = s.script := rfl
@[simp] theorem setCnt_draws (n : Nat) (s : State) : (setCnt n s).draws = s.draws := rfl
@[simp] theorem setCnt_host (n : Nat) (s : State) : (setCnt n s).host = s.host := rfl

@[simp] theorem emitDiag_cfg (k : Kind) (x : DiagInfo) (s : State) : (emitDiag k x s).cfg = s.cfg := rfl
@[simp] theorem emitDiag_seq (k : Kind) (x : DiagInfo) (s : State) : (emitDiag k x s).seq = s.seq := rfl
@[simp] theorem emitDiag_path (k : Kind) (x : DiagInfo) (s : State) : (emitDiag k x s).path = s.path := rfl
@[simp] theorem emitDiag_busy (k : Kind) (x : DiagInfo) (s : State) : (emitDiag k x s).busy = s.busy := rfl
@[simp] theorem emitDiag_sel (k : Kind) (x : DiagInfo) (s : State) : (emitDiag k x s).sel = s.sel := rfl
@[simp] theorem emitDiag_work (k : Kind) (x : DiagInfo) (s : State) : (emitDiag k x s).work = s.work := rfl
@[simp] theorem emitDiag_args (k : Kind) (x : DiagInfo) (s : State) : (emitDiag k x s).args = s.args := rfl
@[simp] theorem emitDiag_resKind (k : Kind) (x : DiagInfo) (s : State) : (emitDiag k x s).resKind = s.resKind := rfl
@[simp] theorem emitDiag_resLen (k : Kind) (x : DiagInfo) (s : State) : (emitDiag k x s).resLen = s.resLen := rfl
@[simp] theorem emitDiag_txbuf (k : Kind) (x : DiagInfo) (s : State) : (emitDiag k x s).txbuf = s.txbuf := rfl
@[simp] theorem emitDiag_rxbuf (k : Kind) (x : DiagInfo) (s : State) : (emitDiag k x s).rxbuf = s.rxbuf := rfl
@[simp] theorem emitDiag_trace (k : Kind) (x : DiagInfo) (s : State) : (emitDiag k x s).trace = s.trace := rfl
@[simp] theorem emitDiag_diag (k : Kind) (x : DiagInfo) (s : State) : (emitDiag k x s).diag = s.diag.map fun log => log ++ [⟨k, x⟩] := rfl
@[simp] theorem emitDiag_script (k : Kind) (x : DiagInfo) (s : State) : (emitDiag k x s).script = s.script := rfl
@[simp] theorem emitDiag_draws (k : Kind) (x : DiagInfo) (s : State) : (emitDiag k x s).draws = s.draws := rfl
@[simp] theorem emitDiag_host (k : Kind) (x : DiagInfo) (s : State) : (emitDiag k x s).host = s.host := rfl

@[simp] theorem present_cfg (bs : List Byte) (s : State) : (present bs s).cfg = s.cfg := rfl
@[simp] theorem present_seq (bs : List Byte) (s : State) : (present bs s).seq = s.seq := rfl
@[simp] theorem present_path (bs : List Byte) (s : State) : (present bs s).path = s.path := rfl
@[simp] theorem present_busy (bs : List Byte) (s : State) : (present bs s).busy = s.busy := rfl
@[simp] theorem present_sel (bs : List Byte) (s : State) : (present bs s).sel = s.sel := rfl
@[simp] theorem present_work (bs : List Byte) (s : State) : (present bs s).work = s.work := rfl
@[simp] theorem present_args (bs : List Byte) (s : State) : (present bs s).args = s.args := rfl
@[simp] theorem present_resKind (bs : List Byte) (s : State) : (present bs s).resKind = s.resKind := rfl
@[simp] theorem present_resLen (bs : List Byte) (s : State) : (present bs s).resLen = s.resLen := rfl
@[simp] theorem present_txbuf (bs : List Byte) (s : State) : (present bs s).txbuf = s.txbuf := rfl
@[simp] theorem present_rxbuf (bs : List Byte) (s : State) : (present bs s).rxbuf = s.rxbuf := rfl
@[simp] theorem present_trace (bs : List Byte) (s : State) : (present bs s).trace = s.trace := rfl
@[simp] theorem present_diag (bs : List Byte) (s : State) : (present bs s).diag = s.diag := rfl
@[simp] theorem present_script (bs : List Byte) (s : State) : (present bs s).script = bs ++ s.script := rfl
@[simp] theorem present_draws (bs : List Byte) (s : State) : (present bs s).draws = s.draws := rfl
@[simp] theorem present_host (bs : List Byte) (s : State) : (present bs s).host = s.host := rfl

@[simp] theorem skip_cfg (s : State) (n : Nat) : (s.skip n).cfg = s.cfg := rfl
@[simp] theorem skip_seq (s : State) (n : Nat) : (s.skip n).seq = s.seq := rfl
@[simp] theorem skip_path (s : State) (n : Nat) : (s.skip n).path = s.path := rfl
@[simp] theorem skip_busy (s : State) (n : Nat) : (s.skip n).busy = s.busy := rfl
@[simp] theorem skip_sel (s : State) (n : Nat) : (s.skip n).sel = s.sel := rfl
@[simp] theorem skip_work (s : State) (n : Nat) : (s.skip n).work = s.work := rfl
@[simp] theorem skip_args (s : State) (n : Nat) : (s.skip n).args = s.args := rfl
@[simp] theorem skip_resKind (s : State) (n : Nat) : (s.skip n).resKind = s.resKind := rfl
@[simp] theorem skip_resLen (s : State) (n : Nat) : (s.skip n).resLen = s.resLen := rfl
@[simp] theorem skip_txbuf (s : State) (n : Nat) : (s.skip n).txbuf = s.txbuf := rfl
@[simp] theorem skip_rxbuf (s : State) (n : Nat) : (s.skip n).rxbuf = s.rxbuf := rfl
@[simp] theorem skip_trace (s : State) (n : Nat) : (s.skip n).trace = s.trace := rfl
@[simp] theorem skip_diag (s : State) (n : Nat) : (s.skip n).diag = s.diag := rfl
@[simp] theorem skip_script (s : State) (n : Nat) : (s.skip n).script = s.script.drop n := rfl
@[simp] theorem skip_draws (s : State) (n : Nat) : (s.skip n).draws = s.draws + (n - s.script.length) := rfl
@[simp] theorem skip_host (s : State) (n : Nat) : (s.skip n).host = s.host := rfl

@[simp] theorem accept_cfg (o : BitVec 3) (s : State) : (accept o s).cfg = s.cfg := rfl
@[simp] theorem accept_seq (o : BitVec 3) (s : State) : (accept o s).seq = s.seq := rfl
@[simp] theorem accept_path (o : BitVec 3) (s : State) : (accept o s).path = s.path := rfl
@[simp] theorem accept_busy (o : BitVec 3) (s : State) : (accept o s).busy = true := rfl
@[simp] theorem accept_sel (o : BitVec 3) (s : State) : (accept o s).sel = s.sel := rfl
@[simp] theorem accept_work (o : BitVec 3) (s : State) : (accept o s).work = latched o s := rfl
@[simp] theorem accept_args (o : BitVec 3) (s : State) : (accept o s).args = s.args := rfl
@[simp] theorem accept_resKind (o : BitVec 3) (s : State) : (accept o s).resKind = s.resKind := rfl
@[simp] theorem accept_resLen (o : BitVec 3) (s : State) : (accept o s).resLen = s.resLen := rfl
@[simp] theorem accept_txbuf (o : BitVec 3) (s : State) : (accept o s).txbuf = s.txbuf := rfl
@[simp] theorem accept_rxbuf (o : BitVec 3) (s : State) : (accept o s).rxbuf = s.rxbuf := rfl
@[simp] theorem accept_trace (o : BitVec 3) (s : State) : (accept o s).trace = s.trace := rfl
@[simp] theorem accept_diag (o : BitVec 3) (s : State) : (accept o s).diag = s.diag := rfl
@[simp] theorem accept_script (o : BitVec 3) (s : State) : (accept o s).script = s.script := rfl
@[simp] theorem accept_draws (o : BitVec 3) (s : State) : (accept o s).draws = s.draws := rfl
@[simp] theorem accept_host (o : BitVec 3) (s : State) : (accept o s).host = s.host := rfl

@[simp] theorem refuse_cfg (s : State) : (refuse s).cfg = s.cfg := rfl
@[simp] theorem refuse_seq (s : State) : (refuse s).seq = s.seq := rfl
@[simp] theorem refuse_path (s : State) : (refuse s).path = s.path := rfl
@[simp] theorem refuse_busy (s : State) : (refuse s).busy = false := rfl
@[simp] theorem refuse_sel (s : State) : (refuse s).sel = s.sel := rfl
@[simp] theorem refuse_work (s : State) : (refuse s).work = s.work := rfl
@[simp] theorem refuse_args (s : State) : (refuse s).args = s.args := rfl
@[simp] theorem refuse_resKind (s : State) : (refuse s).resKind = .refused := rfl
@[simp] theorem refuse_resLen (s : State) : (refuse s).resLen = 0 := rfl
@[simp] theorem refuse_txbuf (s : State) : (refuse s).txbuf = s.txbuf := rfl
@[simp] theorem refuse_rxbuf (s : State) : (refuse s).rxbuf = s.rxbuf := rfl
@[simp] theorem refuse_trace (s : State) : (refuse s).trace = s.trace := rfl
@[simp] theorem refuse_diag (s : State) : (refuse s).diag = s.diag := rfl
@[simp] theorem refuse_script (s : State) : (refuse s).script = s.script := rfl
@[simp] theorem refuse_draws (s : State) : (refuse s).draws = s.draws := rfl
@[simp] theorem refuse_host (s : State) : (refuse s).host = s.host := rfl

@[simp] theorem succeed_cfg (n : U16) (s : State) : (succeed n s).cfg = s.cfg := rfl
@[simp] theorem succeed_seq (n : U16) (s : State) : (succeed n s).seq = .idle := rfl
@[simp] theorem succeed_path (n : U16) (s : State) : (succeed n s).path = s.path ++ [.done] ++ [.idle] := rfl
@[simp] theorem succeed_busy (n : U16) (s : State) : (succeed n s).busy = false := rfl
@[simp] theorem succeed_sel (n : U16) (s : State) : (succeed n s).sel = s.sel := rfl
@[simp] theorem succeed_work (n : U16) (s : State) : (succeed n s).work = s.work := rfl
@[simp] theorem succeed_args (n : U16) (s : State) : (succeed n s).args = s.args := rfl
@[simp] theorem succeed_resKind (n : U16) (s : State) : (succeed n s).resKind = .ok := rfl
@[simp] theorem succeed_resLen (n : U16) (s : State) : (succeed n s).resLen = n := rfl
@[simp] theorem succeed_txbuf (n : U16) (s : State) : (succeed n s).txbuf = s.txbuf := rfl
@[simp] theorem succeed_rxbuf (n : U16) (s : State) : (succeed n s).rxbuf = s.rxbuf := rfl
@[simp] theorem succeed_trace (n : U16) (s : State) : (succeed n s).trace = s.trace := rfl
@[simp] theorem succeed_diag (n : U16) (s : State) : (succeed n s).diag = s.diag := rfl
@[simp] theorem succeed_script (n : U16) (s : State) : (succeed n s).script = s.script := rfl
@[simp] theorem succeed_draws (n : U16) (s : State) : (succeed n s).draws = s.draws := rfl
@[simp] theorem succeed_host (n : U16) (s : State) : (succeed n s).host = s.host := rfl

end Sys2Proof.Machine.Laws
end

