-- ==== Sys2Proof/Laws/Bus.lean ====
section
/-! SUPPORT. What the bus operations do, said once: each is one record update in terms of the answers to come. -/

namespace Sys2Proof.Machine.Laws

open Codec Codec.Laws

/-- The answers past `n` consumed ones. -/
theorem answerAt_drop (script : List Byte) (draws n k : Nat) :
    answerAt (script.drop n) (draws + (n - script.length)) k = answerAt script draws (n + k) := by
  simp only [answerAt, List.getElem?_drop, List.length_drop]
  cases h : script[n + k]? with
  | some b => rfl
  | none =>
    rw [List.getElem?_eq_none_iff] at h
    exact congrArg Config.busDraw (by omega)

theorem answer_skip (s : State) (n k : Nat) : (s.skip n).answer k = s.answer (n + k) :=
  answerAt_drop s.script s.draws n k

theorem drop_draws (script : List Byte) (draws a b : Nat) :
    draws + (a - script.length) + (b - (script.drop a).length) = draws + (a + b - script.length) := by
  rw [List.length_drop]; omega

theorem skip_skip (s : State) (a b : Nat) : (s.skip a).skip b = s.skip (a + b) := by
  simp only [State.skip, List.drop_drop, drop_draws]

@[simp] theorem skip_zero (s : State) : s.skip 0 = s := by simp [State.skip]

/-- `BusRead()`: the next answer, consumed and recorded. -/
theorem busRead_eq (s : State) :
    busRead s = (s.answer 0, { s.skip 1 with trace := s.trace ++ [.rd (s.answer 0)] }) := by
  obtain ⟨_, _, _, _, _, _, _, _, _, _, _, _, _, script, _, _⟩ := s
  cases script <;> simp [busRead, State.answer, answerAt, State.skip]

theorem openTransfer_eq (pfx : Option Byte) (s : State) :
    openTransfer pfx s = { s with sel := true, trace := s.trace ++ openEvents s.cfg pfx } := by
  cases pfx <;> simp [openTransfer, openEvents, delay, busSelect, busWrite]

theorem writeBytes_eq (bs : List Byte) (s : State) :
    writeBytes bs s = { s with trace := s.trace ++ bs.map Event.wr } := by
  induction bs generalizing s with
  | nil => simp [writeBytes]
  | cons b bs ih => simp [writeBytes, ih, busWrite]

theorem sendBytes_eq (bs : List Byte) (s : State) :
    sendBytes bs s =
      { s with
        trace := s.trace ++ bs.map Event.wr
        work := { s.work with acc := s.work.acc + sum8 bs, idx := s.work.idx + bs.length } } := by
  induction bs generalizing s with
  | nil => simp [sendBytes, sum8_nil]
  | cons b bs ih =>
    simp only [sendBytes, ih, busWrite, add8_eq, sum8_cons, List.map_cons, List.length_cons, List.append_assoc,
      List.singleton_append]
    simp only [BitVec.add_assoc, Nat.add_assoc, Nat.add_comm 1]

/-- R130, R105: the SENT transfer's bytes are ENCODE's, and what ACC and IDX hold after it. -/
theorem frameBody_eq (c : Byte) (data : List Byte) (s : State) :
    frameBody c data s =
      { s with
        trace := s.trace ++ (encodeFrame c data).map Event.wr
        work := { s.work with acc := sum8 (Config.tfiHostToChip :: c :: data), idx := data.length } } := by
  simp only [frameBody, writeBytes_eq, sendBytes_eq, encodeFrame, lcs, dcs, sum8_cons, add8_eq, List.map_append,
    List.append_assoc, Nat.zero_add, List.map_cons, List.map_nil, List.cons_append, List.nil_append, BitVec.add_assoc]

/-- R130: one command frame, as one update. -/
theorem sendFrame_eq (c : Byte) (data : List Byte) (s : State) :
    sendFrame c data s =
      { s with
        seq := .awaitReady1
        path := s.path ++ [.awaitReady1]
        sel := false
        trace := s.trace ++ transferEvents s.cfg s.cfg.pfxWrite ((encodeFrame c data).map Event.wr)
        work := { s.work with
          acc := sum8 (Config.tfiHostToChip :: c :: data), idx := data.length, cnt := 0 } } := by
  simp [sendFrame, enterPoll, setCnt, setSeq, transfer, busDeselect, frameBody_eq, openTransfer_eq, transferEvents]

/-- R122: one status transfer. -/
theorem statusRead_eq (s : State) :
    statusRead s =
      (s.answer 0,
       { s.skip 1 with
         sel := false
         trace := s.trace ++ transferEvents s.cfg s.cfg.pfxStatus [.rd (s.answer 0)] }) := by
  simp [statusRead, busRead_eq, openTransfer_eq, busDeselect, transferEvents, State.answer, State.skip]

theorem answers_succ (s : State) (start n : Nat) :
    s.answers start (n + 1) = s.answer start :: s.answers (start + 1) n := by
  simp only [State.answers, List.range_succ_eq_map, List.map_cons, List.map_map, Nat.add_zero, List.cons.injEq, true_and]
  apply List.map_congr_left
  intro j _
  simp only [Function.comp]
  congr 1; omega

@[simp] theorem answers_zero (s : State) (start : Nat) : s.answers start 0 = [] := rfl

@[simp] theorem answers_length (s : State) (start n : Nat) : (s.answers start n).length = n := by simp [State.answers]

theorem answers_skip (s : State) (a start n : Nat) : (s.skip a).answers start n = s.answers (a + start) n := by
  simp only [State.answers, answer_skip, Nat.add_assoc]

theorem answers_append (s : State) (start a b : Nat) :
    s.answers start (a + b) = s.answers start a ++ s.answers (start + a) b := by
  induction a generalizing start with
  | zero => simp
  | succ a ih =>
    rw [show a + 1 + b = (a + b) + 1 by omega, answers_succ, answers_succ, ih, List.cons_append]
    congr 2; congr 1; omega

/-- The answers are the script while it lasts. -/
theorem answers_script (s : State) (bs rest : List Byte) (h : s.script = bs ++ rest) : s.answers 0 bs.length = bs := by
  apply List.ext_getElem (by simp)
  intro i h1 h2
  simp [State.answers, State.answer, answerAt, h, List.getElem?_append_left h2, List.getElem?_eq_getElem h2]

theorem answers_snoc (s : State) (start n : Nat) :
    s.answers start (n + 1) = s.answers start n ++ [s.answer (start + n)] := by
  rw [answers_append, answers_succ, answers_zero]

/-- The state after `n` reads of the bus. -/
def reads (s : State) (n : Nat) : State := { s.skip n with trace := s.trace ++ (s.answers 0 n).map Event.rd }

theorem busRead_first (s : State) : busRead s = (s.answer 0, reads s 1) := by
  simp [busRead_eq, reads, answers_succ]

theorem busRead_reads (s : State) (n : Nat) : busRead (reads s n) = (s.answer n, reads s (n + 1)) := by
  have h0 : (reads s n).answer 0 = s.answer n := answer_skip s n 0
  rw [busRead_eq, h0]
  simp only [reads, State.skip, List.drop_drop, drop_draws, answers_snoc, List.map_append, List.map_cons, List.map_nil,
    List.append_assoc, Nat.zero_add]

/-- Reading on from any state that stands where `s` stands after `m` reads. -/
theorem reads_from {s x : State} {m : Nat} (n : Nat) (h1 : x.script = (reads s m).script)
    (h2 : x.draws = (reads s m).draws) (h3 : x.trace = (reads s m).trace) :
    reads x n = { x with
      script := (reads s (m + n)).script, draws := (reads s (m + n)).draws, trace := (reads s (m + n)).trace } := by
  have ha : x.answers 0 n = s.answers m n := by
    have : ∀ k, x.answer k = s.answer (m + k) := fun k => by
      simp only [State.answer]; rw [h1, h2]; exact answerAt_drop s.script s.draws m k
    simp only [State.answers, this, Nat.zero_add]
  simp only [reads, State.skip, ha, h1, h2, h3, List.drop_drop, drop_draws, List.append_assoc, ← List.map_append]
  rw [answers_append s 0 m n, Nat.zero_add]

theorem answers_from {s x : State} {m : Nat} (a n : Nat) (h1 : x.script = (reads s m).script)
    (h2 : x.draws = (reads s m).draws) : x.answers a n = s.answers (m + a) n := by
  have : ∀ k, x.answer k = s.answer (m + k) := fun k => by
    simp only [State.answer]; rw [h1, h2]; exact answerAt_drop s.script s.draws m k
  simp only [State.answers, this, Nat.add_assoc]

/-- The six captured bytes as a function of the answers. -/
def ackOf (s : State) (start : Nat) : AckBytes :=
  ⟨s.answer start, s.answer (start + 1), s.answer (start + 2), s.answer (start + 3), s.answer (start + 4),
    s.answer (start + 5)⟩

theorem ackOf_toList (s : State) (start : Nat) : (ackOf s start).toList = s.answers start 6 := by
  simp [AckBytes.toList, ackOf, answers_succ]

/-- R132: the six reads of the ACK check. -/
theorem readAck_eq (s : State) :
    readAck s =
      { s.skip 6 with
        trace := s.trace ++ (s.answers 0 6).map Event.rd
        work := { s.work with ackb := ackOf s 0, idx := 6 } } := by
  simp only [readAck]
  rw [busRead_first s]
  simp only [busRead_reads, ackOf, Nat.zero_add]
  rfl

/-- R196: the failure exit, as one update. -/
theorem raise_eq (k : Kind) (x : DiagInfo) (s : State) :
    raise k x s =
      { s with
        sel := false
        trace := if s.sel then s.trace ++ [.des] else s.trace
        seq := .idle
        path := s.path ++ [.failed, .idle]
        resKind := k
        resLen := 0
        diag := s.diag.map fun log => log ++ [⟨k, x⟩]
        busy := false } := by
  obtain ⟨_, _, _, _, sel, _, _, _, _, _, _, _, _, _, _, _⟩ := s
  cases sel <;> simp [raise, setSeq, emitDiag, busDeselect]

theorem succeed_eq (n : U16) (s : State) :
    succeed n s =
      { s with
        seq := .idle, path := s.path ++ [.done, .idle], resKind := .ok, resLen := n, busy := false } := by
  simp [succeed, setSeq]

end Sys2Proof.Machine.Laws
end

