-- ==== Sys2Proof/Laws/Memory.lean ====
section
/-! SUPPORT. The laws of buffers: a read after a write, and that every operation keeps the canonical form. -/

namespace Sys2Proof.Machine.Laws

theorem Memory.wfFrom_mono {m : Memory} {a b : Nat} (h : a ≤ b) (hm : Memory.wfFrom b m = true) :
    Memory.wfFrom a m = true := by
  cases m with
  | nil => rfl
  | cons c m =>
    obtain ⟨k, v⟩ := c
    simp only [Memory.wfFrom, Bool.and_eq_true, decide_eq_true_eq] at hm ⊢
    exact ⟨⟨by omega, hm.1.2⟩, hm.2⟩

/-- Below the first listed index everything reads as the fill byte. -/
theorem Memory.read_below {m : Memory} {a b : Nat} (hm : Memory.wfFrom b m = true) (h : a < b) :
    Memory.read m a = Memory.fill := by
  induction m generalizing b with
  | nil => rfl
  | cons c m ih =>
    obtain ⟨k, v⟩ := c
    simp only [Memory.wfFrom, Bool.and_eq_true, decide_eq_true_eq] at hm
    rw [Memory.read, if_neg (by omega), ih hm.2 (by omega)]

theorem Memory.write_wfFrom {m : Memory} {a k : Nat} (b : Byte) (hm : Memory.wfFrom k m = true) (h : k ≤ a) :
    Memory.wfFrom k (Memory.write m a b) = true := by
  induction m generalizing k with
  | nil => by_cases hb : b = Memory.fill <;> simp [Memory.write, hb, Memory.wfFrom, h]
  | cons c m ih =>
    obtain ⟨j, v⟩ := c
    simp only [Memory.wfFrom, Bool.and_eq_true, decide_eq_true_eq] at hm
    obtain ⟨⟨h1, h2⟩, h3⟩ := hm
    simp only [Memory.write]
    split
    · split
      · simp [Memory.wfFrom, h1, h2, h3]
      · next hb => simp [Memory.wfFrom, h, hb, h2, h3, Nat.succ_le_of_lt ‹a < j›]
    · split
      · subst a
        split
        · exact Memory.wfFrom_mono (by omega) h3
        · next hb => simp [Memory.wfFrom, h1, hb, h3]
      · simp only [Memory.wfFrom, Bool.and_eq_true, decide_eq_true_eq]
        exact ⟨⟨h1, h2⟩, ih h3 (by omega)⟩

/-- A write keeps the canonical form. -/
theorem Memory.write_wf {m : Memory} (a : Nat) (b : Byte) (hm : m.wf = true) : (Memory.write m a b).wf = true :=
  Memory.write_wfFrom b hm (Nat.zero_le a)

/-- Storing a list of bytes keeps the canonical form. -/
theorem Memory.writeAll_wf {m : Memory} (a : Nat) (bs : List Byte) (hm : m.wf = true) :
    (Memory.writeAll m a bs).wf = true := by
  induction bs generalizing m a with
  | nil => exact hm
  | cons b bs ih => exact ih (a + 1) (Memory.write_wf a b hm)

theorem Memory.read_writeFrom {m : Memory} {k : Nat} (hm : Memory.wfFrom k m = true) (a c : Nat) (b : Byte) :
    Memory.read (Memory.write m a b) c = if c = a then b else Memory.read m c := by
  induction m generalizing k with
  | nil =>
    by_cases hb : b = Memory.fill <;> by_cases hc : c = a <;> simp [Memory.write, Memory.read, hb, hc, Ne.symm]
  | cons e m ih =>
    obtain ⟨j, v⟩ := e
    simp only [Memory.wfFrom, Bool.and_eq_true, decide_eq_true_eq] at hm
    have below : ∀ x, x ≤ j → Memory.read m x = Memory.fill := fun x hx => Memory.read_below hm.2 (by omega)
    simp only [Memory.write]
    split
    · next haj =>
      split
      · next hb =>
        by_cases hc : c = a
        · subst hc
          rw [if_pos rfl, Memory.read, if_neg (by omega), below c (by omega), hb]
        · rw [if_neg hc]
      · by_cases hc : c = a
        · rw [if_pos hc, Memory.read, if_pos hc.symm]
        · rw [if_neg hc, Memory.read, if_neg (Ne.symm hc)]
    · split
      · next _ haj =>
        subst haj
        split
        · next hb =>
          by_cases hc : c = a
          · rw [if_pos hc, hc, below a (le_refl a), hb]
          · rw [if_neg hc, Memory.read, if_neg (Ne.symm hc)]
        · by_cases hc : c = a
          · rw [if_pos hc, Memory.read, if_pos hc.symm]
          · rw [if_neg hc, Memory.read, Memory.read, if_neg (Ne.symm hc), if_neg (Ne.symm hc)]
      · next h1 h2 =>
        rw [Memory.read, Memory.read, ih hm.2]
        by_cases hc : j = c
        · rw [if_pos hc, if_pos hc, if_neg (by omega)]
        · rw [if_neg hc, if_neg hc]

/-- Reading after a write: the byte written at its index, the old byte everywhere else. -/
theorem Memory.read_write {m : Memory} (hm : m.wf = true) (a c : Nat) (b : Byte) :
    Memory.read (Memory.write m a b) c = if c = a then b else Memory.read m c := Memory.read_writeFrom hm a c b

/-- Reading after storing a list of bytes. -/
theorem Memory.read_writeAll {m : Memory} (hm : m.wf = true) (a c : Nat) (bs : List Byte) :
    Memory.read (Memory.writeAll m a bs) c =
      if a ≤ c ∧ c < a + bs.length then bs[c - a]?.getD Memory.fill else Memory.read m c := by
  induction bs generalizing m a with
  | nil => simp only [Memory.writeAll, List.length_nil]; rw [if_neg (by omega)]
  | cons b bs ih =>
    rw [Memory.writeAll, ih (Memory.write_wf a b hm), Memory.read_write hm]
    by_cases hc : c = a
    · subst hc
      rw [if_neg (by omega), if_pos rfl, if_pos (by simp)]
      simp
    · by_cases h : a + 1 ≤ c ∧ c < a + 1 + bs.length
      · rw [if_pos h, if_pos (by simp only [List.length_cons]; omega)]
        obtain ⟨d, hd⟩ : ∃ d, c - a = d + 1 := ⟨c - a - 1, by omega⟩
        rw [hd, show c - (a + 1) = d by omega, List.getElem?_cons_succ]
      · rw [if_neg h, if_neg hc, if_neg (by simp only [List.length_cons]; omega)]

@[simp] theorem Memory.bytes_length (m : Memory) (n : Nat) : (m.bytes n).length = n := by simp [Memory.bytes]

/-- The bytes of a buffer that a list was stored into are that list. -/
theorem Memory.bytes_writeAll {m : Memory} (hm : m.wf = true) (bs : List Byte) :
    Memory.bytes (Memory.writeAll m 0 bs) bs.length = bs := by
  apply List.ext_getElem (by simp)
  intro i h1 h2
  simp only [Memory.bytes, List.getElem_map, List.getElem_range]
  rw [Memory.read_writeAll hm, if_pos (by simp at h1; omega)]
  simp [List.getElem?_eq_getElem h2]

end Sys2Proof.Machine.Laws
end

