-- ==== Sys2Proof/Laws/Reader.lean ====
section
/-! SUPPORT. What each state of the Response Reader does, said once, in terms of the answers to come. -/

namespace Sys2Proof.Machine.Laws

open Codec Codec.Laws

/-- R151. -/
theorem rrEntry_eq (s : State) :
    rrEntry s =
      { s with
        seq := .rrScan, path := s.path ++ [.rrScan], sel := true, resLen := 0
        trace := s.trace ++ openEvents s.cfg s.cfg.pfxRead } := by
  simp [rrEntry, openTransfer_eq, setSeq]

/-- The scanner's bytes so far, as a start-code recogniser sees them: a 0x00 just before when PZ is set. -/
def scanView (pz : Bool) (bs : List Byte) : List Byte := if pz then Config.start1 :: bs else bs

theorem scanView_none_cons {pz : Bool} {b : Byte} {bs : List Byte} (h : splitStart (scanView pz (b :: bs)) = none) :
    scanHit pz b = false ∧ splitStart (scanView (scanZero b) bs) = none := by
  have step : splitStart (b :: bs) = none → splitStart (scanView (scanZero b) bs) = none := by
    intro h
    by_cases hb : b = Config.start1
    · subst hb; simpa [scanView, scanZero] using h
    · rw [splitStart_cons, if_neg (fun c => hb c.1)] at h
      simpa [scanView, scanZero, hb] using h
  cases pz with
  | false => exact ⟨rfl, step h⟩
  | true =>
    simp only [scanView, if_true] at h
    rw [splitStart_cons] at h
    split at h
    · simp at h
    · next hb =>
      refine ⟨?_, step (by simpa using h)⟩
      simpa [scanHit] using hb

/-- R23, R25: PZ after the scanner has read `bs`, started with PZ at `pz`: the last byte decides. -/
def pzAfter (pz : Bool) (bs : List Byte) : Bool := bs.foldl (fun _ b => scanZero b) pz

theorem pzAfter_eq (bs : List Byte) : pzAfter false bs = true ↔ bs.getLast? = some Config.start1 := by
  rcases List.eq_nil_or_concat bs with rfl | ⟨l, b, rfl⟩
  · simp [pzAfter]
  · simp [pzAfter, scanZero]

/-- R152: no start code among the next `n` answers: all of them are read. -/
theorem scanLoop_none {n : Nat} {s : State} (h : splitStart (scanView s.work.pz (s.answers 0 n)) = none) :
    scanLoop n s = (false, { reads s n with
      work := { s.work with cnt := s.work.cnt + n, pz := pzAfter s.work.pz (s.answers 0 n) } }) := by
  induction n generalizing s with
  | zero => simp [scanLoop, reads, pzAfter, answers_zero]
  | succ n ih =>
    rw [answers_succ] at h
    obtain ⟨h1, h2⟩ := scanView_none_cons h
    simp only [scanLoop, busRead_first s, h1]
    have key : ∀ x : State, x = { reads s 1 with
        work := { s.work with cnt := s.work.cnt + 1, pz := scanZero (s.answer 0) } } →
        scanLoop n x = (false, { reads s (n + 1) with
          work := { s.work with cnt := s.work.cnt + (n + 1), pz := pzAfter s.work.pz (s.answers 0 (n + 1)) } }) := by
      intro x hx
      have h1 : x.script = (reads s 1).script := by subst hx; rfl
      have h2' : x.draws = (reads s 1).draws := by subst hx; rfl
      have hpz : x.work.pz = scanZero (s.answer 0) := by subst hx; rfl
      have ha := answers_from (m := 1) 0 n h1 h2'
      rw [ih (s := x) (by rw [hpz, ha]; exact h2), ha, hpz, answers_succ]
      rw [reads_from (m := 1) n h1 h2' (by subst hx; rfl), Nat.add_comm 1 n]
      subst hx
      simp only [reads, skip_work, Nat.add_assoc, Nat.add_comm 1 n]
      rfl
    exact key _ rfl

/-- R152: noise without a start code, then a start code, within the budget: the scanner stops right behind it. -/
theorem scanLoop_found {n : Nat} {s : State} {noise : List Byte} (hn : noise.length + 2 ≤ n)
    (h : splitStart (scanView s.work.pz noise) = none)
    (ha : s.answers 0 (noise.length + 2) = noise ++ [Config.start1, Config.start2]) :
    scanLoop n s =
      (true, { reads s (noise.length + 2) with
        work := { s.work with cnt := s.work.cnt + (noise.length + 2), pz := false } }) := by
  induction noise generalizing n s with
  | nil =>
    obtain ⟨n, rfl⟩ : ∃ k, n = k + 2 := ⟨n - 2, by simp at hn; omega⟩
    simp only [List.length_nil, Nat.zero_add, answers_succ, answers_zero, List.nil_append, List.cons.injEq, and_true] at ha
    have hpz : scanHit s.work.pz (s.answer 0) = false := by
      rw [ha.1]; cases s.work.pz <;> rfl
    have h1 : scanZero (s.answer 0) = true := by rw [ha.1]; rfl
    have h2 : scanHit true (s.answer 1) = true := by rw [ha.2]; rfl
    have hr : ∀ w, busRead { reads s 1 with work := w } = (s.answer 1, { reads s 2 with work := w }) := by
      intro w
      rw [show ({ reads s 1 with work := w } : State) = reads { s with work := w } 1 from rfl, busRead_reads]
      rfl
    have h3 : scanZero (s.answer 1) = false := by rw [ha.2]; rfl
    simp only [scanLoop, busRead_first s, hpz, h1, Bool.false_eq_true, if_false, hr, h2, h3, if_true]
    rfl
  | cons b bs ih =>
    obtain ⟨n, rfl⟩ : ∃ k, n = k + 1 := ⟨n - 1, by simp at hn; omega⟩
    simp only [List.length_cons] at ha hn
    rw [show bs.length + 1 + 2 = (bs.length + 2) + 1 by omega, answers_succ, List.cons_append, List.cons.injEq] at ha
    obtain ⟨hb, ha⟩ := ha
    obtain ⟨h1, h2⟩ := scanView_none_cons h
    simp only [scanLoop, busRead_first s, hb, h1]
    have key : ∀ x : State, x = { reads s 1 with work := { s.work with cnt := s.work.cnt + 1, pz := scanZero b } } →
        scanLoop n x = (true, { reads s (bs.length + 1 + 2) with
          work := { s.work with cnt := s.work.cnt + (bs.length + 1 + 2), pz := false } }) := by
      intro x hx
      have h1 : x.script = (reads s 1).script := by subst hx; rfl
      have h2' : x.draws = (reads s 1).draws := by subst hx; rfl
      rw [ih (by omega) (by rw [hx]; exact h2) (by rw [answers_from (m := 1) 0 _ h1 h2']; exact ha),
        reads_from (m := 1) _ h1 h2' (by subst hx; rfl)]
      subst hx
      rw [show bs.length + 1 + 2 = 1 + (bs.length + 2) by omega]
      simp only [reads, skip_work, Nat.add_assoc]
      rfl
    exact key _ rfl

/-- R153. -/
theorem rrLen_eq (s : State) :
    rrLen s =
      (let l0 := s.answer 0
       let l1 := s.answer 1
       let was : State := { reads s 2 with work := { s.work with l0 := l0, l1 := l1 } }
       if isExtMark l0 l1 then setSeq .rrXlen was
       else if lenOk l0 l1 then setSeq .rrHdr { was with work := { was.work with len := l0.setWidth 16 } }
       else raise .corruption (.lengthBytes l0 l1) was) := by
  simp only [rrLen]
  rw [busRead_first s]
  simp only [busRead_reads]
  rfl

/-- R154. -/
theorem rrXlen_eq (s : State) :
    rrXlen s =
      (let xm := s.answer 0
       let xl := s.answer 1
       let xc := s.answer 2
       let was : State := { reads s 3 with work := { s.work with xm := xm, xl := xl, xc := xc } }
       if xlenOk xm xl xc then setSeq .rrHdr { was with work := { was.work with len := xlen xm xl } }
       else raise .corruption (.extLengthBytes xm xl xc) was) := by
  simp only [rrXlen]
  rw [busRead_first s]
  simp only [busRead_reads]
  rfl

/-- R156. -/
theorem rrHdr_eq (s : State) :
    rrHdr s =
      (let hd := s.answer 0
       let hi := s.answer 1
       let was : State := { reads s 2 with work := { s.work with hd := hd, hi := hi } }
       if headerOk s hd hi then
         setSeq .rrData { was with work := { was.work with dlen := s.work.len - 2, acc := hd + hi } }
       else raise .corruption (.header hd hi s.work.len) was) := by
  simp only [rrHdr, add8_eq]
  rw [busRead_first s]
  simp only [busRead_reads]
  rfl

/-- R158: `n` data bytes from index `IDX` on. -/
theorem dataLoop_eq (n : Nat) (s : State) :
    dataLoop n s =
      { reads s n with
        rxbuf := Memory.writeAll s.rxbuf s.work.idx ((s.answers 0 n).take (s.work.capl.toNat - s.work.idx))
        work := { s.work with acc := s.work.acc + sum8 (s.answers 0 n), idx := s.work.idx + n } } := by
  induction n generalizing s with
  | zero => simp [dataLoop, reads, sum8_nil, Memory.writeAll]
  | succ n ih =>
    rw [dataLoop, ih]
    have hd : dataByte s = { reads s 1 with
        rxbuf := if s.work.idx < s.work.capl.toNat then Memory.write s.rxbuf s.work.idx (s.answer 0) else s.rxbuf
        work := { s.work with acc := s.work.acc + s.answer 0, idx := s.work.idx + 1 } } := by
      simp only [dataByte, add8_eq]; rw [busRead_first s]; rfl
    have h1 : (dataByte s).script = (reads s 1).script := by rw [hd]
    have h2 : (dataByte s).draws = (reads s 1).draws := by rw [hd]
    have h3 : (dataByte s).trace = (reads s 1).trace := by rw [hd]
    rw [reads_from (m := 1) n h1 h2 h3, answers_from (m := 1) 0 n h1 h2, answers_succ s 0 n, Nat.add_comm 1 n]
    have hw : (dataByte s).work = { s.work with acc := s.work.acc + s.answer 0, idx := s.work.idx + 1 } := by rw [hd]
    have hm : (dataByte s).rxbuf =
        if s.work.idx < s.work.capl.toNat then Memory.write s.rxbuf s.work.idx (s.answer 0) else s.rxbuf := by rw [hd]
    have hr : ∀ (m : Memory) (w : Work), { dataByte s with
        script := (reads s (n + 1)).script, draws := (reads s (n + 1)).draws, trace := (reads s (n + 1)).trace
        rxbuf := m, work := w } = { reads s (n + 1) with rxbuf := m, work := w } := by
      intro m w; rw [hd]; rfl
    refine (hr _ _).trans ?_
    rw [hw, hm, sum8_cons]
    have h4 : Memory.writeAll
          (if s.work.idx < s.work.capl.toNat then Memory.write s.rxbuf s.work.idx (s.answer 0) else s.rxbuf)
          (s.work.idx + 1) ((s.answers (0 + 1) n).take (s.work.capl.toNat - (s.work.idx + 1))) =
        Memory.writeAll s.rxbuf s.work.idx
          ((s.answer 0 :: s.answers (0 + 1) n).take (s.work.capl.toNat - s.work.idx)) := by
      split
      · next h =>
        obtain ⟨c, hc⟩ : ∃ c, s.work.capl.toNat - s.work.idx = c + 1 := ⟨s.work.capl.toNat - s.work.idx - 1, by omega⟩
        rw [hc, List.take_succ_cons, Memory.writeAll]
        congr 2; omega
      · next h =>
        rw [show s.work.capl.toNat - s.work.idx = 0 by omega, List.take_zero,
          show s.work.capl.toNat - (s.work.idx + 1) = 0 by omega, List.take_zero]
        rfl
    simp only [Nat.zero_add, Nat.add_zero] at h4 ⊢
    rw [h4, BitVec.add_assoc, Nat.add_assoc, Nat.add_comm 1 n]

/-- R158. -/
theorem rrData_eq (s : State) :
    rrData s =
      { reads s s.work.dlen.toNat with
        seq := .rrTail
        path := s.path ++ [.rrTail]
        rxbuf := Memory.writeAll s.rxbuf 0 ((s.answers 0 s.work.dlen.toNat).take s.work.capl.toNat)
        work := { s.work with
          acc := s.work.acc + sum8 (s.answers 0 s.work.dlen.toNat), idx := s.work.dlen.toNat } } := by
  rw [rrData, dataLoop_eq]
  simp only [setSeq, Nat.sub_zero, Nat.zero_add]
  rfl

/-- R160. -/
theorem rrTail_eq (s : State) :
    rrTail s =
      (let x := s.answer 0
       let was : State := busDeselect { reads s 2 with work := { s.work with rdcs := x, rpost := s.answer 1 } }
       if x + s.work.acc == 0 then succeed (reportedLen s) was
       else raise .corruption (.checksum x (-s.work.acc)) was) := by
  simp only [rrTail, add8_eq, neg8_eq]
  rw [busRead_first s]
  simp only [busRead_reads]
  rfl

end Sys2Proof.Machine.Laws
end

