-- ==== Sys2Proof/Laws/Sequencer.lean ====
section
/-! SUPPORT. Running the sequencer: what `run` does on a busy and on an idle machine, the ready loops as a whole, the
ACK check. -/

namespace Sys2Proof.Machine.Laws

open Codec Codec.Laws

theorem run_idle {s : State} (h : s.busy = false) (n : Nat) : run n s = s := by cases n <;> simp [run, h]

theorem run_busy {s : State} (h : s.busy = true) (n : Nat) : run (n + 1) s = run n (tick s) := by simp [run, h]

/-- Once the machine is idle, more moves change nothing. -/
theorem run_more {n : Nat} {s : State} (h : (run n s).busy = false) (m : Nat) : run (n + m) s = run n s := by
  induction n generalizing s with
  | zero => rw [Nat.zero_add]; exact run_idle h m
  | succ n ih =>
    cases hb : s.busy with
    | false => rw [run_idle hb, run_idle hb]
    | true =>
      rw [show n + 1 + m = (n + m) + 1 by omega, run_busy hb, run_busy hb]
      rw [run_busy hb] at h
      exact ih h

theorem run_add (n m : Nat) (s : State) : run (n + m) s = run m (run n s) := by
  induction n generalizing s with
  | zero => rw [Nat.zero_add]; rfl
  | succ n ih =>
    cases hb : s.busy with
    | false => rw [run_idle hb, run_idle hb, run_idle hb]
    | true => rw [show n + 1 + m = (n + m) + 1 by omega, run_busy hb, run_busy hb, ih]

/-- The sequencer stands in a ready loop. -/
def inPoll : Seq → Bool
  | .wrPoll | .awaitReady1 | .awaitReady2 => true
  | .idle | .sent | .ackCheck | .done | .failed | .wkHold | .saSend => false
  | .rrScan | .rrLen | .rrXlen | .rrHdr | .rrData | .rrTail => false

/-- How a ready loop is left by a ready byte. -/
def onReady : Seq → State → State
  | .awaitReady1 => setSeq .ackCheck
  | _ => succeed 0

theorem tick_poll {s : State} (h : inPoll s.seq = true) : tick s = poll (onReady s.seq) (pollTimeout s.seq) s := by
  cases hq : s.seq <;> simp [hq, inPoll] at h <;> simp only [tick, hq, wrPoll, awaitReady1, awaitReady2, onReady]

/-- The state after `k` status transfers of a ready loop. -/
def polled (s : State) (k : Nat) : State :=
  { s.skip k with
    sel := if k = 0 then s.sel else false
    work := { s.work with cnt := s.work.cnt + k }
    trace := s.trace ++ pollEvents s.cfg (s.answers 0 k) }

@[simp] theorem polled_zero (s : State) : polled s 0 = s := by simp [polled, pollEvents]

theorem pollEvents_append (cfg : Config) (xs ys : List Byte) :
    pollEvents cfg (xs ++ ys) = pollEvents cfg xs ++ pollEvents cfg ys := by simp [pollEvents]

theorem polled_answer (s : State) (k j : Nat) : (polled s k).answer j = s.answer (k + j) := answer_skip s k j

theorem statusRead_polled (s : State) (k : Nat) :
    statusRead (polled s k) =
      (s.answer k, { polled s (k + 1) with work := (polled s k).work }) := by
  rw [statusRead_eq, polled_answer, Nat.add_zero]
  simp only [polled, State.skip, List.drop_drop, drop_draws, Nat.succ_ne_zero, if_false, answers_snoc, pollEvents_append,
    List.append_assoc, Nat.zero_add]
  simp [pollEvents]

/-- R124: one more poll of a loop that has polled `k` times. -/
theorem poll_polled (f g : State → State) (s : State) (k : Nat) (hk : s.work.cnt + k < s.cfg.readyPollBudget) :
    poll f g (polled s k) =
      if ready (s.answer k) then f (polled s (k + 1))
      else if s.work.cnt + (k + 1) < s.cfg.readyPollBudget then polled s (k + 1)
      else g (polled s (k + 1)) := by
  have h1 : (polled s k).work.cnt < (polled s k).cfg.readyPollBudget := hk
  have h2 : setCnt ((polled s k).work.cnt + 1) { polled s (k + 1) with work := (polled s k).work } =
      polled s (k + 1) := by
    simp [setCnt, polled, Nat.add_assoc]
  rw [poll, if_pos h1, statusRead_polled]
  simp only [h2]
  rfl

/-- `k` polls that are not ready, with budget left. -/
theorem run_polls {s : State} (hb : s.busy = true) (hq : inPoll s.seq = true) {k : Nat}
    (hr : ∀ j < k, ready (s.answer j) = false) (hk : s.work.cnt + k < s.cfg.readyPollBudget) (n : Nat) :
    run (n + k) s = run n (polled s k) := by
  induction k generalizing n with
  | zero => simp
  | succ k ih =>
    rw [show n + (k + 1) = (n + 1) + k by omega, ih (fun j hj => hr j (by omega)) (by omega), run_busy (s := polled s k) hb,
      tick_poll (s := polled s k) hq, poll_polled _ _ s k (by omega), if_neg (by simp [hr k (by omega)]), if_pos hk]

/-- R124: the loop sees its first ready byte at the `k`-th poll from here. -/
theorem run_poll_ready {s : State} (hb : s.busy = true) (hq : inPoll s.seq = true) {k : Nat}
    (hr : ∀ j < k, ready (s.answer j) = false) (hy : ready (s.answer k) = true)
    (hk : s.work.cnt + k < s.cfg.readyPollBudget) (n : Nat) :
    run (n + (k + 1)) s = run n (onReady s.seq (polled s (k + 1))) := by
  rw [show n + (k + 1) = (n + 1) + k by omega, run_polls hb hq hr hk, run_busy (s := polled s k) hb,
    tick_poll (s := polled s k) hq,
    poll_polled _ _ s k hk, if_pos hy]
  rfl

/-- R124: no byte the budget allows is ready: Timeout, after exactly that many polls. -/
theorem run_poll_exhausted {s : State} (hb : s.busy = true) (hq : inPoll s.seq = true) (hc : s.work.cnt = 0)
    (hr : ∀ j < s.cfg.readyPollBudget, ready (s.answer j) = false) (n : Nat) :
    run (n + max 1 s.cfg.readyPollBudget) s = run n (pollTimeout s.seq (polled s s.cfg.readyPollBudget)) := by
  cases hB : s.cfg.readyPollBudget with
  | zero =>
    rw [show n + max 1 0 = n + 1 from rfl, run_busy hb, tick_poll hq, poll, if_neg (by omega), polled_zero]
  | succ k =>
    rw [show n + max 1 (k + 1) = (n + 1) + k by omega,
      run_polls hb hq (fun j hj => hr j (by omega)) (by omega), run_busy (s := polled s k) hb,
      tick_poll (s := polled s k) hq,
      poll_polled _ _ s k (by omega), if_neg (by simp [hr k (by omega)]), if_neg (by omega)]
    rfl

/-- The six captured bytes, when the answers are known. -/
theorem ackOf_eq {x : State} {st : Nat} {a : AckBytes} (h : x.answers st 6 = a.toList) : ackOf x st = a := by
  rw [← ackOf_toList] at h
  obtain ⟨⟩ := a
  simpa [AckBytes.toList, ackOf] using h

/-- R132: the ACK check, both outcomes. -/
theorem tick_ack {x : State} (h : x.seq = .ackCheck) : tick x =
    let was : State := { x.skip 6 with
      sel := false
      trace := x.trace ++ transferEvents x.cfg x.cfg.pfxRead ((x.answers 0 6).map Event.rd)
      work := { x.work with ackb := ackOf x 0, idx := 6 } }
    if x.answers 0 6 = Config.ackSeq then
      { was with seq := .awaitReady2, path := x.path ++ [.awaitReady2], work := { was.work with cnt := 0 } }
    else
      { was with
        seq := .idle, path := x.path ++ [.failed, .idle], busy := false, resKind := .protocolMismatch, resLen := 0
        diag := x.diag.map fun log => log ++ [⟨.protocolMismatch, .ackBytes (ackOf x 0)⟩] } := by
  simp only [tick, h, ackCheck, transfer, busDeselect, readAck_eq, openTransfer_eq, isAck]
  have e2 : (ackOf x 0).toList = x.answers 0 6 := ackOf_toList x 0
  have e4 : ∀ t, State.answers ({ x with sel := true, trace := t } : State) 0 6 = x.answers 0 6 := fun _ => rfl
  have e5 : ∀ t, ackOf ({ x with sel := true, trace := t } : State) 0 = ackOf x 0 := fun _ => rfl
  obtain ⟨cfg, seq, path, busy, sel, work, args, rk, rl, tx, rx, tr, di, sc, dr, ho⟩ := x
  simp only at h
  subst h
  simp only [e4, e5, e2, beq_iff_eq]
  split
  · simp [enterPoll, setCnt, setSeq, transferEvents, State.skip]
  · simp [raise_eq, transferEvents, State.skip]

end Sys2Proof.Machine.Laws
end

