-- ==== Sys2Proof/Laws/Operation.lean ====
section
/-! SUPPORT. What every move of an operation keeps, and that every operation ends (R13). -/

namespace Sys2Proof.Machine.Laws

open Codec Codec.Laws

/-- What one move keeps, whatever the state: the configuration, the host's list, the host's registers and TXBUF, the latched
operands; and TRACE only grows. -/
structure Keeps (s t : State) : Prop where
  cfg : t.cfg = s.cfg
  host : t.host = s.host
  args : t.args = s.args
  txbuf : t.txbuf = s.txbuf
  latch : t.work.opl = s.work.opl ∧ t.work.cmd = s.work.cmd ∧ t.work.txn = s.work.txn ∧ t.work.exp = s.work.exp
    ∧ t.work.capl = s.work.capl
  trace : ∃ es, t.trace = s.trace ++ es

theorem Keeps.refl (s : State) : Keeps s s := ⟨rfl, rfl, rfl, rfl, ⟨rfl, rfl, rfl, rfl, rfl⟩, [], by simp⟩

theorem Keeps.trans {s t u : State} (h1 : Keeps s t) (h2 : Keeps t u) : Keeps s u := by
  obtain ⟨e1, h1t⟩ := h1.trace
  obtain ⟨e2, h2t⟩ := h2.trace
  obtain ⟨a, b, c, d, e⟩ := h1.latch
  obtain ⟨a', b', c', d', e'⟩ := h2.latch
  exact ⟨h2.cfg.trans h1.cfg, h2.host.trans h1.host, h2.args.trans h1.args, h2.txbuf.trans h1.txbuf,
    ⟨a'.trans a, b'.trans b, c'.trans c, d'.trans d, e'.trans e⟩, e1 ++ e2, by rw [h2t, h1t, List.append_assoc]⟩

theorem keeps_setSeq (q : Seq) (s : State) : Keeps s (setSeq q s) :=
  ⟨rfl, rfl, rfl, rfl, ⟨rfl, rfl, rfl, rfl, rfl⟩, [], by simp [setSeq]⟩

theorem keeps_succeed (n : U16) (s : State) : Keeps s (succeed n s) :=
  ⟨rfl, rfl, rfl, rfl, ⟨rfl, rfl, rfl, rfl, rfl⟩, [], by simp [succeed, setSeq]⟩

theorem keeps_raise (k : Kind) (x : DiagInfo) (s : State) : Keeps s (raise k x s) := by
  rw [raise_eq]
  refine ⟨rfl, rfl, rfl, rfl, ⟨rfl, rfl, rfl, rfl, rfl⟩, if s.sel then [.des] else [], ?_⟩
  cases s.sel <;> simp

theorem keeps_poll {f g : State → State} (hf : ∀ s, Keeps s (f s)) (hg : ∀ s, Keeps s (g s)) (s : State) :
    Keeps s (poll f g s) := by
  simp only [poll, statusRead_eq, setCnt]
  have h : ∀ t : State, t = { s.skip 1 with
      sel := false, trace := s.trace ++ transferEvents s.cfg s.cfg.pfxStatus [.rd (s.answer 0)]
      work := { s.work with cnt := s.work.cnt + 1 } } → Keeps s t := by
    rintro t rfl
    exact ⟨rfl, rfl, rfl, rfl, ⟨rfl, rfl, rfl, rfl, rfl⟩, _, rfl⟩
  split
  · split
    · exact (h _ rfl).trans (hf _)
    · split
      · exact h _ rfl
      · exact (h _ rfl).trans (hg _)
  · exact hg s

theorem keeps_scanLoop (n : Nat) (s : State) : Keeps s (scanLoop n s).2 := by
  induction n generalizing s with
  | zero => exact Keeps.refl s
  | succ n ih =>
    simp only [scanLoop]
    rw [busRead_first s]
    split
    · exact ⟨rfl, rfl, rfl, rfl, ⟨rfl, rfl, rfl, rfl, rfl⟩, _, rfl⟩
    · refine Keeps.trans ?_ (ih _)
      exact ⟨rfl, rfl, rfl, rfl, ⟨rfl, rfl, rfl, rfl, rfl⟩, _, rfl⟩

theorem keeps_dispatch (s : State) : Keeps s (dispatch s) := by
  have h : ∀ q, Keeps s (enterPoll q s) := fun q =>
    ⟨rfl, rfl, rfl, rfl, ⟨rfl, rfl, rfl, rfl, rfl⟩, [], by simp [enterPoll, setCnt, setSeq]⟩
  have h2 : Keeps s (refuse s) := ⟨rfl, rfl, rfl, rfl, ⟨rfl, rfl, rfl, rfl, rfl⟩, [], by simp [refuse]⟩
  have h3 : Keeps s (rrEntry s) := by rw [rrEntry_eq]; exact ⟨rfl, rfl, rfl, rfl, ⟨rfl, rfl, rfl, rfl, rfl⟩, _, rfl⟩
  unfold dispatch
  repeat' split
  all_goals first | exact keeps_setSeq _ _ | exact h _ | exact h2 | exact h3

/-- One move keeps all that. -/
theorem keeps_tick (s : State) : Keeps s (tick s) := by
  unfold tick
  split
  · exact keeps_dispatch s
  · simp only [wkHold, succeed_eq]
    exact ⟨rfl, rfl, rfl, rfl, ⟨rfl, rfl, rfl, rfl, rfl⟩, [.sel, .dly s.cfg.wakeUs, .des], by
      simp [busDeselect, delay, busSelect]⟩
  · exact keeps_poll (keeps_succeed 0) (keeps_raise _ _) s
  · rw [sent, sendFrame_eq]; exact ⟨rfl, rfl, rfl, rfl, ⟨rfl, rfl, rfl, rfl, rfl⟩, _, rfl⟩
  · exact keeps_poll (keeps_setSeq _) (keeps_raise _ _) s
  · simp only [ackCheck]
    have h : Keeps s (transfer s.cfg.pfxRead readAck s) := by
      simp only [transfer, busDeselect, readAck_eq, openTransfer_eq]
      exact ⟨rfl, rfl, rfl, rfl, ⟨rfl, rfl, rfl, rfl, rfl⟩, _, by simp only [List.append_assoc]; rfl⟩
    split
    · exact h.trans ⟨rfl, rfl, rfl, rfl, ⟨rfl, rfl, rfl, rfl, rfl⟩, [], by simp [enterPoll, setCnt, setSeq]⟩
    · exact h.trans (keeps_raise _ _ _)
  · exact keeps_poll (keeps_succeed 0) (keeps_raise _ _) s
  · simp only [saSend]
    refine Keeps.trans ?_ (keeps_succeed _ _)
    simp only [transfer, busDeselect, ackFrameBody, writeBytes_eq, openTransfer_eq]
    exact ⟨rfl, rfl, rfl, rfl, ⟨rfl, rfl, rfl, rfl, rfl⟩, _, by simp only [List.append_assoc]; rfl⟩
  · simp only [rrScan]
    have h := keeps_scanLoop s.cfg.scanBudget { s with work := { s.work with cnt := 0, pz := false } }
    have h0 : Keeps s { s with work := { s.work with cnt := 0, pz := false } } :=
      ⟨rfl, rfl, rfl, rfl, ⟨rfl, rfl, rfl, rfl, rfl⟩, [], by simp⟩
    split
    · exact (h0.trans h).trans (keeps_setSeq _ _)
    · exact (h0.trans h).trans (keeps_raise _ _ _)
  · rw [rrLen_eq]
    simp only
    repeat' split
    · refine Keeps.trans ?_ (keeps_setSeq _ _)
      exact ⟨rfl, rfl, rfl, rfl, ⟨rfl, rfl, rfl, rfl, rfl⟩, _, rfl⟩
    · refine Keeps.trans ?_ (keeps_setSeq _ _)
      exact ⟨rfl, rfl, rfl, rfl, ⟨rfl, rfl, rfl, rfl, rfl⟩, _, rfl⟩
    · refine Keeps.trans ?_ (keeps_raise _ _ _)
      exact ⟨rfl, rfl, rfl, rfl, ⟨rfl, rfl, rfl, rfl, rfl⟩, _, rfl⟩
  · rw [rrXlen_eq]
    simp only
    split
    · refine Keeps.trans ?_ (keeps_setSeq _ _)
      exact ⟨rfl, rfl, rfl, rfl, ⟨rfl, rfl, rfl, rfl, rfl⟩, _, rfl⟩
    · refine Keeps.trans ?_ (keeps_raise _ _ _)
      exact ⟨rfl, rfl, rfl, rfl, ⟨rfl, rfl, rfl, rfl, rfl⟩, _, rfl⟩
  · rw [rrHdr_eq]
    simp only
    split
    · refine Keeps.trans ?_ (keeps_setSeq _ _)
      exact ⟨rfl, rfl, rfl, rfl, ⟨rfl, rfl, rfl, rfl, rfl⟩, _, rfl⟩
    · refine Keeps.trans ?_ (keeps_raise _ _ _)
      exact ⟨rfl, rfl, rfl, rfl, ⟨rfl, rfl, rfl, rfl, rfl⟩, _, rfl⟩
  · rw [rrData_eq]; exact ⟨rfl, rfl, rfl, rfl, ⟨rfl, rfl, rfl, rfl, rfl⟩, _, rfl⟩
  · rw [rrTail_eq]
    have h : Keeps s (busDeselect { reads s 2 with work := { s.work with rdcs := s.answer 0, rpost := s.answer 1 } }) :=
      ⟨rfl, rfl, rfl, rfl, ⟨rfl, rfl, rfl, rfl, rfl⟩, _, by simp only [busDeselect, reads, List.append_assoc]; rfl⟩
    simp only
    split
    · exact h.trans (keeps_succeed _ _)
    · exact h.trans (keeps_raise _ _ _)
  · exact ⟨rfl, rfl, rfl, rfl, ⟨rfl, rfl, rfl, rfl, rfl⟩, [], by simp [leave, setSeq]⟩
  · exact ⟨rfl, rfl, rfl, rfl, ⟨rfl, rfl, rfl, rfl, rfl⟩, [], by simp [leave, setSeq]⟩

theorem keeps_run (n : Nat) (s : State) : Keeps s (run n s) := by
  induction n generalizing s with
  | zero => exact Keeps.refl s
  | succ n ih =>
    rw [run]
    split
    · exact (keeps_tick s).trans (ih _)
    · exact Keeps.refl s

/-- R13: how many more moves the running operation makes at most. -/
def rank (s : State) : Nat :=
  let loop := max 1 (s.cfg.readyPollBudget - s.work.cnt)
  let whole := max 1 s.cfg.readyPollBudget
  match s.seq with
  | .done | .failed | .wkHold | .saSend | .rrTail => 1
  | .rrData => 2
  | .rrHdr => 3
  | .rrXlen => 4
  | .rrLen => 5
  | .rrScan => 6
  | .wrPoll | .awaitReady2 => loop
  | .ackCheck => 1 + whole
  | .awaitReady1 => loop + 1 + whole
  | .sent => 1 + whole + 1 + whole
  | .idle => 7 + whole + 1 + whole

theorem rank_pos (s : State) : 0 < rank s := by
  unfold rank; simp only; split <;> omega

theorem rank_poll {f g : State → State} {s : State} {n : Nat}
    (hf : ∀ s' : State, s'.cfg = s.cfg → (f s').busy = false ∨ rank (f s') ≤ n) (hg : ∀ s', (g s').busy = false)
    (hs : ∀ s' : State, s'.cfg = s.cfg → s'.seq = s.seq → s'.work.cnt = s.work.cnt + 1 →
      s.work.cnt + 1 < s.cfg.readyPollBudget → rank s' ≤ n) :
    (poll f g s).busy = false ∨ rank (poll f g s) ≤ n := by
  simp only [poll, statusRead_eq, setCnt]
  split
  · split
    · exact hf _ rfl
    · split
      · exact .inr (hs _ rfl rfl rfl ‹_›)
      · exact .inl (hg _)
  · exact .inl (hg _)

theorem raise_busy (k : Kind) (x : DiagInfo) (s : State) : (raise k x s).busy = false := by rw [raise_eq]

/-- R13: every move ends the operation or brings it nearer its end. -/
theorem rank_tick (s : State) : (tick s).busy = false ∨ rank (tick s) ≤ rank s - 1 := by
  unfold tick
  split
  next h =>
    have hr : rank s = 7 + max 1 s.cfg.readyPollBudget + 1 + max 1 s.cfg.readyPollBudget := by simp [rank, h]
    rw [hr]
    unfold dispatch
    repeat' split
    all_goals first
      | exact .inl rfl
      | (right; simp [rank, setSeq, enterPoll, setCnt, rrEntry_eq]; try omega)
  next h => exact .inl rfl
  next h =>
    refine rank_poll (fun _ _ => .inl rfl) (fun _ => raise_busy _ _ _) (fun s' h1 h2 h3 h4 => ?_)
    simp only [rank, h1, h2, h3, h]; omega
  next h => right; rw [sent, sendFrame_eq]; simp [rank, h]
  next h =>
    refine rank_poll (fun _ h1 => .inr ?_) (fun _ => raise_busy _ _ _) (fun s' h1 h2 h3 h4 => ?_)
    · simp [rank, setSeq, h1, h]
    · simp only [rank, h1, h2, h3, h]; omega
  next h =>
    simp only [ackCheck]
    split
    · right; simp only [transfer, busDeselect, readAck_eq, openTransfer_eq, enterPoll, setCnt, setSeq, rank, h]
      simp
    · exact .inl (raise_busy _ _ _)
  next h =>
    refine rank_poll (fun _ _ => .inl rfl) (fun _ => raise_busy _ _ _) (fun s' h1 h2 h3 h4 => ?_)
    simp only [rank, h1, h2, h3, h]; omega
  next h => exact .inl rfl
  next h =>
    simp only [rrScan]
    split
    · right; simp [rank, setSeq, h]
    · exact .inl (raise_busy _ _ _)
  next h =>
    rw [rrLen_eq]; simp only
    repeat' split
    · right; simp [rank, setSeq, h]
    · right; simp [rank, setSeq, h]
    · exact .inl (raise_busy _ _ _)
  next h =>
    rw [rrXlen_eq]; simp only
    split
    · right; simp [rank, setSeq, h]
    · exact .inl (raise_busy _ _ _)
  next h =>
    rw [rrHdr_eq]; simp only
    split
    · right; simp [rank, setSeq, h]
    · exact .inl (raise_busy _ _ _)
  next h => right; rw [rrData_eq]; simp [rank, h]
  next h =>
    rw [rrTail_eq]; simp only
    split
    · exact .inl rfl
    · exact .inl (raise_busy _ _ _)
  next h => exact .inl rfl
  next h => exact .inl rfl

/-- R13: every operation ends. -/
theorem run_ends {n : Nat} {s : State} (h : rank s ≤ n) : (run n s).busy = false := by
  induction n generalizing s with
  | zero => have := rank_pos s; omega
  | succ n ih =>
    cases hb : s.busy with
    | false => rw [run_idle hb]; exact hb
    | true =>
      rw [run_busy hb]
      rcases rank_tick s with h1 | h1
      · rw [run_idle h1]; exact h1
      · exact ih (by omega)

/-- R13: `opFuel` moves are enough for any operation. -/
theorem rank_le_opFuel (s : State) : rank s ≤ opFuel s := by
  unfold rank opFuel; simp only; split <;> omega

theorem opFuel_of_cfg {s t : State} (h : t.cfg = s.cfg) : opFuel t = opFuel s := by rw [opFuel, opFuel, h]

/-- Two runs that both end come to the same. -/
theorem run_unique {n m : Nat} {s : State} (h1 : (run n s).busy = false) (h2 : (run m s).busy = false) :
    run n s = run m s := by
  rw [← run_more h1 m, ← run_more h2 n, Nat.add_comm]

/-- R31, R61: a request of an idle machine is the run of its moves to the end, however many moves that takes. -/
theorem request_eq {o : BitVec 3} {s t : State} (hb : s.busy = false) (n : Nat)
    (h : run n (dispatch (accept o s)) = t) (ht : t.busy = false) : request o s = t := by
  have h2 : (run (opFuel s) (dispatch (accept o s))).busy = false := by
    rw [← opFuel_of_cfg (s := s) (t := dispatch (accept o s)) (keeps_dispatch _).cfg]
    exact run_ends (rank_le_opFuel _)
  simp only [request, hb, Bool.false_eq_true, if_false]
  rw [opFuel_of_cfg (s := s) (t := dispatch (accept o s)) (keeps_dispatch _).cfg, ← h]
  exact run_unique h2 (by rw [h]; exact ht)

/-- A request ends. -/
theorem request_ends {o : BitVec 3} {s : State} (hb : s.busy = false) : (request o s).busy = false := by
  rw [request_eq hb _ rfl (run_ends (rank_le_opFuel _))]
  exact run_ends (rank_le_opFuel _)

end Sys2Proof.Machine.Laws
end

