-- ==== Sys2Proof/Laws/Reading.lean ====
section
/-! SUPPORT. READRSP in flight: every state it passes through is `rd x n q p w m`, the machine `x` of its entry after
`n` reads, and each move is one equation between such states. -/

namespace Sys2Proof.Machine.Laws

open Codec Codec.Laws

/-- `x` after `n` reads, at sequencer state `q`, with `p` added to the path, working registers `w` and RXBUF `m`. -/
def rd (x : State) (n : Nat) (q : Seq) (p : List Seq) (w : Work) (m : Memory) : State :=
  { reads x n with seq := q, path := x.path ++ p, work := w, rxbuf := m }

variable (x : State) (n : Nat) (q : Seq) (p : List Seq) (w : Work) (m : Memory)

theorem rd_answer (j : Nat) : (rd x n q p w m).answer j = x.answer (n + j) := answer_skip x n j
theorem rd_answers (j k : Nat) : (rd x n q p w m).answers j k = x.answers (n + j) k := answers_skip x n j k

theorem reads_rd (k : Nat) : reads (rd x n q p w m) k = rd x (n + k) q p w m := by
  simp only [reads, rd_answers]
  simp only [rd, reads, State.skip, List.drop_drop, drop_draws, answers_append, List.map_append, List.append_assoc,
    Nat.add_zero, Nat.zero_add]

/-- R196: READRSP's failure exit after `n` reads. -/
def failAt (x : State) (n : Nat) (p : List Seq) (w : Work) (m : Memory) (k : Kind) (i : DiagInfo) : State :=
  { x.skip n with
      seq := .idle
      path := x.path ++ p ++ [.failed, .idle]
      sel := false
      busy := false
      work := w
      resKind := k
      resLen := 0
      rxbuf := m
      trace := x.trace ++ (x.answers 0 n).map Event.rd ++ if x.sel then [.des] else []
      diag := x.diag.map fun log => log ++ [⟨k, i⟩] }

theorem raise_rd (k : Kind) (i : DiagInfo) : raise k i (rd x n q p w m) = failAt x n p w m k i := by
  rw [raise_eq]
  cases h : x.sel <;> simp [failAt, rd, reads, h, State.skip]

/-- R152: a start code behind noise. -/
theorem tick_scan {x : State} {noise : List Byte} (hq : x.seq = .rrScan) (hs : splitStart noise = none)
    (hn : noise.length + 2 ≤ x.cfg.scanBudget)
    (ha : x.answers 0 (noise.length + 2) = noise ++ [Config.start1, Config.start2]) :
    tick x = rd x (noise.length + 2) .rrLen [.rrLen] { x.work with cnt := noise.length + 2, pz := false } x.rxbuf := by
  have h0 : tick x = rrScan x := by simp only [tick, hq]
  rw [h0, rrScan]
  rw [scanLoop_found hn (s := { x with work := { x.work with cnt := 0, pz := false } })
    (by simpa [scanView] using hs) ha]
  simp [setSeq, rd, reads, State.skip, State.answers, State.answer]

/-- R153. -/
theorem tick_len :
    tick (rd x n .rrLen p w m) =
      (let l0 := x.answer n
       let l1 := x.answer (n+1)
       let w' := { w with l0 := l0, l1 := l1 }
       if isExtMark l0 l1 then rd x (n+2) .rrXlen (p ++ [.rrXlen]) w' m
       else if lenOk l0 l1 then rd x (n+2) .rrHdr (p ++ [.rrHdr]) { w' with len := l0.setWidth 16 } m
       else failAt x (n+2) p w' m .corruption (.lengthBytes l0 l1)) := by
  show rrLen (rd x n .rrLen p w m) = _
  rw [rrLen_eq]
  simp only [rd_answer, reads_rd, Nat.add_zero]
  split
  · simp [setSeq, rd]
  · split
    · simp [setSeq, rd]
    · rw [← raise_rd (q := .rrLen)]; rfl

/-- R154. -/
theorem tick_xlen :
    tick (rd x n .rrXlen p w m) =
      (let a := x.answer n
       let b := x.answer (n+1)
       let c := x.answer (n+2)
       let w' := { w with xm := a, xl := b, xc := c }
       if xlenOk a b c then rd x (n+3) .rrHdr (p ++ [.rrHdr]) { w' with len := xlen a b } m
       else failAt x (n+3) p w' m .corruption (.extLengthBytes a b c)) := by
  show rrXlen (rd x n .rrXlen p w m) = _
  rw [rrXlen_eq]
  simp only [rd_answer, reads_rd, Nat.add_zero]
  split
  · simp [setSeq, rd]
  · rw [← raise_rd (q := .rrXlen)]; rfl

/-- R156. -/
theorem tick_hdr :
    tick (rd x n .rrHdr p w m) =
      (let a := x.answer n
       let b := x.answer (n+1)
       let w' := { w with hd := a, hi := b }
       if a == x.cfg.tfiChipToHost && b == w.exp && decide (2 ≤ w.len.toNat) then
         rd x (n+2) .rrData (p ++ [.rrData]) { w' with dlen := w.len - 2, acc := a + b } m
       else failAt x (n+2) p w' m .corruption (.header a b w.len)) := by
  show rrHdr (rd x n .rrHdr p w m) = _
  rw [rrHdr_eq]
  simp only [rd_answer, reads_rd, Nat.add_zero, headerOk]
  show (if _ then _ else _) = _
  have : (rd x n .rrHdr p w m).cfg = x.cfg := rfl
  have : (rd x n .rrHdr p w m).work = w := rfl
  simp only [*]
  split
  · simp [setSeq, rd]
  · rw [← raise_rd (q := .rrHdr)]; rfl

/-- R158. -/
theorem tick_data :
    tick (rd x n .rrData p w m) = rd x (n + w.dlen.toNat) .rrTail (p ++ [.rrTail])
      { w with acc := w.acc + sum8 (x.answers n w.dlen.toNat), idx := w.dlen.toNat }
      (Memory.writeAll m 0 ((x.answers n w.dlen.toNat).take w.capl.toNat)) := by
  show rrData (rd x n .rrData p w m) = _
  rw [rrData_eq]
  have h : (rd x n .rrData p w m).work = w := rfl
  simp only [h, reads_rd, rd_answers, Nat.add_zero]
  simp [rd]

/-- R160, R195: READRSP's success exit after `n` reads. -/
def okAt (x : State) (n : Nat) (p : List Seq) (w : Work) (m : Memory) (len : U16) : State :=
  { x.skip n with
      seq := .idle
      path := x.path ++ p ++ [.done, .idle]
      sel := false
      busy := false
      work := w
      resKind := .ok
      resLen := len
      rxbuf := m
      trace := x.trace ++ (x.answers 0 n).map Event.rd ++ [.des] }

/-- R160. -/
theorem tick_tail :
    tick (rd x n .rrTail p w m) =
      (let w' := { w with rdcs := x.answer n, rpost := x.answer (n+1) }
       if x.answer n + w.acc == 0 then okAt x (n+2) p w' m (if w.dlen.toNat ≤ w.capl.toNat then w.dlen else w.capl)
       else { failAt x (n+2) p w' m .corruption (.checksum (x.answer n) (-w.acc)) with
         trace := x.trace ++ (x.answers 0 (n+2)).map Event.rd ++ [.des] }) := by
  show rrTail (rd x n .rrTail p w m) = _
  rw [rrTail_eq]
  have h : (rd x n .rrTail p w m).work = w := rfl
  simp only [h, reads_rd, rd_answer, Nat.add_zero, reportedLen]
  split
  · simp [succeed_eq, rd, busDeselect, okAt, reads, State.skip]
  · simp [raise_eq, rd, busDeselect, failAt, reads, State.skip]

theorem busy_rd {x : State} {n : Nat} {q : Seq} {p : List Seq} {w : Work} {m : Memory}
    (h : x.busy = true) : (rd x n q p w m).busy = true := h

/-- R102: the reader's checksum test, written over the accumulator. -/
theorem body_acc {t r : Byte} {d : List Byte} {x : Byte} : (bodyOk t r d x) = (x + (t + r + sum8 d) == 0) := by
  simp only [bodyOk, sum8_cons, sum8_append, sum8_nil]
  congr 1
  have : x + 0 = x := by simp
  rw [this]; ac_rfl

/-- R156 to R160: from RR_HDR to the verdict, when direction, id and length are right. -/
theorem run_from_hdr {x : State} {n : Nat} {p : List Seq} {w : Work} {m : Memory} {t r : Byte} {d : List Byte}
    {c po : Byte} (hb : x.busy = true)
    (ha : x.answers n (d.length + 4) = t :: r :: (d ++ [c, po])) (hlen : w.len.toNat = d.length + 2)
    (ht : t = x.cfg.tfiChipToHost) (hr : r = w.exp) (k : Nat) :
    run (k + 3) (rd x n .rrHdr p w m) = run k
      (let w' : Work := { w with
         hd := t, hi := r, dlen := BitVec.ofNat 16 d.length, acc := sum8 (t :: r :: d), idx := d.length, rdcs := c
         rpost := po }
       let m' := Memory.writeAll m 0 (d.take w.capl.toNat)
       if bodyOk t r d c then
         okAt x (n + d.length + 4) (p ++ [.rrData, .rrTail]) w' m' (BitVec.ofNat 16 (min d.length w.capl.toNat))
       else { failAt x (n + d.length + 4) (p ++ [.rrData, .rrTail]) w' m' .corruption (.checksum c (dcs t r d)) with
         trace := x.trace ++ (x.answers 0 (n + d.length + 4)).map Event.rd ++ [.des] }) := by
  rw [show d.length + 4 = ((d.length + 2) + 1) + 1 by omega, answers_succ, answers_succ, answers_append] at ha
  simp only [List.cons.injEq] at ha
  obtain ⟨h1, h2, h3⟩ := ha
  obtain ⟨h3, h4⟩ := List.append_inj h3 (by simp)
  rw [answers_succ, answers_succ] at h4
  simp only [List.cons.injEq] at h4
  obtain ⟨h4, h5, -⟩ := h4
  replace h4 : x.answer (n + 2 + d.length) = c := by rw [← h4]
  replace h5 : x.answer (n + 2 + d.length + 1) = po := by rw [← h5]
  have hd : (w.len - 2).toNat = d.length := by rw [BitVec.toNat_sub]; simp; omega
  have hd2 : w.len - 2 = BitVec.ofNat 16 d.length := by
    apply BitVec.eq_of_toNat_eq; rw [hd]; simp; omega
  rw [run_busy (busy_rd hb), tick_hdr]
  simp only [h1, h2]
  rw [if_pos (by simp [ht, hr]; omega)]
  rw [run_busy (busy_rd hb), tick_data, run_busy (busy_rd hb)]
  simp only [hd] 
  rw [show n + 2 = n+1+1 from rfl, h3, show n + 1 + 1 = n + 2 from rfl, tick_tail]
  simp only [h4, h5, body_acc, hd2]
  congr 1
  rw [show n + 2 + d.length + 2 = n + d.length + 4 by omega]
  have hl : (if d.length ≤ w.capl.toNat then BitVec.ofNat 16 d.length else w.capl) =
      BitVec.ofNat 16 (min d.length w.capl.toNat) := by
      split
      · rw [Nat.min_eq_left ‹_›]
      · rw [Nat.min_eq_right (by omega)]; simp
  have hd3 : (BitVec.ofNat 16 d.length).toNat = d.length := by rw [← hd2, hd]
  rw [hd3, hl]
  split
  · simp [sum8_cons, BitVec.add_assoc]
  · simp [sum8_cons, BitVec.add_assoc, dcs, neg8_eq]

end Sys2Proof.Machine.Laws
end

