-- ==== Sys2Proof/Laws/Frames.lean ====
section
/-! SUPPORT. READRSP in flight over whole fields of a frame: the scanner without a start code, the way from RR_SCAN to the verdict on
the length field in both length forms, the verdict on the header, and the whole of a frame with a good length and header. -/

namespace Sys2Proof.Machine.Laws

open Codec Codec.Laws

/-- What well-formedness says of a normal response frame. -/
theorem wf_rn {noise d : List Byte} {l k t r x p : Byte} (h : (Instr.rn noise l k t r d x p).WellFormed) :
    splitStart noise = none ∧ isExtMark l k = false ∧ d.length = l.toNat - 2 := by
  simp only [Instr.WellFormed, Instr.wellFormed, Bool.and_eq_true, Bool.not_eq_true', beq_iff_eq,
    Option.isNone_iff_eq_none] at h
  exact ⟨h.1.1, h.1.2, h.2⟩

/-- What well-formedness says of an extended response frame. -/
theorem wf_rx {noise d : List Byte} {m l k t r x p : Byte} (h : (Instr.rx noise m l k t r d x p).WellFormed) :
    splitStart noise = none ∧ d.length = (xlen m l).toNat - 2 := by
  simp only [Instr.WellFormed, Instr.wellFormed, Bool.and_eq_true, beq_iff_eq, Option.isNone_iff_eq_none] at h
  exact h

/-- Answers known as two lists in a row are known one by one. -/
theorem answers_split {x : State} {st : Nat} {a b : List Byte} (h : x.answers st (a ++ b).length = a ++ b) :
    x.answers st a.length = a ∧ x.answers (st + a.length) b.length = b := by
  rw [List.length_append, answers_append] at h
  exact List.append_inj h (by simp)

/-- R152: no start code within the budget. -/
theorem tick_no_start {x : State} (hq : x.seq = .rrScan) (h : splitStart (x.answers 0 x.cfg.scanBudget) = none) :
    tick x = failAt x x.cfg.scanBudget []
      { x.work with cnt := x.cfg.scanBudget, pz := pzAfter false (x.answers 0 x.cfg.scanBudget) } x.rxbuf .timeout
      (.loop .rrScan) := by
  have h0 : tick x = rrScan x := by simp only [tick, hq]
  rw [h0, rrScan, scanLoop_none (s := { x with work := { x.work with cnt := 0, pz := false } }) h]
  simp only [Bool.false_eq_true, if_false, raise_eq]
  cases hs : x.sel <;> simp [failAt, reads, State.skip, State.answers, State.answer, hs]

variable {x : State} {noise : List Byte} (hb : x.busy = true) (hq : x.seq = .rrScan) (hs : splitStart noise = none)
  (hn : noise.length + 2 ≤ x.cfg.scanBudget)

include hb hq hs hn

/-- R152, R153: from RR_SCAN to the verdict on a normal length field. -/
theorem run_len_rn {l k : Byte} (he : isExtMark l k = false)
    (ha : answersAre x 0 (noise ++ ([0x00, 0xFF] ++ [l, k]))) (j : Nat) :
    run (j + 2) x = run j
      (let w : Work := { x.work with cnt := noise.length + 2, pz := false, l0 := l, l1 := k }
       if lenOk l k then
         rd x (noise.length + 4) .rrHdr [.rrLen, .rrHdr] { w with len := l.setWidth 16 } x.rxbuf
       else failAt x (noise.length + 4) [.rrLen] w x.rxbuf .corruption (.lengthBytes l k)) := by
  rw [← List.append_assoc] at ha
  obtain ⟨a1, a2⟩ := answers_split ha
  rw [show (noise ++ [(0x00 : Byte), 0xFF]).length = noise.length + 2 by simp] at a1 a2
  simp only [List.length_cons, List.length_nil, Nat.zero_add, answers_succ, answers_zero, List.cons.injEq, and_true] at a2
  rw [run_busy hb, tick_scan hq hs hn a1, run_busy (busy_rd hb), tick_len]
  simp only [a2.1, a2.2, he, Bool.false_eq_true, if_false, List.cons_append, List.nil_append]

/-- R152 to R154: from RR_SCAN to the verdict on an extended length field. -/
theorem run_len_rx {m l k : Byte} (ha : answersAre x 0 (noise ++ ([0x00, 0xFF] ++ [0xFF, 0xFF, m, l, k]))) (j : Nat) :
    run (j + 3) x = run j
      (let w : Work := { x.work with
         cnt := noise.length + 2, pz := false, l0 := 0xFF, l1 := 0xFF, xm := m, xl := l, xc := k }
       if xlenOk m l k then
         rd x (noise.length + 7) .rrHdr [.rrLen, .rrXlen, .rrHdr] { w with len := xlen m l } x.rxbuf
       else failAt x (noise.length + 7) [.rrLen, .rrXlen] w x.rxbuf .corruption (.extLengthBytes m l k)) := by
  rw [← List.append_assoc] at ha
  obtain ⟨a1, a2⟩ := answers_split ha
  rw [show (noise ++ [(0x00 : Byte), 0xFF]).length = noise.length + 2 by simp] at a1 a2
  simp only [List.length_cons, List.length_nil, Nat.zero_add, answers_succ, answers_zero, List.cons.injEq, and_true] at a2
  obtain ⟨b1, b2, b3, b4, b5⟩ := a2
  have hx : isExtMark 0xFF 0xFF = true := by decide
  rw [run_busy hb, tick_scan hq hs hn a1, run_busy (busy_rd hb), tick_len]
  simp only [b1, b2, hx, if_true]
  rw [run_busy (busy_rd hb), tick_xlen]
  simp only [b3, b4, b5, List.cons_append, List.nil_append]

end Sys2Proof.Machine.Laws

namespace Sys2Proof.Machine.Laws

open Codec Codec.Laws

/-- R156: a header that fails a test, both bytes read. -/
theorem run_bad_hdr {x : State} {n : Nat} {p : List Seq} {w : Work} {m : Memory} {t r : Byte} (hb : x.busy = true)
    (ha : x.answers n 2 = [t, r]) (hbad : t ≠ x.cfg.tfiChipToHost ∨ r ≠ w.exp ∨ w.len.toNat < 2) (j : Nat) :
    run (j + 1) (rd x n .rrHdr p w m) =
      failAt x (n + 2) p { w with hd := t, hi := r } m .corruption (.header t r w.len) := by
  simp only [answers_succ, answers_zero, List.cons.injEq, and_true] at ha
  rw [run_busy (busy_rd hb), tick_hdr]
  simp only [ha.1, ha.2]
  rw [if_neg, run_idle rfl]
  intro h
  simp only [Bool.and_eq_true, beq_iff_eq, decide_eq_true_eq] at h
  rcases hbad with h1 | h1 | h1
  · exact h1 h.1.1
  · exact h1 h.1.2
  · omega

/-- R152 to R160: a normal frame whose length and header are right, from RR_SCAN to the verdict. -/
theorem run_rn {x : State} {noise d : List Byte} {l k t r c po : Byte} (hb : x.busy = true) (hq : x.seq = .rrScan)
    (hw : (Instr.rn noise l k t r d c po).WellFormed) (hn : noise.length + 2 ≤ x.cfg.scanBudget)
    (ha : answersAre x 0 (encodeRn noise l k t r d c po)) (hl : lenOk l k = true) (h2 : 2 ≤ l.toNat)
    (ht : t = x.cfg.tfiChipToHost) (hr : r = x.work.exp) (j : Nat) :
    run (j + 5) x = run j
      (let n := (encodeRn noise l k t r d c po).length
       let w : Work := { x.work with
         cnt := noise.length + 2, pz := false, l0 := l, l1 := k, len := l.setWidth 16, hd := t, hi := r
         dlen := BitVec.ofNat 16 d.length, idx := d.length, acc := sum8 (t :: r :: d), rdcs := c, rpost := po }
       let m := Memory.writeAll x.rxbuf 0 (d.take x.work.capl.toNat)
       let p := [Seq.rrLen, .rrHdr, .rrData, .rrTail]
       if bodyOk t r d c then okAt x n p w m (BitVec.ofNat 16 (min d.length x.work.capl.toNat))
       else { failAt x n p w m .corruption (.checksum c (dcs t r d)) with
         trace := x.trace ++ (encodeRn noise l k t r d c po).map Event.rd ++ [.des] }) := by
  obtain ⟨w1, w2, w3⟩ := wf_rn hw
  have e : encodeRn noise l k t r d c po = (noise ++ ([0x00, 0xFF] ++ [l, k])) ++ (t :: r :: (d ++ [c, po])) := by
    simp [encodeRn, Config.start1, Config.start2]
  have ha' := ha
  rw [answersAre, e] at ha
  obtain ⟨a1, a2⟩ := answers_split ha
  rw [show j + 5 = (j + 3) + 2 by omega, run_len_rn hb hq w1 hn w2 a1]
  simp only [hl, if_true]
  refine (run_from_hdr (t := t) (r := r) (d := d) (c := c) (po := po) hb (by simpa using a2) (by simp; omega) ht
    (by exact hr) j).trans ?_
  rw [show noise.length + 4 + d.length + 4 = (encodeRn noise l k t r d c po).length by rw [e]; simp; omega, ha']
  rfl

/-- R152 to R160: an extended frame whose length and header are right, from RR_SCAN to the verdict. -/
theorem run_rx {x : State} {noise d : List Byte} {m l k t r c po : Byte} (hb : x.busy = true) (hq : x.seq = .rrScan)
    (hw : (Instr.rx noise m l k t r d c po).WellFormed) (hn : noise.length + 2 ≤ x.cfg.scanBudget)
    (ha : answersAre x 0 (encodeRx noise m l k t r d c po)) (hl : xlenOk m l k = true) (h2 : 2 ≤ (xlen m l).toNat)
    (ht : t = x.cfg.tfiChipToHost) (hr : r = x.work.exp) (j : Nat) :
    run (j + 6) x = run j
      (let n := (encodeRx noise m l k t r d c po).length
       let w : Work := { x.work with
         cnt := noise.length + 2, pz := false, l0 := 0xFF, l1 := 0xFF, xm := m, xl := l, xc := k, len := xlen m l
         hd := t, hi := r, dlen := BitVec.ofNat 16 d.length, idx := d.length, acc := sum8 (t :: r :: d), rdcs := c
         rpost := po }
       let m' := Memory.writeAll x.rxbuf 0 (d.take x.work.capl.toNat)
       let p := [Seq.rrLen, .rrXlen, .rrHdr, .rrData, .rrTail]
       if bodyOk t r d c then okAt x n p w m' (BitVec.ofNat 16 (min d.length x.work.capl.toNat))
       else { failAt x n p w m' .corruption (.checksum c (dcs t r d)) with
         trace := x.trace ++ (encodeRx noise m l k t r d c po).map Event.rd ++ [.des] }) := by
  obtain ⟨w1, w3⟩ := wf_rx hw
  have e : encodeRx noise m l k t r d c po =
      (noise ++ ([0x00, 0xFF] ++ [0xFF, 0xFF, m, l, k])) ++ (t :: r :: (d ++ [c, po])) := by
    simp [encodeRx, Config.start1, Config.start2, Config.extMark]
  have ha' := ha
  rw [answersAre, e] at ha
  obtain ⟨a1, a2⟩ := answers_split ha
  rw [show j + 6 = (j + 3) + 3 by omega, run_len_rx hb hq w1 hn a1]
  simp only [hl, if_true]
  refine (run_from_hdr (t := t) (r := r) (d := d) (c := c) (po := po) hb (by simpa [Nat.add_assoc] using a2)
    (by simp; omega) ht (by exact hr) j).trans ?_
  rw [show noise.length + 7 + d.length + 4 = (encodeRx noise m l k t r d c po).length by rw [e]; simp; omega, ha']
  rfl

end Sys2Proof.Machine.Laws
end

