-- ==== Sys2Proof/Tests/Slice0.lean ====
section
/-! SUPPORT. The model's own tests. Expected values come from spec file 95 (the vector is named), from the format tables of spec file
30, or from hand calculation; then the witnesses of the statements' hypotheses. -/

namespace Sys2Proof.Tests

open Sys2Proof Sys2Proof.Machine Sys2Proof.Codec

/-! ## WellFormed refuses -/

/-- R106, R180: 254 payload bytes. -/
theorem test_ill_formed_xchg : (Instr.xchg 0x02 (List.replicate 254 0x00) 4).wellFormed = false := by decide +kernel

/-- R106: 254 data bytes. -/
theorem test_ill_formed_cf : (Instr.cf 0x02 (List.replicate 254 0x00)).wellFormed = false := by decide +kernel

/-- R78: the noise holds a start code. -/
theorem test_ill_formed_rn_noise : (Instr.rn [0x00, 0xFF, 0x11] 0x02 0xFE 0xD5 0x03 [] 0x28 0x00).wellFormed = false := by decide

/-- R77: the length bytes are the extended marker. -/
theorem test_ill_formed_rn_marker : (Instr.rn [0x00] 0xFF 0xFF 0xD5 0x03 (List.replicate 253 0x00) 0x28 0x00).wellFormed = false := by
  decide

/-- R76: LEN = 3 announces one data byte. -/
theorem test_ill_formed_rn_data : (Instr.rn [0x00] 0x03 0xFD 0xD5 0x03 [] 0x28 0x00).wellFormed = false := by decide

/-- R78: the noise holds a start code. -/
theorem test_ill_formed_rx_noise : (Instr.rx [0x00, 0xFF] 0x00 0x02 0xFE 0xD5 0x03 [] 0x28 0x00).wellFormed = false := by decide

/-- R76: LEN = 2 announces no data byte. -/
theorem test_ill_formed_rx_data : (Instr.rx [0x00] 0x00 0x02 0xFE 0xD5 0x03 [0x01] 0x28 0x00).wellFormed = false := by decide

/-! ## Decoding, every constructor from a word of the spec's tables (R70 to R74, R80, R81, R85) -/

theorem test_decode_wake : decode (.op 0b001) = .ok (.wake, []) := by decide
theorem test_decode_waitrdy : decode (.op 0b010) = .ok (.waitrdy, []) := by decide
theorem test_decode_sendcmd : decode (.op 0b011) = .ok (.sendcmd, []) := by decide
theorem test_decode_readrsp : decode (.op 0b100) = .ok (.readrsp, []) := by decide
theorem test_decode_sendack : decode (.op 0b101) = .ok (.sendack, []) := by decide
theorem test_decode_reserved_0 : decode (.op 0b000) = .ok (.reservedOp0, []) := by decide
theorem test_decode_reserved_6 : decode (.op 0b110) = .ok (.reservedOp67 0, []) := by decide
theorem test_decode_reserved_7 : decode (.op 0b111) = .ok (.reservedOp67 1, []) := by decide
theorem test_decode_init : decode .lineInit = .ok (.init, []) := by decide
theorem test_decode_xchg : decode (.lineXchg 0x02 [] 4) = .ok (.xchg 0x02 [] 4, []) := by decide

/-- V-C7's frame: a payload that holds a start code. -/
theorem test_decode_cf :
    decode (.command [0x00, 0x00, 0xFF, 0x04, 0xFC, 0xD4, 0x08, 0x00, 0xFF, 0x25, 0x00]) = .ok (.cf 0x08 [0x00, 0xFF], []) := by
  decide

/-- C9: the frame as DOC0 prints it, checksum D2, is no command frame. -/
theorem test_decode_cf_printed :
    decode (.command [0x00, 0x00, 0xFF, 0x02, 0xFE, 0xD4, 0x02, 0xD2, 0x00]) = .error .notCommandFrame := by decide

/-- V-R5's frame F1, noise before it and one byte behind it. -/
theorem test_decode_rn :
    decode (.response [0xAA, 0x00, 0x55, 0xFF, 0xFF, 0x00, 0x01, 0x00, 0x00, 0xFF, 0x06, 0xFA, 0xD5, 0x03, 0x32, 0x01, 0x06, 0x07,
      0xE8, 0x00, 0x11])
      = .ok (.rn [0xAA, 0x00, 0x55, 0xFF, 0xFF, 0x00, 0x01, 0x00] 0x06 0xFA 0xD5 0x03 [0x32, 0x01, 0x06, 0x07] 0xE8 0x00,
        [0x11]) := by decide

/-- V-R10's frame. -/
theorem test_decode_rx :
    decode (.response [0x00, 0x00, 0xFF, 0xFF, 0xFF, 0x00, 0x06, 0xFA, 0xD5, 0x03, 0x32, 0x01, 0x06, 0x07, 0xE8, 0x00])
      = .ok (.rx [0x00] 0x00 0x06 0xFA 0xD5 0x03 [0x32, 0x01, 0x06, 0x07] 0xE8 0x00, []) := by decide

theorem test_decode_no_start_code : decode (.response [0x00, 0x01, 0xFF]) = .error .noStartCode := by decide
theorem test_decode_response_cut : decode (.response [0x00, 0xFF, 0x03, 0xFD, 0xD5]) = .error .truncated := by decide
theorem test_decode_ak : decode (.ack [0x00, 0x00, 0xFF, 0x00, 0xFF, 0x00]) = .ok (.ak, []) := by decide

/-- R82: the NACK bytes are not the ACK. -/
theorem test_decode_nack : decode (.ack [0x00, 0x00, 0xFF, 0xFF, 0x00, 0x00]) = .error .notAck := by decide
theorem test_decode_st_ready : decode (.status [0b11111111]) = .ok (.stReady 0b1111111, []) := by decide
theorem test_decode_st_not_ready : decode (.status [0b00001000]) = .ok (.stNotReady 0b0000100, []) := by decide

/-- R86: the AK row's word, most significant byte first, and a status byte. -/
theorem test_table_word_ak : decodeTableWord 48 0x0000FF00FF00 = some .ak := by decide
theorem test_table_word_status : decodeTableWord 8 0xFE = some (.stNotReady 0b1111111) := by decide

/-! ## The Frame Codec (vectors V-C) -/

/-- V-C1. -/
theorem test_lcs : [0x00, 0x01, 0x02, 0x80, 0xFE, 0xFF].map lcs = [0x00, 0xFF, 0xFE, 0x80, 0x02, 0x01] := by decide
/-- V-C2. -/
theorem test_len_ok : (lenOk 0xFF 0xFF, lenOk 0x00 0x00, lenOk 0x00 0xFF, lenOk 0xFF 0x01) = (false, true, false, true) := by decide
/-- V-C6. -/
theorem test_encode : encodeFrame 0x14 [0x01, 0x14, 0x01] =
    [0x00, 0x00, 0xFF, 0x05, 0xFB, 0xD4, 0x14, 0x01, 0x14, 0x01, 0x02, 0x00] := by decide
/-- V-C8. -/
theorem test_encode_FF : encodeFrame 0xFF [0xFF] = [0x00, 0x00, 0xFF, 0x03, 0xFD, 0xD4, 0xFF, 0xFF, 0x2E, 0x00] := by decide
/-- V-C12. -/
theorem test_decode_stream : decodeStream Config.default 0xD4 0x14 8
    [0x00, 0x00, 0xFF, 0x05, 0xFB, 0xD4, 0x14, 0x01, 0x14, 0x01, 0x02, 0x00] = ⟨.ok, 3, [0x01, 0x14, 0x01], 12⟩ := by decide
/-- V-C13. -/
theorem test_decode_stream_printed : (decodeStream Config.default 0xD4 0x02 4
    [0x00, 0x00, 0xFF, 0x02, 0xFE, 0xD4, 0x02, 0xD2, 0x00]).kind = .corruption := by decide

/-! ## One step each -/

/-- The state a step or instruction answers, `s` where it stops. -/
def stateOf (s : State) : Host.Outcome State Fault Refusal → State
  | .next t => t
  | .fault _ => s
  | .refused _ => s

/-- An idle machine with answers `bs` ready and RXBUF filled with EE as in spec file 95. -/
def idleWith (bs : List Byte) : State := { State.reset with script := bs, rxbuf := Memory.writeAll [] 0 (List.replicate 6 0xEE) }

/-- The same with a ready budget of `n`. -/
def budget (n : Nat) (bs : List Byte) : State := { idleWith bs with cfg := { Config.default with readyPollBudget := n } }

/-- SENDCMD's registers for command id `c` without payload. -/
def sendRegs (c : Byte) (s : State) : State := { s with args := { s.args with cmd := c } }

/-- READRSP's registers. -/
def readRegs (e : Byte) (cap : U16) (s : State) : State := { s with args := { s.args with exp := e, cap := cap } }

/-- What vectors record of a result. -/
def result (t : State) : Kind × Nat × Nat := (t.resKind, t.resLen.toNat, t.script.length)

/-- Frame F1. -/
def f1 : List Byte := [0x00, 0x00, 0xFF, 0x06, 0xFA, 0xD5, 0x03, 0x32, 0x01, 0x06, 0x07, 0xE8, 0x00]

/-- The state after running `i` on `s`. -/
def after (i : Instr) (s : State) : State := stateOf s (exec i s)

/-- V-K1. -/
theorem test_wake : (after .wake (idleWith [])).trace = [.sel, .dly 2000, .des] := by decide
/-- R181. -/
theorem test_init : (after .init (idleWith [])).trace = [.sel, .dly 2000, .des] := by decide
/-- V-W1. -/
theorem test_waitrdy : (after .waitrdy (idleWith [0x00, 0x08, 0x01])).trace =
    [.sel, .dly 2000, .rd 0x00, .des, .sel, .dly 2000, .rd 0x08, .des, .sel, .dly 2000, .rd 0x01, .des] := by decide
/-- V-W2. -/
theorem test_waitrdy_timeout :
    result (after .waitrdy (budget 5 [0xFE, 0xFE, 0xFE, 0xFE, 0xFE, 0x01])) = (.timeout, 0, 1) := by decide
/-- V-A1. -/
theorem test_sendack : (after .sendack (idleWith [])).trace =
    [.sel, .dly 2000, .wr 0x00, .wr 0x00, .wr 0xFF, .wr 0x00, .wr 0xFF, .wr 0x00, .des] := by decide
/-- V-H1, the TRACE of R134. -/
theorem test_sendcmd : (after .sendcmd (sendRegs 0x02 (idleWith [0x01, 0x00, 0x00, 0xFF, 0x00, 0xFF, 0x00, 0x01]))).trace =
    [.sel, .dly 2000, .wr 0x00, .wr 0x00, .wr 0xFF, .wr 0x02, .wr 0xFE, .wr 0xD4, .wr 0x02, .wr 0x2A, .wr 0x00, .des,
     .sel, .dly 2000, .rd 0x01, .des,
     .sel, .dly 2000, .rd 0x00, .rd 0x00, .rd 0xFF, .rd 0x00, .rd 0xFF, .rd 0x00, .des,
     .sel, .dly 2000, .rd 0x01, .des] := by decide
/-- V-H2: ready on the last allowed poll of each loop. -/
theorem test_sendcmd_last_poll : result (after .sendcmd (sendRegs 0x02 (budget 3
    [0x00, 0x00, 0x01, 0x00, 0x00, 0xFF, 0x00, 0xFF, 0x00, 0x00, 0x00, 0x03]))) = (.ok, 0, 0) := by decide
/-- V-H5. -/
theorem test_sendcmd_mismatch : result (after .sendcmd (sendRegs 0x02 (idleWith
    [0x01, 0x00, 0x00, 0xFF, 0xFF, 0x00, 0x00]))) = (.protocolMismatch, 0, 0) := by decide
/-- V-H9. -/
theorem test_sendcmd_refused :
    after .sendcmd { idleWith [] with args := ⟨0x02, 254, 0, 0⟩ } =
      { idleWith [] with
        args := ⟨0x02, 254, 0, 0⟩, work := { Work.reset with opl := 3, cmd := 0x02, txn := 254 }, resKind := .refused } := by
  decide
/-- V-H10. -/
theorem test_reserved_0 : result (after .reservedOp0 (idleWith [])) = (.refused, 0, 0) := by decide
/-- V-H10. -/
theorem test_reserved_7 : (after (.reservedOp67 1) (idleWith [])).trace = [] := by decide
/-- V-R3: truncated. -/
theorem test_readrsp_truncated : (after .readrsp (readRegs 0x03 2 (idleWith f1))).rxbuf =
    [(0, 0x32), (1, 0x01), (2, 0xEE), (3, 0xEE), (4, 0xEE), (5, 0xEE)] := by decide
/-- V-R18: the bytes stay, the length is zeroed, the record says E8 and E7. -/
theorem test_readrsp_bad_checksum :
    let t := after .readrsp { readRegs 0x03 4 (idleWith
      [0x00, 0x00, 0xFF, 0x06, 0xFA, 0xD5, 0x03, 0x32, 0x02, 0x06, 0x07, 0xE8, 0x00]) with diag := some [] }
    (result t, t.rxbuf.bytes 4, t.diag) =
      ((.corruption, 0, 0), [0x32, 0x02, 0x06, 0x07], some [⟨.corruption, .checksum 0xE8 0xE7⟩]) := by decide
/-- V-R11: an unread ACK. -/
theorem test_readrsp_unread_ack : result (after .readrsp (readRegs 0x03 4 (idleWith [0x00, 0x00, 0xFF, 0x00, 0xFF, 0x00]))) =
    (.corruption, 0, 1) := by decide
/-- V-R15b: an extended length of 1. -/
theorem test_readrsp_ext_short : result (after .readrsp (readRegs 0x03 4 (idleWith
    [0x00, 0x00, 0xFF, 0xFF, 0xFF, 0x00, 0x01, 0xFF, 0xD5, 0x03]))) = (.corruption, 0, 0) := by decide
/-- V-R6: two 0x00 before the 0xFF, and a 0xFF with no 0x00 before it. -/
theorem test_readrsp_scanner : result (after .readrsp (readRegs 0x03 4 (idleWith
    [0xFF, 0x00, 0x00, 0xFF, 0x06, 0xFA, 0xD5, 0x03, 0x32, 0x01, 0x06, 0x07, 0xE8, 0x00]))) = (.ok, 4, 0) := by decide
/-- R25: the scan loop clears PZ at the 0xFF of the start code, and sets it at a last 0x00. -/
theorem test_scan_writes_pz : (scanLoop 4 (idleWith [0x11, 0x00, 0xFF, 0x00])).2.work.pz = false
    ∧ (scanLoop 2 (idleWith [0x11, 0x00, 0xFF])).2.work.pz = true := by decide
/-- R180's example. -/
theorem test_xchg : let t := after (.xchg 0x02 [] 4) (idleWith ([0x01, 0x00, 0x00, 0xFF, 0x00, 0xFF, 0x00, 0x01] ++ f1))
    (result t, t.rxbuf.bytes 4) = ((.ok, 4, 0), [0x32, 0x01, 0x06, 0x07]) := by decide
/-- P5: the SEQ path and the answers used. -/
theorem test_xchg_stops : let t := after (.xchg 0x02 [] 4) (idleWith [0x01, 0x00, 0x00, 0xFF, 0xFF, 0x00, 0x00])
    (result t, t.path) = ((.protocolMismatch, 0, 0), [.idle, .sent, .awaitReady1, .ackCheck, .failed, .idle]) := by decide
/-- V-PFX: a prefix opens the write transfer. -/
theorem test_cf_prefix : (after (.cf 0x02 []) { inside opSendcmd .sent (idleWith []) with
    cfg := { Config.default with pfxWrite := some 0x01 } }).trace =
    [.sel, .dly 2000, .wr 0x01, .wr 0x00, .wr 0x00, .wr 0xFF, .wr 0x02, .wr 0xFE, .wr 0xD4, .wr 0x02, .wr 0x2A, .wr 0x00,
     .des] := by decide
/-- R153 to R160: F1 met in RR_SCAN. -/
theorem test_rn : result (after (.rn [0x00] 0x06 0xFA 0xD5 0x03 [0x32, 0x01, 0x06, 0x07] 0xE8 0x77)
    { inside opReadrsp .rrScan (idleWith [0x11]) with work := { Work.reset with exp := 0x03, capl := 4 } }) = (.ok, 4, 1) := by
  decide
/-- V-R10's frame met in RR_SCAN. -/
theorem test_rx : result (after (.rx [0x00] 0x00 0x06 0xFA 0xD5 0x03 [0x32, 0x01, 0x06, 0x07] 0xE8 0x00)
    { inside opReadrsp .rrScan (idleWith []) with work := { Work.reset with exp := 0x03, capl := 6 } }) = (.ok, 4, 0) := by decide
/-- R132. -/
theorem test_ak : (after .ak (inside opSendcmd .ackCheck (idleWith []))).seq = .awaitReady2 := by decide
/-- V-W3's byte FF. -/
theorem test_st_ready : (after (.stReady 0b1111111) (inside opWaitrdy .wrPoll (idleWith []))).resKind = .ok := by decide
/-- R124: the last poll is not ready. -/
theorem test_st_not_ready :
    let t := after (.stNotReady 0b1111111) (inside opWaitrdy .wrPoll (budget 1 []))
    (t.resKind, t.seq, t.busy) = (.timeout, .idle, false) := by decide

/-- R31: a host's write of 001 to OP, one step. -/
theorem test_step_request : (stateOf State.reset (step { State.reset with host := [.write .op 1] })).trace =
    [.sel, .dly 2000, .des] := by decide
/-- R30: a host's write to RES_LEN stops. -/
theorem test_step_read_only :
    (match step { State.reset with host := [.write .resLen 1] } with | .fault r => some r | _ => none) =
      some (.hostWriteReadOnly .resLen) := by decide

/-! ## Witnesses: for every statement with hypotheses a state and operands that meet them together -/

theorem witness_CommandFrameLayout :
    ([] : List Byte).length ≤ 253 ∧ (List.replicate 253 (0xFF : Byte)).length ≤ 253
      ∧ (List.replicate 253 (0xFF : Byte)).length = 253 := by decide +kernel

theorem witness_AckComparatorIsExact :
    isAck [0x00, 0x00, 0xFF, 0x00, 0xFF, 0x00] = true ∧ (5 < 6 ∧ Config.ackSeq[5]? ≠ some 0x01)
      ∧ (0 < 6 ∧ Config.ackSeq[0]? ≠ some 0x01) := by decide

theorem witness_ByteArithmeticLaws : [(0x01 : Byte), 0xFF].Perm [0xFF, 0x01] := by decide

theorem witness_OneChangedByteBreaksTheCheck :
    (bodyOk 0xD4 0x02 [] 0x2A = true ∧ 0 < ([] : List Byte).length + 3 ∧ ([0xD4, 0x02, 0x2A] : List Byte)[0]? ≠ some 0xD5)
      ∧ (2 < ([] : List Byte).length + 3 ∧ ([0xD4, 0x02, 0x2A] : List Byte)[2]? ≠ some 0xD2)
      ∧ (lenOk 0xFF 0x01 = true ∧ (0x01 : Byte) ≠ 0xFF ∧ (0xFF : Byte) ≠ 0x01) := by decide

theorem witness_CommandRoundTrip :
    3 ≤ Config.default.scanBudget ∧ (List.replicate 253 (0x00 : Byte)).length ≤ 253
      ∧ (List.replicate 253 (0x00 : Byte)).length ≤ (253 : U16).toNat := by decide +kernel

theorem witness_ResponseRoundTrip : 3 ≤ ({ Config.default with scanBudget := 3 } : Config).scanBudget
    ∧ (List.replicate 253 (0x00 : Byte)).length ≤ 253 := by decide +kernel

theorem witness_ExtendedResponseRoundTrip :
    (3 ≤ Config.default.scanBudget ∧ ([] : List Byte).length ≤ 65533 ∧ (xlen 0x00 0x02).toNat = ([] : List Byte).length + 2
      ∧ xlenOk 0x00 0x02 0xFE = true)
    ∧ ((xlen 0xFF 0xFF).toNat = (List.replicate 65533 (0x00 : Byte)).length + 2 ∧ xlenOk 0xFF 0xFF 0x02 = true) := by
  rw [List.length_replicate]; decide +kernel

theorem witness_DecodeInvertsEncode :
    (Instr.reservedOp67 1).WellFormed ∧ (Instr.xchg 0xFF [0x00] 0xFFFF).WellFormed ∧ (Instr.cf 0x08 [0x00, 0xFF]).WellFormed
      ∧ (Instr.rn [0x00, 0xFE] 0xFF 0x01 0xD5 0x03 (List.replicate 253 0x00) 0x00 0x77).WellFormed
      ∧ (Instr.rx [] 0x00 0x00 0x00 0xD5 0x03 [] 0x00 0x00).WellFormed ∧ (Instr.stReady 0b1111111).WellFormed := by decide +kernel

theorem witness_EncodeInvertsDecode :
    decode (.status [0xFF, 0x11]) = .ok (.stReady 0b1111111, [0x11])
      ∧ decode (.ack (Config.ackSeq ++ [0x11])) = .ok (.ak, [0x11]) := by decide

theorem witness_StepRunsTheHostsRequest :
    State.reset.busy = false ∧ hostCode (.write .op 7) = some (.op 7) ∧ decode (.op 7) = .ok (.reservedOp67 1, [])
      ∧ hostCode (.lineXchg 0xFF [0x01] 4) = some (.lineXchg 0xFF [0x01] 4)
      ∧ decode (.lineXchg 0xFF [0x01] 4) = .ok (.xchg 0xFF [0x01] 4, []) := by decide

/-- A machine inside an operation, the bytes `bs` next. -/
def midway (o : BitVec 3) (q : Seq) (bs : List Byte) : State := { inside o q State.reset with script := bs }

theorem witness_StepRunsTheWireFormat :
    ((midway 3 .sent []).busy = true ∧ (midway 3 .sent []).seq = .sent ∧ (midway 3 .sent []).work.txn.toNat ≤ 253)
    ∧ ((midway 2 .wrPoll [0xFF]).work.cnt < (midway 2 .wrPoll [0xFF]).cfg.readyPollBudget
        ∧ (midway 2 .wrPoll [0xFF]).script = statusByte 0b1111111 1 :: [])
    ∧ ((midway 3 .awaitReady2 [0xFE]).script = statusByte 0b1111111 0 :: [])
    ∧ ((midway 3 .ackCheck (Config.ackSeq ++ [0x01])).script = Config.ackSeq ++ [0x01])
    ∧ (midway 5 .saSend []).seq = .saSend
    ∧ ((midway 4 .rrScan (encodeRn [] 0x02 0xFE 0xD5 0x03 [] 0x28 0x00)).seq = .rrScan
        ∧ (Instr.rn [] 0x02 0xFE 0xD5 0x03 [] 0x28 0x00).WellFormed
        ∧ (midway 4 .rrScan (encodeRn [] 0x02 0xFE 0xD5 0x03 [] 0x28 0x00)).script
            = encodeRn [] 0x02 0xFE 0xD5 0x03 [] 0x28 0x00 ++ [])
    ∧ ((Instr.rx [] 0x00 0x02 0xFE 0xD5 0x03 [] 0x28 0x00).WellFormed
        ∧ (midway 4 .rrScan (encodeRx [] 0x00 0x02 0xFE 0xD5 0x03 [] 0x28 0x00)).script
            = encodeRx [] 0x00 0x02 0xFE 0xD5 0x03 [] 0x28 0x00 ++ []) := by decide

theorem witness_StepInFlightIsTheNextMove : (midway 4 .rrScan f1).busy = true := by decide

/-- An idle machine with the one host move `m` pending. -/
def pending (m : HostMove) : State := { State.reset with host := [m] }

theorem witness_HostMovesBetweenOperations :
    (State.reset.busy = false ∧ State.reset.host = [])
    ∧ (pending (.write .argCmd 0xFFFF)).host = .write .argCmd 0xFFFF :: []
    ∧ (pending (.write .argTxn 255)).host = .write .argTxn 255 :: []
    ∧ (pending (.write .argExp 0)).host = .write .argExp 0 :: []
    ∧ (pending (.write .argCap 0xFFFF)).host = .write .argCap 0xFFFF :: []
    ∧ (pending (.write .status 0)).host = .write .status 0 :: []
    ∧ ((pending (.fillTx [0x01])).host = .fillTx [0x01] :: [] ∧ (pending (.fillTx [0x01])).txbuf.wf = true)
    ∧ ((pending (.fillRx [])).host = .fillRx [] :: [] ∧ (pending (.fillRx [])).rxbuf.wf = true)
    ∧ ((pending (.lineXchg 0x02 (List.replicate 254 0x00) 4)).host = .lineXchg 0x02 (List.replicate 254 0x00) 4 :: []
      ∧ 253 < (List.replicate 254 (0x00 : Byte)).length) := by decide +kernel

theorem witness_PlacedWordRunsNext :
    1 ≤ State.reset.cfg.readyPollBudget ∧ State.reset.txbuf.wf = true ∧ decodeTableWord 8 6 = some (.reservedOp67 0)
      ∧ decodeTableWord 48 0x0000FF00FF00 = some .ak := by decide

/-- The invariant in a state that is not the reset state: a failed WAITRDY has just ended. -/
theorem witness_StepKeepsTheInvariant : ∃ s', (budget 1 [0xFE]).Inv ∧ step { budget 1 [0xFE] with host := [.write .op 2] } = .next s'
    ∧ s'.resKind = .timeout ∧ ({ budget 1 [0xFE] with host := [.write .op 2] } : State).Inv := by
  refine ⟨_, ⟨?_, ?_, ?_, ?_, ?_, ?_, ?_, ?_, ?_, ?_, ?_⟩, rfl, ?_, ⟨?_, ?_, ?_, ?_, ?_, ?_, ?_, ?_, ?_, ?_, ?_⟩⟩ <;> decide

theorem witness_OperationsEnd : State.reset.busy = false ∧ State.reset.seq = .idle ∧ State.reset.sel = false := by decide

theorem witness_OneCallIsItsMoves : (idleWith f1).busy = false ∧ (idleWith f1).seq = .idle := by decide

theorem witness_RequestWhileBusyHasNoEffect : (midway 3 .awaitReady1 []).busy = true := by decide

theorem witness_AcceptanceLatchesTheOperands : (idleWith []).busy = false := by decide

theorem witness_WakeHoldsTheSelect : State.reset.busy = false := by decide

theorem witness_SendackWritesTheAckFrame : State.reset.busy = false := by decide

theorem witness_ReservedCodesAreRefused : State.reset.busy = false := by decide

theorem witness_WaitrdySeesReady :
    (budget 3 [0x00, 0x08, 0x01]).busy = false ∧ readyAt (budget 3 [0x00, 0x08, 0x01]) 0 2 := by decide

theorem witness_WaitrdyTimesOut :
    ((budget 2 [0x00, 0xFE]).busy = false ∧ (budget 2 [0x00, 0xFE]).sel = false ∧ neverReady (budget 2 [0x00, 0xFE]) 0)
      ∧ neverReady (budget 0 []) 0 := by decide

/-- An idle machine whose SENDCMD has 253 payload bytes, budget 2. -/
def longest (bs : List Byte) : State := { budget 2 bs with args := ⟨0x40, 253, 0, 0⟩ }

theorem witness_SendcmdSucceeds :
    let s := longest ([0x00, 0x01] ++ Config.ackSeq ++ [0x00, 0x03])
    s.busy = false ∧ s.args.txn.toNat ≤ 253 ∧ readyAt s 0 1 ∧ answersAre s 2 Config.ackSeq ∧ readyAt s 8 1 := by decide

theorem witness_SendcmdTimesOutBeforeTheAck :
    (longest [0x00, 0xFE]).busy = false ∧ (longest [0x00, 0xFE]).args.txn.toNat ≤ 253 ∧ neverReady (longest [0x00, 0xFE]) 0 := by
  decide

theorem witness_SendcmdMeetsNoAck :
    let s := longest [0x01, 0x00, 0x00, 0xFF, 0x00, 0xFF, 0x01]
    let a : AckBytes := ⟨0x00, 0x00, 0xFF, 0x00, 0xFF, 0x01⟩
    s.busy = false ∧ s.args.txn.toNat ≤ 253 ∧ readyAt s 0 0 ∧ answersAre s 1 a.toList ∧ a.toList ≠ Config.ackSeq := by decide

theorem witness_SendcmdTimesOutAfterTheAck :
    let s := longest ([0x01] ++ Config.ackSeq ++ [0xFE, 0x08])
    s.busy = false ∧ s.args.txn.toNat ≤ 253 ∧ readyAt s 0 0 ∧ answersAre s 1 Config.ackSeq ∧ neverReady s 7 := by decide

theorem witness_SendcmdRefusesALongPayload :
    let s : State := { State.reset with args := ⟨0x40, 254, 0, 0⟩ }
    s.busy = false ∧ 253 < s.args.txn.toNat := by decide

theorem witness_ReadrspTakesANormalFrame :
    let s := readRegs 0x03 2 (idleWith f1)
    s.busy = false ∧ (Instr.rn [0x00] 0x06 0xFA 0xD5 0x03 [0x32, 0x01, 0x06, 0x07] 0xE8 0x00).WellFormed
      ∧ [(0x00 : Byte)].length + 2 ≤ s.cfg.scanBudget
      ∧ answersAre s 0 (encodeRn [0x00] 0x06 0xFA 0xD5 0x03 [0x32, 0x01, 0x06, 0x07] 0xE8 0x00)
      ∧ lenOk 0x06 0xFA = true ∧ 2 ≤ (0x06 : Byte).toNat ∧ 0xD5 = s.cfg.tfiChipToHost ∧ 0x03 = s.args.exp
      ∧ bodyOk 0xD5 0x03 [0x32, 0x01, 0x06, 0x07] 0xE8 = true := by decide

theorem witness_ReadrspTakesAnExtendedFrame :
    let s := readRegs 0x03 0xFFFF (idleWith (encodeRx [] 0x00 0x02 0xFE 0xD5 0x03 [] 0x28 0x00))
    s.busy = false ∧ (Instr.rx [] 0x00 0x02 0xFE 0xD5 0x03 [] 0x28 0x00).WellFormed
      ∧ ([] : List Byte).length + 2 ≤ s.cfg.scanBudget ∧ answersAre s 0 (encodeRx [] 0x00 0x02 0xFE 0xD5 0x03 [] 0x28 0x00)
      ∧ xlenOk 0x00 0x02 0xFE = true ∧ 2 ≤ (xlen 0x00 0x02).toNat ∧ 0xD5 = s.cfg.tfiChipToHost ∧ 0x03 = s.args.exp
      ∧ bodyOk 0xD5 0x03 [] 0x28 = true := by decide

theorem witness_ReadrspFindsNoStartCode :
    let s : State := { idleWith [0x00, 0x11, 0xFF] with cfg := { Config.default with scanBudget := 3 } }
    s.busy = false ∧ splitStart (s.answers 0 s.cfg.scanBudget) = none := by decide

theorem witness_ReadrspRejectsABadLength :
    (let s := idleWith [0x00, 0xFF, 0x06, 0xFB]
     s.busy = false ∧ splitStart [] = none ∧ ([] : List Byte).length + 2 ≤ s.cfg.scanBudget
      ∧ answersAre s 0 ([] ++ [0x00, 0xFF, 0x06, 0xFB]) ∧ isExtMark 0x06 0xFB = false ∧ lenOk 0x06 0xFB = false)
    ∧ (let s := idleWith [0x00, 0xFF, 0xFF, 0xFF, 0x01, 0x2E, 0xD0]
       answersAre s 0 ([] ++ [0x00, 0xFF, 0xFF, 0xFF, 0x01, 0x2E, 0xD0]) ∧ xlenOk 0x01 0x2E 0xD0 = false) := by decide

theorem witness_ReadrspRejectsABadHeader :
    (let s := readRegs 0x05 4 (idleWith [0x00, 0xFF, 0x01, 0xFF, 0xD5, 0x03])
     s.busy = false ∧ answersAre s 0 ([] ++ [0x00, 0xFF, 0x01, 0xFF, 0xD5, 0x03]) ∧ isExtMark 0x01 0xFF = false
      ∧ lenOk 0x01 0xFF = true ∧ (0x03 ≠ s.args.exp ∧ (0x01 : Byte).toNat < 2))
    ∧ (let s := readRegs 0x03 4 (idleWith [0x00, 0xFF, 0xFF, 0xFF, 0x00, 0x01, 0xFF, 0xD4, 0x03])
       answersAre s 0 ([] ++ [0x00, 0xFF, 0xFF, 0xFF, 0x00, 0x01, 0xFF, 0xD4, 0x03]) ∧ xlenOk 0x00 0x01 0xFF = true
        ∧ (0xD4 ≠ s.cfg.tfiChipToHost ∧ (xlen 0x00 0x01).toNat < 2)) := by decide

theorem witness_ReadrspRejectsABadChecksum :
    (let s := readRegs 0x03 4 (idleWith [0x00, 0x00, 0xFF, 0x06, 0xFA, 0xD5, 0x03, 0x32, 0x02, 0x06, 0x07, 0xE8, 0x00])
     s.busy = false ∧ (Instr.rn [0x00] 0x06 0xFA 0xD5 0x03 [0x32, 0x02, 0x06, 0x07] 0xE8 0x00).WellFormed
      ∧ [(0x00 : Byte)].length + 2 ≤ s.cfg.scanBudget
      ∧ answersAre s 0 (encodeRn [0x00] 0x06 0xFA 0xD5 0x03 [0x32, 0x02, 0x06, 0x07] 0xE8 0x00)
      ∧ lenOk 0x06 0xFA = true ∧ 2 ≤ (0x06 : Byte).toNat ∧ 0xD5 = s.cfg.tfiChipToHost ∧ 0x03 = s.args.exp
      ∧ bodyOk 0xD5 0x03 [0x32, 0x02, 0x06, 0x07] 0xE8 = false)
    ∧ (let s := readRegs 0x03 0 (idleWith (encodeRx [] 0x00 0x02 0xFE 0xD5 0x03 [] 0x29 0x00))
       s.busy = false ∧ (Instr.rx [] 0x00 0x02 0xFE 0xD5 0x03 [] 0x29 0x00).WellFormed
        ∧ ([] : List Byte).length + 2 ≤ s.cfg.scanBudget
        ∧ answersAre s 0 (encodeRx [] 0x00 0x02 0xFE 0xD5 0x03 [] 0x29 0x00)
        ∧ xlenOk 0x00 0x02 0xFE = true ∧ 2 ≤ (xlen 0x00 0x02).toNat ∧ 0xD5 = s.cfg.tfiChipToHost ∧ 0x03 = s.args.exp
        ∧ bodyOk 0xD5 0x03 [] 0x29 = false) := by decide

theorem witness_XchgIsSendThenRead :
    (let s := idleWith [0x01, 0x00, 0x00, 0xFF, 0x00, 0xFF, 0x00, 0x01]
     s.busy = false ∧ [(0x01 : Byte)].length ≤ 253 ∧ (after .sendcmd (loadSend 0xFF [0x01] s)).resKind = .ok)
    ∧ (after .sendcmd (loadSend 0xFF [0x01] (budget 0 []))).resKind ≠ .ok
    ∧ 253 < (List.replicate 254 (0x00 : Byte)).length := by decide +kernel

theorem witness_XchgCompletes :
    let common (s : State) : Prop := s.busy = false ∧ s.txbuf.wf = true ∧ ([] : List Byte).length ≤ 253
      ∧ readyAt s 0 0 ∧ answersAre s 1 Config.ackSeq ∧ readyAt s 7 0 ∧ [(0x00 : Byte)].length + 2 ≤ s.cfg.scanBudget
      ∧ 0xD5 = s.cfg.tfiChipToHost ∧ (0x00 : Byte).toNat = ((0xFF : Byte).toNat + 1) % 256
    (let s := idleWith ([0x01] ++ Config.ackSeq ++ [0x01] ++ encodeRn [0x00] 0x02 0xFE 0xD5 0x00 [] 0x2B 0x00)
     common s ∧ (Instr.rn [0x00] 0x02 0xFE 0xD5 0x00 [] 0x2B 0x00).WellFormed
      ∧ answersAre s 8 (encodeRn [0x00] 0x02 0xFE 0xD5 0x00 [] 0x2B 0x00) ∧ lenOk 0x02 0xFE = true ∧ 2 ≤ (0x02 : Byte).toNat
      ∧ bodyOk 0xD5 0x00 [] 0x2B = true)
    ∧ (let s := idleWith ([0x01] ++ Config.ackSeq ++ [0x01] ++ encodeRx [0x00] 0x00 0x03 0xFD 0xD5 0x00 [0x01] 0x2A 0x00)
       common s ∧ (Instr.rx [0x00] 0x00 0x03 0xFD 0xD5 0x00 [0x01] 0x2A 0x00).WellFormed
        ∧ answersAre s 8 (encodeRx [0x00] 0x00 0x03 0xFD 0xD5 0x00 [0x01] 0x2A 0x00) ∧ xlenOk 0x00 0x03 0xFD = true
        ∧ 2 ≤ (xlen 0x00 0x03).toNat ∧ bodyOk 0xD5 0x00 [0x01] 0x2A = true) := by decide

theorem witness_ReadyByteEndsTheLoop :
    ((midway 2 .wrPoll []).busy = true ∧ (midway 2 .wrPoll []).work.cnt < (midway 2 .wrPoll []).cfg.readyPollBudget
      ∧ (midway 2 .wrPoll []).seq = .wrPoll)
    ∧ ((midway 3 .awaitReady1 []).seq = .awaitReady1 ∧ (midway 3 .awaitReady1 []).busy = true) := by decide

theorem witness_NotReadyByteGoesOnOrTimesOut :
    let s (n : Nat) : State := { midway 3 .awaitReady2 [] with cfg := { Config.default with readyPollBudget := n } }
    ((s 2).busy = true ∧ (s 2).seq = .awaitReady2 ∧ (s 2).work.cnt + 1 < (s 2).cfg.readyPollBudget)
      ∧ ((s 1).work.cnt < (s 1).cfg.readyPollBudget ∧ (s 1).work.cnt + 1 = (s 1).cfg.readyPollBudget) := by decide

theorem witness_AckFrameTakenAndSent :
    ((midway 3 .ackCheck []).busy = true ∧ (midway 3 .ackCheck []).seq = .ackCheck)
      ∧ ((midway 5 .saSend []).busy = true ∧ (midway 5 .saSend []).seq = .saSend) := by decide

theorem witness_CommandFrameGoesOut :
    ((List.replicate 253 (0x00 : Byte)).length ≤ 253 ∧ (midway 3 .sent []).seq = .sent) ∧ State.reset.seq ≠ .sent
      ∧ 253 < (List.replicate 254 (0x00 : Byte)).length := by decide +kernel

/-- READRSP in RR_SCAN, id 03, capacity 2, scan budget 3. -/
def scanning : State :=
  { midway 4 .rrScan [] with
    cfg := { Config.default with scanBudget := 3 }
    work := { Work.reset with exp := 0x03, capl := 2 } }

theorem witness_NormalFrameIsTakenWhole :
    scanning.busy = true ∧ scanning.seq = .rrScan
      ∧ (Instr.rn [0x00] 0x06 0xFA 0xD5 0x03 [0x32, 0x01, 0x06, 0x07] 0xE8 0x77).WellFormed
      ∧ [(0x00 : Byte)].length + 2 ≤ scanning.cfg.scanBudget ∧ lenOk 0x06 0xFA = true ∧ 2 ≤ (0x06 : Byte).toNat
      ∧ 0xD5 = scanning.cfg.tfiChipToHost ∧ 0x03 = scanning.work.exp
      ∧ bodyOk 0xD5 0x03 [0x32, 0x01, 0x06, 0x07] 0xE8 = true := by decide

theorem witness_ExtendedFrameIsTakenWhole :
    scanning.busy = true ∧ scanning.seq = .rrScan ∧ (Instr.rx [0x00] 0x00 0x02 0xFE 0xD5 0x03 [] 0x28 0x00).WellFormed
      ∧ [(0x00 : Byte)].length + 2 ≤ scanning.cfg.scanBudget ∧ xlenOk 0x00 0x02 0xFE = true ∧ 2 ≤ (xlen 0x00 0x02).toNat
      ∧ 0xD5 = scanning.cfg.tfiChipToHost ∧ 0x03 = scanning.work.exp ∧ bodyOk 0xD5 0x03 [] 0x28 = true := by decide

theorem witness_BadFrameInTheScannerFails :
    (scanning.busy = true ∧ scanning.seq = .rrScan ∧ scanning.sel = true ∧ scanning.cfg.scanBudget = 3)
    ∧ ((Instr.rn [0x11, 0x00] 0x02 0xFE 0xD5 0x03 [] 0x28 0x00).WellFormed ∧ 3 < [(0x11 : Byte), 0x00].length + 2)
    ∧ ((Instr.rn [0x00] 0x06 0xFB 0xD5 0x03 [0x32, 0x01, 0x06, 0x07] 0xE8 0x00).WellFormed ∧ [(0x00 : Byte)].length + 2 ≤ 3
      ∧ lenOk 0x06 0xFB = false)
    ∧ ((Instr.rn [] 0x01 0xFF 0xD5 0x03 [] 0x28 0x00).WellFormed ∧ lenOk 0x01 0xFF = true ∧ (0x01 : Byte).toNat < 2)
    ∧ ((Instr.rn [] 0x02 0xFE 0xD5 0x03 [] 0x29 0x00).WellFormed ∧ lenOk 0x02 0xFE = true ∧ 2 ≤ (0x02 : Byte).toNat
      ∧ 0xD5 = scanning.cfg.tfiChipToHost ∧ 0x03 = scanning.work.exp ∧ bodyOk 0xD5 0x03 [] 0x29 = false)
    ∧ (Instr.rx [0x11, 0x00] 0x00 0x02 0xFE 0xD5 0x03 [] 0x28 0x00).WellFormed
    ∧ ((Instr.rx [] 0x00 0x02 0xFF 0xD5 0x03 [] 0x28 0x00).WellFormed ∧ xlenOk 0x00 0x02 0xFF = false)
    ∧ ((Instr.rx [] 0x00 0x00 0x00 0xD5 0x03 [] 0x28 0x00).WellFormed ∧ xlenOk 0x00 0x00 0x00 = true ∧ (xlen 0x00 0x00).toNat < 2)
    ∧ ((Instr.rx [] 0x00 0x02 0xFE 0xD5 0x03 [] 0x29 0x00).WellFormed ∧ xlenOk 0x00 0x02 0xFE = true
      ∧ 2 ≤ (xlen 0x00 0x02).toNat) := by decide

theorem witness_InboundBytesWaitWhileIdle :
    State.reset.busy = false ∧ encode .ak = .ack Config.ackSeq ∧ encode (.stReady 0) = .status [0x01]
      ∧ encode (.rn [] 0x02 0xFE 0xD5 0x03 [] 0x28 0x00) = .response [0x00, 0xFF, 0x02, 0xFE, 0xD5, 0x03, 0x28, 0x00] := by decide

theorem witness_LengthFieldRule :
    let s (bs : List Byte) : State := { idleWith bs with seq := .rrLen, busy := true, sel := true }
    ((s [0xFF, 0xFF]).seq = .rrLen ∧ (s [0xFF, 0xFF]).answer 0 = 0xFF ∧ (s [0xFF, 0xFF]).answer 1 = 0xFF)
      ∧ (((s [0xFF, 0x01]).answer 0).toNat + ((s [0xFF, 0x01]).answer 1).toNat) % 256 = 0
      ∧ (((s [0xFF, 0x00]).answer 0).toNat + ((s [0xFF, 0x00]).answer 1).toNat) % 256 ≠ 0 := by decide

theorem witness_ExtendedLengthRule :
    let s (bs : List Byte) : State := { idleWith bs with seq := .rrXlen, busy := true, sel := true }
    ((s [0xFF, 0xFF, 0x02]).seq = .rrXlen ∧ (0xFF + 0xFF + ((s [0xFF, 0xFF, 0x02]).answer 2).toNat) % 256 = 0)
      ∧ (0xFF + 0xFF + ((s [0xFF, 0xFF, 0x03]).answer 2).toNat) % 256 ≠ 0 := by decide

theorem witness_DataRule :
    let s : State := { idleWith [0x32, 0x01] with seq := .rrData, work := { Work.reset with dlen := 2, capl := 1 } }
    s.seq = .rrData ∧ s.rxbuf.wf = true ∧ s.work.dlen.toNat = 2 := by decide

theorem witness_FrameOfEveryInstruction : ∃ t, State.reset.txbuf.wf = true
    ∧ exec (.xchg 0x02 [0x01] 0) (budget 0 []) = .next t ∧ exec .wake State.reset = .next (after .wake State.reset) :=
  ⟨_, by decide, rfl, rfl⟩

theorem witness_RxbufIsWrittenByTheReaderOnly :
    ((idleWith f1).rxbuf.wf = true ∧ (idleWith f1).busy = false ∧ (idleWith f1).args.cap.toNat ≤ 0)
      ∧ (scanning.busy = true ∧ scanning.seq.inReader = true ∧ scanning.work.capl.toNat ≤ 2)
      ∧ ((midway 3 .ackCheck []).busy = true ∧ (midway 3 .ackCheck []).seq.inReader = false) := by decide

theorem witness_TraceOnlyGrows : ∃ t, exec .wake State.reset = .next t := ⟨_, rfl⟩

end Sys2Proof.Tests
end

section
/-! PROOFS of the family 00_scope: an operation ends at rest (O23), and TRACE is a history (O58). -/

namespace Sys2Proof.Machine.Laws

/-! ## TRACE only grows (R10, R61) -/

theorem Keeps.trace_prefix {s t : State} (h : Keeps s t) : s.trace <+: t.trace :=
  let ⟨es, he⟩ := h.trace
  ⟨es, he.symm⟩

theorem keeps_inFlight (s : State) : Keeps s (inFlight s) := by
  unfold inFlight
  split
  · exact keeps_run 6 s
  · exact keeps_tick s

/-- Acceptance latches new operands, so a request is no `Keeps`; TRACE it leaves to the moves. -/
theorem trace_prefix_request (o : BitVec 3) (s : State) : s.trace <+: (request o s).trace := by
  unfold request
  split
  · exact List.prefix_rfl
  · exact ((keeps_dispatch (accept o s)).trans (keeps_run _ _)).trace_prefix

theorem trace_prefix_deliver (bs : List Byte) (s : State) : s.trace <+: (deliver bs s).trace := by
  unfold deliver
  split
  · exact (keeps_inFlight (present bs s)).trace_prefix
  · exact List.prefix_rfl

theorem trace_prefix_sendFrame (c : Byte) (data : List Byte) (s : State) : s.trace <+: (sendFrame c data s).trace := by
  rw [sendFrame_eq]
  exact List.prefix_append _ _

theorem trace_prefix_exchange (c : Byte) (bs : List Byte) (cap : U16) (s : State) :
    s.trace <+: (exchange c bs cap s).trace := by
  have hsend := trace_prefix_request opSendcmd (loadSend c bs s)
  have hread := trace_prefix_request opReadrsp
    (loadRead (Codec.add8 c 1) cap (request opSendcmd (loadSend c bs s)))
  simp only [exchange]
  split
  · exact hsend.trans hread
  · exact hsend

/-- No instruction faults or is refused by the model, and the state each answers has a longer TRACE or the same. -/
theorem exec_next_trace_prefix (i : Instr) (s : State) : ∃ t, exec i s = .next t ∧ s.trace <+: t.trace := by
  cases i with
  | wake | waitrdy | sendcmd | readrsp | sendack | reservedOp0 | reservedOp67 | init =>
    exact ⟨_, rfl, trace_prefix_request _ s⟩
  | rn | rx | stReady | stNotReady => exact ⟨_, rfl, trace_prefix_deliver _ s⟩
  | xchg c bs cap =>
    refine ⟨_, rfl, ?_⟩
    split
    · exact List.prefix_rfl
    · exact trace_prefix_exchange c bs cap s
  | cf c data =>
    refine ⟨_, rfl, ?_⟩
    split
    · exact trace_prefix_sendFrame c data s
    · exact List.prefix_rfl
  | ak =>
    refine ⟨_, rfl, ?_⟩
    split
    · exact (keeps_inFlight s).trace_prefix
    · exact trace_prefix_deliver _ s

/-! ## What SEL and BUSY say of SEQ between two moves (R22, R26) -/

/-- The two clauses of `State.Inv` an operation's end rests on: SEL is set exactly inside the Response Reader, and SEQ is IDLE
when BUSY is clear. Unlike the whole invariant they need nothing of the buffers, the records or the operands. -/
structure BetweenMoves (s : State) : Prop where
  selReader : s.sel = s.seq.inReader
  idle : s.busy = false → s.seq = .idle

theorem betweenMoves_raise (k : Kind) (x : DiagInfo) (s : State) : BetweenMoves (raise k x s) := by
  rw [raise_eq]
  exact ⟨rfl, fun _ => rfl⟩

theorem betweenMoves_succeed (n : U16) {s : State} (h : s.sel = false) : BetweenMoves (succeed n s) :=
  ⟨h, fun _ => rfl⟩

theorem BetweenMoves.of_busy {s : State} (hb : s.busy = true) (h : s.sel = s.seq.inReader) : BetweenMoves s :=
  ⟨h, fun hb' => absurd (hb.symm.trans hb') Bool.noConfusion⟩

/-- R124: a poll ends deselected in its own loop, or leaves by one of the two exits; the exit of a ready byte starts deselected. -/
theorem betweenMoves_poll {f g : State → State} {s : State} (hs : BetweenMoves s) (hb : s.busy = true)
    (hq : s.seq.inReader = false) (hf : ∀ t : State, t.busy = true → t.sel = false → BetweenMoves (f t))
    (hg : ∀ t, BetweenMoves (g t)) : BetweenMoves (poll f g s) := by
  simp only [poll, statusRead_eq, setCnt]
  split
  · split
    · exact hf _ hb rfl
    · split
      · exact ⟨hq.symm, hs.idle⟩
      · exact hg _
  · exact hg s

theorem scanLoop_sel_busy (n : Nat) (s : State) :
    (scanLoop n s).2.sel = s.sel ∧ (scanLoop n s).2.busy = s.busy := by
  induction n generalizing s with
  | zero => exact ⟨rfl, rfl⟩
  | succ n ih =>
    simp only [scanLoop]
    rw [busRead_first s]
    split
    · exact ⟨rfl, rfl⟩
    · exact ih _

theorem betweenMoves_dispatch {s : State} (hb : s.busy = true) (hq : s.seq = .idle) (hsel : s.sel = false) :
    BetweenMoves (dispatch s) := by
  have hrefuse : BetweenMoves (refuse s) := ⟨by simp [hsel, hq, Seq.inReader], fun _ => hq⟩
  unfold dispatch
  split
  · exact .of_busy hb hsel
  split
  · exact .of_busy hb hsel
  split
  · split
    · exact hrefuse
    · exact .of_busy hb hsel
  split
  · rw [rrEntry_eq]
    exact .of_busy hb rfl
  split
  · exact .of_busy hb hsel
  · exact hrefuse

/-- R22, R26: every move of a running operation keeps the two clauses. -/
theorem betweenMoves_tick {s : State} (hs : BetweenMoves s) (hb : s.busy = true) : BetweenMoves (tick s) := by
  have hsel := hs.selReader
  cases hq : s.seq <;> rw [hq] at hsel <;> simp only [tick, hq]
  case idle => exact betweenMoves_dispatch hb hq hsel
  case wkHold => exact betweenMoves_succeed 0 rfl
  case wrPoll =>
    exact betweenMoves_poll hs hb (by rw [hq]; rfl) (fun _ _ => betweenMoves_succeed 0)
      (betweenMoves_raise _ _)
  case sent =>
    rw [sent, sendFrame_eq]
    exact .of_busy hb rfl
  case awaitReady1 =>
    exact betweenMoves_poll hs hb (by rw [hq]; rfl) (fun _ hb' h => .of_busy hb' h)
      (betweenMoves_raise _ _)
  case ackCheck =>
    simp only [ackCheck, transfer, busDeselect, readAck_eq, openTransfer_eq]
    split
    · exact .of_busy hb rfl
    · exact betweenMoves_raise _ _ _
  case awaitReady2 =>
    exact betweenMoves_poll hs hb (by rw [hq]; rfl) (fun _ _ => betweenMoves_succeed 0)
      (betweenMoves_raise _ _)
  case saSend => exact betweenMoves_succeed 0 rfl
  case rrScan =>
    simp only [rrScan]
    obtain ⟨hscanSel, hscanBusy⟩ :=
      scanLoop_sel_busy s.cfg.scanBudget { s with work := { s.work with cnt := 0, pz := false } }
    split
    · exact .of_busy (hscanBusy.trans hb) (hscanSel.trans hsel)
    · exact betweenMoves_raise _ _ _
  case rrLen =>
    rw [rrLen_eq]
    simp only
    split
    · exact .of_busy hb hsel
    split
    · exact .of_busy hb hsel
    · exact betweenMoves_raise _ _ _
  case rrXlen =>
    rw [rrXlen_eq]
    simp only
    split
    · exact .of_busy hb hsel
    · exact betweenMoves_raise _ _ _
  case rrHdr =>
    rw [rrHdr_eq]
    simp only
    split
    · exact .of_busy hb hsel
    · exact betweenMoves_raise _ _ _
  case rrData =>
    rw [rrData_eq]
    exact .of_busy hb hsel
  case rrTail =>
    rw [rrTail_eq]
    simp only
    split
    · exact betweenMoves_succeed _ rfl
    · exact betweenMoves_raise _ _ _
  case done | failed => exact ⟨hsel, fun _ => rfl⟩

theorem betweenMoves_run (n : Nat) {s : State} (hs : BetweenMoves s) : BetweenMoves (run n s) := by
  induction n generalizing s with
  | zero => exact hs
  | succ n ih =>
    rw [run]
    split
    next hb => exact ih (betweenMoves_tick hs hb)
    next => exact hs

/-! ## Operations end at rest (R13, R195, R196) -/

/-- The machine between operations, deselected. -/
abbrev AtRest (s : State) : Prop := s.busy = false ∧ s.seq = .idle ∧ s.sel = false

/-- R13, R26, R197: a request of a machine at rest runs to its exit and leaves the machine at rest. -/
theorem atRest_request (o : BitVec 3) {s : State} (h : AtRest s) : AtRest (request o s) := by
  obtain ⟨hb, hq, hsel⟩ := h
  have hends : (request o s).busy = false := request_ends hb
  have hmoves : BetweenMoves (request o s) := by
    rw [request, hb]
    exact betweenMoves_run _ (betweenMoves_dispatch (s := accept o s) rfl hq hsel)
  have hidle := hmoves.idle hends
  exact ⟨hends, hidle, by rw [hmoves.selReader, hidle]; rfl⟩

/-- R180: XCHG is two requests at most, the second made by the machine the first left at rest. -/
theorem atRest_exchange (c : Byte) (bs : List Byte) (cap : U16) {s : State} (h : AtRest s) :
    AtRest (exchange c bs cap s) := by
  have hsend : AtRest (request opSendcmd (loadSend c bs s)) := atRest_request opSendcmd (s := loadSend c bs s) h
  simp only [exchange]
  split
  · exact atRest_request opReadrsp (s := loadRead _ _ _) hsend
  · exact hsend

end Sys2Proof.Machine.Laws

namespace Sys2Proof.Machine

open Laws

/-- Settles O23: every row but XCHG is one request, which ends (`request_ends`) and keeps `BetweenMoves`. -/
theorem operationsEnd : Obligations.OperationsEnd := by
  intro i s hi hb hq hsel
  have hrest : AtRest s := ⟨hb, hq, hsel⟩
  rcases hi with hrow | ⟨c, p, cap, rfl⟩
  · simp only [List.mem_cons, List.not_mem_nil, or_false] at hrow
    rcases hrow with rfl | rfl | rfl | rfl | rfl | rfl | rfl | rfl | rfl <;>
      exact ⟨_, rfl, atRest_request _ hrest⟩
  · refine ⟨exchange c p cap s, ?_, atRest_exchange c p cap hrest⟩
    simp [exec, execXchg, hb]

/-- Settles O58: every instruction answers one next state, whose TRACE starts with the old one. -/
theorem traceOnlyGrows : Obligations.TraceOnlyGrows := by
  intro i s t ht
  obtain ⟨u, hu, es, hes⟩ := exec_next_trace_prefix i s
  obtain rfl : u = t := Host.Outcome.next.inj (hu.symm.trans ht)
  exact ⟨es, hes.symm⟩

end Sys2Proof.Machine
end

section
/-! PROOFS of the family 10_state: what one move of the sequencer can do (O22), the invariant (O20, O21), the host's requests and
moves (O13, O16, O17, O19, O25, O26, O52), and what no instruction changes (O56). -/

namespace Sys2Proof.Machine.Laws

open Codec

/-! ## Select brackets of event lists (R26, R120) -/

theorem selAfter_append (sel : Bool) (es fs : List Event) :
    selAfter sel (es ++ fs) = (selAfter sel es).bind (selAfter · fs) := by
  induction es generalizing sel with
  | nil => rfl
  | cons e es ih => cases e <;> cases sel <;> simp [selAfter, ih]

theorem selAfter_append_of {sel m : Bool} {es fs : List Event} (h : selAfter sel es = some m) :
    selAfter sel (es ++ fs) = selAfter m fs := by
  rw [selAfter_append, h]; rfl

theorem selAfter_reads (bs : List Byte) : selAfter true (bs.map Event.rd) = some true := by
  induction bs with
  | nil => rfl
  | cons b bs ih => exact ih

theorem selAfter_writes (bs : List Byte) : selAfter true (bs.map Event.wr) = some true := by
  induction bs with
  | nil => rfl
  | cons b bs ih => exact ih

theorem selAfter_openEvents (cfg : Config) (pfx : Option Byte) : selAfter false (openEvents cfg pfx) = some true := by
  cases pfx <;> rfl

theorem selAfter_transferEvents (cfg : Config) (pfx : Option Byte) {body : List Event}
    (h : selAfter true body = some true) : selAfter false (transferEvents cfg pfx body) = some false := by
  rw [transferEvents, List.append_assoc, selAfter_append_of (selAfter_openEvents cfg pfx), selAfter_append_of h]
  rfl

/-! ## SEQ paths (R22) -/

theorem pathOk_append {p qs : List Seq} {q : Seq} (hp : pathOk p = true) (hl : p.getLast? = some q)
    (hq : pathOk (q :: qs) = true) : pathOk (p ++ qs) = true := by
  induction p with
  | nil => cases hl
  | cons a p ih =>
    cases p with
    | nil =>
      obtain rfl : a = q := Option.some.inj hl
      exact hq
    | cons b p =>
      simp only [pathOk, List.cons_append, Bool.and_eq_true] at hp ⊢
      exact ⟨hp.1, ih hp.2 hl⟩

theorem getLast?_append_of_getLast? {p qs : List Seq} {q : Seq} (hl : p.getLast? = some q) :
    (p ++ qs).getLast? = (q :: qs).getLast? := by
  rw [List.getLast?_append, hl, List.getLast?_cons]
  cases qs.getLast? <;> rfl

theorem pathOk_cons {p q : Seq} {qs : List Seq} (row : (p, q) ∈ seqTable) (h : pathOk (q :: qs) = true) :
    pathOk (p :: q :: qs) = true := by
  rw [pathOk, h, Bool.and_true]
  exact List.contains_iff_mem.mpr row

theorem row_of_seq {s : State} {p q : Seq} (hq : s.seq = p) (row : (p, q) ∈ seqTable) : (s.seq, q) ∈ seqTable := hq ▸ row

/-! ## What one move can do, said once (R22, R195, R196) -/

/-- What the work of a sequencer state leaves before the move's last assignment to SEQ: SEQ, its record and the result stand,
except that READRSP's entry clears RES_LEN (R151), and the events are well bracketed if SEL was right before them. -/
structure BusWork (s u : State) : Prop where
  seq : u.seq = s.seq
  path : u.path = s.path
  resKind : u.resKind = s.resKind
  resLen : u.resLen = s.resLen ∨ u.resLen = 0
  rxbuf : s.rxbuf.wf = true → u.rxbuf.wf = true
  events : s.sel = s.seq.inReader → ∃ es, u.trace = s.trace ++ es ∧ selAfter s.sel es = some u.sel

theorem BusWork.refl (s : State) : BusWork s s :=
  ⟨rfl, rfl, rfl, .inl rfl, id, fun _ => ⟨[], (List.append_nil _).symm, rfl⟩⟩

/-- The working registers are none of `BusWork`'s fields. -/
theorem busWork_work (s : State) (w : Work) : BusWork s { s with work := w } := { BusWork.refl s with }

theorem BusWork.trans {s u v : State} (h : BusWork s u) (hsel : u.sel = s.sel) (k : BusWork u v) : BusWork s v where
  seq := k.seq.trans h.seq
  path := k.path.trans h.path
  resKind := k.resKind.trans h.resKind
  resLen := k.resLen.elim (fun e => e ▸ h.resLen) .inr
  rxbuf := k.rxbuf ∘ h.rxbuf
  events hs := by
    obtain ⟨es, he, hes⟩ := h.events hs
    obtain ⟨fs, hf, hfs⟩ := k.events (by rw [hsel, h.seq, hs])
    exact ⟨es ++ fs, by rw [hf, he, List.append_assoc], by rw [selAfter_append_of hes, hfs]⟩

/-- A whole transfer, in a state outside the Response Reader. -/
theorem busWork_transfer {s : State} (hq : s.seq.inReader = false) (cfg : Config) (pfx : Option Byte) {body : List Event}
    (hbody : selAfter true body = some true) (script : List Byte) (draws : Nat) (w : Work) :
    BusWork s { s with
      sel := false, trace := s.trace ++ transferEvents cfg pfx body, script := script, draws := draws, work := w } where
  seq := rfl
  path := rfl
  resKind := rfl
  resLen := .inl rfl
  rxbuf := id
  events hs := ⟨_, rfl, by rw [hs, hq]; exact selAfter_transferEvents cfg pfx hbody⟩

/-- Bus reads inside the Response Reader. -/
theorem busWork_reads {s : State} (hq : s.seq.inReader = true) (n : Nat) (w : Work) :
    BusWork s { reads s n with work := w } where
  seq := rfl
  path := rfl
  resKind := rfl
  resLen := .inl rfl
  rxbuf := id
  events hs := ⟨_, rfl, by rw [show (reads s n).sel = s.sel from rfl, hs, hq]; exact selAfter_reads _⟩

theorem busWork_scanLoop (n : Nat) {s : State} (hq : s.seq.inReader = true) : BusWork s (scanLoop n s).2 := by
  induction n generalizing s with
  | zero => exact .refl s
  | succ n ih =>
    simp only [scanLoop]
    rw [busRead_first s]
    split
    · exact busWork_reads hq 1 _
    · exact (busWork_reads hq 1 _).trans rfl (ih hq)

/-- The bounds of R156 and R130 on the operands of the sequencer state `q`. -/
def OperandBound (q : Seq) (w : Work) : Prop :=
  match q with
  | .rrData | .rrTail => w.dlen.toNat ≤ 65533
  | .sent => w.txn.toNat ≤ Config.maxTxPayload
  | _ => True

/-- R22: what one move from `s` can do. -/
inductive Move (s : State) : State → Prop where
  /-- A ready loop goes on. -/
  | stay {u : State} (hq : inPoll s.seq = true) (h : BusWork s u) : Move s u
  /-- R194: a reserved code or a payload too long is refused at dispatch. -/
  | refuse (hq : s.seq = .idle) : Move s (refuse s)
  /-- The next sequencer state of the table, its operands in bounds. -/
  | enter {u : State} (q : Seq) (h : BusWork s u) (row : (s.seq, q) ∈ seqTable)
      (bound : OperandBound s.seq s.work → OperandBound q u.work) : Move s (setSeq q u)
  /-- R195. -/
  | succeed {u : State} (n : U16) (h : BusWork s u) (row : (s.seq, .done) ∈ seqTable)
      (bound : OperandBound s.seq s.work → n.toNat ≤ 65533) : Move s (succeed n u)
  /-- R196. -/
  | raise {u : State} (k : Kind) (x : DiagInfo) (h : BusWork s u) (row : (s.seq, .failed) ∈ seqTable) :
      Move s (raise k x u)

theorem Move.succeedZero {s u : State} (h : BusWork s u) (row : (s.seq, .done) ∈ seqTable) :
    Move s (Machine.succeed 0 u) :=
  .succeed 0 h row fun _ => Nat.zero_le _

theorem move_dispatch {s : State} (hq : s.seq = .idle) : Move s (dispatch s) := by
  unfold dispatch
  split
  · exact .enter .wkHold (.refl s) (row_of_seq hq (by decide)) fun _ => trivial
  split
  · exact .enter (u := setCnt 0 s) .wrPoll { BusWork.refl s with } (row_of_seq hq (by decide)) fun _ => trivial
  split
  · split
    · exact .refuse hq
    next htxn => exact .enter .sent (.refl s) (row_of_seq hq (by decide)) fun _ => Nat.le_of_not_lt htxn
  split
  · refine .enter (u := openTransfer s.cfg.pfxRead { s with resLen := 0 }) .rrScan ?_ (row_of_seq hq (by decide))
      fun _ => trivial
    rw [openTransfer_eq]
    exact { BusWork.refl s with
      resLen := .inr rfl
      events := fun hs => ⟨_, rfl, by rw [hs, hq]; exact selAfter_openEvents _ _⟩ }
  split
  · exact .enter .saSend (.refl s) (row_of_seq hq (by decide)) fun _ => trivial
  · exact .refuse hq

/-- R124: the three ready loops poll alike; only the exit of a ready byte differs. -/
theorem move_poll {s : State} (hq : inPoll s.seq = true) : Move s (tick s) := by
  have hexit : (∀ u, BusWork s u → Move s (onReady s.seq u)) ∧ (s.seq, .failed) ∈ seqTable
      ∧ s.seq.inReader = false := by
    cases h : s.seq
    case wrPoll | awaitReady2 =>
      exact ⟨fun _ hu => .succeedZero hu (row_of_seq h (by decide)), by decide, rfl⟩
    case awaitReady1 =>
      exact ⟨fun _ hu => .enter .ackCheck hu (row_of_seq h (by decide)) fun _ => trivial, by decide, rfl⟩
    all_goals rw [h] at hq; cases hq
  obtain ⟨hready, hfailed, hreader⟩ := hexit
  have hpolled : BusWork s (setCnt (s.work.cnt + 1) (statusRead s).2) := by
    rw [statusRead_eq]
    exact busWork_transfer hreader _ _ (selAfter_reads [s.answer 0]) _ _ _
  rw [tick_poll hq]
  simp only [poll]
  split
  · split
    · exact hready _ hpolled
    · split
      · exact .stay hq hpolled
      · exact .raise _ _ hpolled hfailed
  · exact .raise _ _ (.refl s) hfailed

/-- R130, for any frame: SENT writes one and goes on to the first ready loop. -/
theorem move_sendFrame (c : Byte) (data : List Byte) {s : State} (hq : s.seq = .sent) : Move s (sendFrame c data s) := by
  rw [sendFrame_eq]
  exact .enter .awaitReady1 (busWork_transfer (by rw [hq]; rfl) s.cfg s.cfg.pfxWrite (selAfter_writes _) s.script s.draws _)
    (row_of_seq hq (by decide)) fun _ => trivial

theorem busWork_wkHold {s : State} (hq : s.seq = .wkHold) (n : Nat) : BusWork s (busDeselect (delay n (busSelect s))) :=
  { BusWork.refl s with
    events := fun hs => ⟨[.sel, .dly n, .des], by simp, by rw [hs, hq]; rfl⟩ }

theorem busWork_readAck {s : State} (hq : s.seq = .ackCheck) : BusWork s (transfer s.cfg.pfxRead readAck s) := by
  simp only [transfer, busDeselect, readAck_eq, openTransfer_eq, List.append_assoc]
  simp only [← List.append_assoc (openEvents _ _)]
  exact busWork_transfer (by rw [hq]; rfl) _ _ (selAfter_reads _) _ _ _

theorem busWork_ackFrame {s : State} (hq : s.seq = .saSend) : BusWork s (transfer s.cfg.pfxWrite ackFrameBody s) := by
  simp only [transfer, busDeselect, ackFrameBody, writeBytes_eq, openTransfer_eq, List.append_assoc]
  simp only [← List.append_assoc (openEvents _ _)]
  exact busWork_transfer (by rw [hq]; rfl) _ _ (selAfter_writes _) _ _ _

/-- R33: what is reported is at most what was announced. -/
theorem reportedLen_le (s : State) : (reportedLen s).toNat ≤ s.work.dlen.toNat := by
  unfold reportedLen
  split <;> omega

/-- R156: a header that passes announces at most 65533 data bytes. -/
theorem dlen_le_of_headerOk {s : State} {hd hi : Byte} (h : headerOk s hd hi = true) :
    (s.work.len - 2).toNat ≤ 65533 := by
  simp only [headerOk, Bool.and_eq_true, decide_eq_true_eq] at h
  have hmin : 2 ≤ s.work.len.toNat := h.2
  bv_omega

theorem busWork_data {s : State} (hq : s.seq = .rrData) (n a : Nat) (bs : List Byte) (w : Work) :
    BusWork s { reads s n with rxbuf := Memory.writeAll s.rxbuf a bs, work := w } :=
  { busWork_reads (by rw [hq]; rfl) n w with
    rxbuf := Memory.writeAll_wf a bs }

theorem busWork_tail {s : State} (hq : s.seq = .rrTail) (w : Work) :
    BusWork s (busDeselect { reads s 2 with work := w }) :=
  { BusWork.refl s with
    events := fun hs => ⟨(s.answers 0 2).map .rd ++ [.des], by simp [reads], by
      rw [hs, hq]; exact selAfter_append_of (selAfter_reads _)⟩ }

/-- R22: every move of a running operation, in every state. -/
theorem move_tick (s : State) : Move s (tick s) := by
  cases hq : s.seq
  case wrPoll | awaitReady1 | awaitReady2 => exact move_poll (by rw [hq]; rfl)
  all_goals simp only [tick, hq]
  case idle => exact move_dispatch hq
  case wkHold => exact .succeedZero (busWork_wkHold hq _) (row_of_seq hq (by decide))
  case sent => exact move_sendFrame _ _ hq
  case ackCheck =>
    simp only [ackCheck]
    split
    · exact .enter (u := setCnt 0 (transfer s.cfg.pfxRead readAck s)) .awaitReady2 { busWork_readAck hq with }
        (row_of_seq hq (by decide)) fun _ => trivial
    · exact .raise _ _ (busWork_readAck hq) (row_of_seq hq (by decide))
  case saSend => exact .succeedZero (busWork_ackFrame hq) (row_of_seq hq (by decide))
  case rrScan =>
    have hscan := (busWork_work s { s.work with cnt := 0, pz := false }).trans rfl
      (busWork_scanLoop s.cfg.scanBudget (by rw [hq]; rfl))
    simp only [rrScan]
    split
    · exact .enter .rrLen hscan (row_of_seq hq (by decide)) fun _ => trivial
    · exact .raise _ _ hscan (row_of_seq hq (by decide))
  case rrLen =>
    have hread := busWork_reads (s := s) (by rw [hq]; rfl) 2
    rw [rrLen_eq]
    simp only
    split
    · exact .enter .rrXlen (hread _) (row_of_seq hq (by decide)) fun _ => trivial
    split
    · exact .enter .rrHdr (hread _) (row_of_seq hq (by decide)) fun _ => trivial
    · exact .raise _ _ (hread _) (row_of_seq hq (by decide))
  case rrXlen =>
    have hread := busWork_reads (s := s) (by rw [hq]; rfl) 3
    rw [rrXlen_eq]
    simp only
    split
    · exact .enter .rrHdr (hread _) (row_of_seq hq (by decide)) fun _ => trivial
    · exact .raise _ _ (hread _) (row_of_seq hq (by decide))
  case rrHdr =>
    have hread := busWork_reads (s := s) (by rw [hq]; rfl) 2
    rw [rrHdr_eq]
    simp only
    split
    next hok => exact .enter .rrData (hread _) (row_of_seq hq (by decide)) fun _ => dlen_le_of_headerOk hok
    next => exact .raise _ _ (hread _) (row_of_seq hq (by decide))
  case rrData =>
    have hdlen : OperandBound s.seq s.work → OperandBound .rrTail s.work := by rw [hq]; exact id
    rw [rrData, dataLoop_eq]
    exact .enter .rrTail (busWork_data hq _ 0 _ _) (row_of_seq hq (by decide)) hdlen
  case rrTail =>
    rw [rrTail_eq]
    simp only
    split
    · exact .succeed _ (busWork_tail hq _) (row_of_seq hq (by decide))
        (by rw [hq]; exact (reportedLen_le s).trans)
    · exact .raise _ _ (busWork_tail hq _) (row_of_seq hq (by decide))
  case done | failed =>
    exact .enter (u := { s with busy := false }) .idle { BusWork.refl s with } (row_of_seq hq (by decide)) fun _ => trivial

/-! ## What every move keeps -/

/-- R22: from `s` to `t` the path grows along the table and ends where SEQ stands. -/
def FollowsTable (s t : State) : Prop :=
  ∃ qs : List Seq, t.path = s.path ++ qs ∧ pathOk (s.seq :: qs) = true ∧ (s.seq :: qs).getLast? = some t.seq

theorem Move.followsTable {s t : State} (h : Move s t) : FollowsTable s t := by
  cases h with
  | stay hq h => exact ⟨[], by rw [h.path, List.append_nil], rfl, by rw [h.seq]; rfl⟩
  | refuse hq => exact ⟨[], (List.append_nil _).symm, rfl, rfl⟩
  | enter q h row _ => exact ⟨[q], by rw [setSeq_path, h.path], pathOk_cons row rfl, rfl⟩
  | succeed n h row _ => exact ⟨[.done, .idle], by rw [succeed_eq, h.path], pathOk_cons row (by decide), rfl⟩
  | raise k x h row =>
    exact ⟨[.failed, .idle], by rw [raise_eq, h.path], pathOk_cons row (by decide), by rw [raise_eq]; rfl⟩

theorem Move.events {s t : State} (h : Move s t) (hs : s.sel = s.seq.inReader) :
    ∃ es, t.trace = s.trace ++ es ∧ selAfter s.sel es = some t.sel := by
  cases h with
  | stay _ h | enter _ h | succeed _ h => exact h.events hs
  | refuse => exact (BusWork.refl s).events hs
  | @raise u k x h =>
    obtain ⟨es, he, hes⟩ := h.events hs
    rw [raise_eq]
    cases hu : u.sel with
    | false => exact ⟨es, by simp [he], by rw [hes, hu]⟩
    | true => exact ⟨es ++ [.des], by simp [he], by rw [selAfter_append_of hes, hu]; rfl⟩

theorem Move.rxbuf_wf {s t : State} (h : Move s t) (hs : s.rxbuf.wf = true) : t.rxbuf.wf = true := by
  cases h with
  | stay _ h | enter _ h | succeed _ h => exact h.rxbuf hs
  | refuse => exact hs
  | raise k x h =>
    rw [raise_eq]
    exact h.rxbuf hs

theorem operandBound_of_inPoll {q : Seq} (hq : inPoll q = true) (w : Work) : OperandBound q w := by
  cases q
  case wrPoll | awaitReady1 | awaitReady2 => trivial
  all_goals cases hq

theorem Move.operandBound {s t : State} (h : Move s t) (hs : OperandBound s.seq s.work) : OperandBound t.seq t.work := by
  cases h with
  | stay hq h => exact operandBound_of_inPoll (by rw [h.seq]; exact hq) _
  | refuse => exact hs
  | enter q _ _ bound => exact bound hs
  | succeed => trivial
  | raise =>
    rw [raise_eq]
    trivial

/-- R33, R190, R30: the two clauses of `State.Inv` on the result. -/
structure ResultOk (s : State) : Prop where
  failZero : s.resKind ≠ .ok → s.resLen = 0
  lenBound : s.resLen.toNat ≤ 65533

theorem ResultOk.of_zero {s : State} (h : s.resLen = 0) : ResultOk s :=
  ⟨fun _ => h, by rw [h]; exact Nat.zero_le _⟩

theorem BusWork.resultOk {s u : State} (h : BusWork s u) (hs : ResultOk s) : ResultOk u := by
  rcases h.resLen with hlen | hlen
  · exact ⟨by rw [h.resKind, hlen]; exact hs.failZero, by rw [hlen]; exact hs.lenBound⟩
  · exact .of_zero hlen

theorem Move.resultOk {s t : State} (h : Move s t) (hop : OperandBound s.seq s.work) (hs : ResultOk s) : ResultOk t := by
  cases h with
  | stay _ h | enter _ h =>
    have hu := h.resultOk hs
    exact ⟨hu.failZero, hu.lenBound⟩
  | refuse => exact .of_zero rfl
  | succeed n _ _ bound => exact ⟨fun hk => absurd rfl hk, bound hop⟩
  | raise => exact .of_zero (by rw [raise_eq])

/-! ## The invariant -/

theorem inv_resultOk {s : State} (h : s.Inv) : ResultOk s := ⟨h.failZero, h.lenBound⟩

theorem inv_operandBound {s : State} (h : s.Inv) : OperandBound s.seq s.work := by
  have hdlen := h.dlenBound
  have htxn := h.txnBound
  cases hq : s.seq
  case rrData => exact hdlen (.inl hq)
  case rrTail => exact hdlen (.inr hq)
  case sent => exact htxn hq
  all_goals trivial

theorem dlen_le_of_operandBound {s : State} (h : OperandBound s.seq s.work) (hq : s.seq = .rrData ∨ s.seq = .rrTail) :
    s.work.dlen.toNat ≤ 65533 := by
  rcases hq with hq | hq <;> rw [hq] at h <;> exact h

theorem txn_le_of_operandBound {s : State} (h : OperandBound s.seq s.work) (hq : s.seq = .sent) :
    s.work.txn.toNat ≤ Config.maxTxPayload := by
  rw [hq] at h
  exact h

/-- A move keeps the invariant, if it leaves TXBUF alone and SEL and BUSY as they are between moves. -/
theorem Move.inv {s t : State} (h : Move s t) (hs : s.Inv) (htx : t.txbuf = s.txbuf) (ht : BetweenMoves t) : t.Inv := by
  obtain ⟨qs, hpath, hrows, hlast⟩ := h.followsTable
  obtain ⟨es, htrace, hsel⟩ := h.events hs.selReader
  have hop := h.operandBound (inv_operandBound hs)
  have hres := h.resultOk (inv_operandBound hs) (inv_resultOk hs)
  exact
    { txWf := by rw [htx]; exact hs.txWf
      rxWf := h.rxbuf_wf hs.rxWf
      pathOk := by rw [hpath]; exact pathOk_append hs.pathOk hs.pathLast hrows
      pathLast := by rw [hpath, getLast?_append_of_getLast? hs.pathLast, hlast]
      bracket := by rw [htrace, selAfter_append_of hs.bracket, hsel]
      selReader := ht.selReader
      idle := ht.idle
      failZero := hres.failZero
      lenBound := hres.lenBound
      dlenBound := dlen_le_of_operandBound hop
      txnBound := txn_le_of_operandBound hop }

theorem inv_tick {s : State} (hs : s.Inv) (hb : s.busy = true) : (tick s).Inv :=
  (move_tick s).inv hs (keeps_tick s).txbuf (betweenMoves_tick ⟨hs.selReader, hs.idle⟩ hb)

theorem inv_run (n : Nat) {s : State} (hs : s.Inv) : (run n s).Inv := by
  induction n generalizing s with
  | zero => exact hs
  | succ n ih =>
    rw [run]
    split
    next hb => exact ih (inv_tick hs hb)
    next => exact hs

theorem inv_inFlight {s : State} (hs : s.Inv) (hb : s.busy = true) : (inFlight s).Inv := by
  unfold inFlight
  split
  · exact inv_run 6 hs
  · exact inv_tick hs hb

theorem inv_present (bs : List Byte) {s : State} (hs : s.Inv) : (present bs s).Inv := { hs with }

theorem inv_deliver (bs : List Byte) {s : State} (hs : s.Inv) : (deliver bs s).Inv := by
  unfold deliver
  split
  next hb => exact inv_inFlight (inv_present bs hs) hb
  next => exact inv_present bs hs

theorem busy_of_inv {s : State} (hs : s.Inv) (hq : s.seq ≠ .idle) : s.busy = true :=
  Bool.eq_true_of_not_eq_false fun hb => hq (hs.idle hb)

theorem inv_sendFrame (c : Byte) (data : List Byte) {s : State} (hs : s.Inv) (hq : s.seq = .sent) :
    (sendFrame c data s).Inv := by
  have hb : s.busy = true := busy_of_inv hs (by rw [hq]; decide)
  refine (move_sendFrame c data hq).inv hs ?_ ?_ <;> rw [sendFrame_eq]
  exact .of_busy hb rfl

theorem inv_accept (o : BitVec 3) {s : State} (hs : s.Inv) (hb : s.busy = false) : (accept o s).Inv :=
  have hq : s.seq = .idle := hs.idle hb
  { hs with
    idle := fun h => absurd h Bool.noConfusion
    txnBound := fun h => absurd (hq.symm.trans h) Seq.noConfusion }

theorem inv_request (o : BitVec 3) {s : State} (hs : s.Inv) : (request o s).Inv := by
  unfold request
  split
  next => exact hs
  next hb =>
    have hb : s.busy = false := Bool.eq_false_of_not_eq_true hb
    have hdispatch : tick (accept o s) = dispatch (accept o s) := by simp only [tick, accept_seq, hs.idle hb]
    have hd : (dispatch (accept o s)).Inv := hdispatch ▸ inv_tick (inv_accept o hs hb) rfl
    exact inv_run _ hd

theorem inv_refuse {s : State} (hs : s.Inv) (hb : s.busy = false) : (refuse s).Inv :=
  { hs with
    idle := fun _ => hs.idle hb
    failZero := fun _ => rfl
    lenBound := Nat.zero_le _ }

theorem inv_exchange (c : Byte) (bs : List Byte) (cap : U16) {s : State} (hs : s.Inv) : (exchange c bs cap s).Inv := by
  have hload : (loadSend c bs s).Inv := { hs with txWf := Memory.writeAll_wf 0 bs hs.txWf }
  have hsend := inv_request opSendcmd hload
  simp only [exchange]
  split
  · exact inv_request opReadrsp (s := loadRead _ _ _) { hsend with }
  · exact hsend

theorem exec_inv (i : Instr) {s t : State} (hs : s.Inv) (ht : exec i s = .next t) : t.Inv := by
  cases i <;> cases ht
  case wake | waitrdy | sendcmd | readrsp | sendack | reservedOp0 | reservedOp67 | init => exact inv_request _ hs
  case rn | rx | stReady | stNotReady => exact inv_deliver _ hs
  case xchg c bs cap =>
    split
    · exact hs
    · exact inv_exchange c bs cap hs
  case cf c data =>
    split
    next h => exact inv_sendFrame c data hs h.1
    next => exact hs
  case ak =>
    split
    next h =>
      rw [Bool.and_eq_true] at h
      exact inv_inFlight hs h.1
    next => exact inv_deliver _ hs

/-! ## What a step runs -/

/-- `u` is `s` but for the environment's answers and the host's list. -/
def SameButInputs (s u : State) : Prop :=
  ∃ script draws host, u = { s with script := script, draws := draws, host := host }

theorem fetchInbound_inputs {code : Code} {f : List Byte → State} {s u : State} {i : Instr}
    (hf : ∀ rest, SameButInputs s (f rest)) (h : fetchInbound code f = some (i, u)) : SameButInputs s u := by
  unfold fetchInbound at h
  split at h
  next rest _ =>
    obtain rfl := congrArg Prod.snd (Option.some.inj h)
    exact hf rest
  next => cases h

theorem fetchWire_inputs {s u : State} {i : Instr} (h : fetchWire s = some (i, u)) : SameButInputs s u := by
  unfold fetchWire at h
  split at h
  case h_1 | h_2 | h_3 | h_4 =>
    split at h
    · exact fetchInbound_inputs (fun _ => ⟨_, _, _, rfl⟩) h
    · cases h
  case h_5 | h_6 | h_7 => exact fetchInbound_inputs (fun _ => ⟨_, _, _, rfl⟩) h
  all_goals cases h

theorem fetchHost_inputs {s u : State} {i : Instr} (h : fetchHost s = some (i, u)) : SameButInputs s u := by
  unfold fetchHost at h
  split at h
  next => cases h
  next m rest _ =>
    split at h
    next code _ =>
      obtain ⟨j, _, hj⟩ := Option.map_eq_some_iff.mp h
      obtain rfl := congrArg Prod.snd hj
      exact ⟨_, _, rest, rfl⟩
    next => cases h

/-- The instruction a step meets is run in the machine as it stands, but for its inputs. -/
theorem fetch_inputs {s u : State} {i : Instr} (h : fetch s = some (i, u)) : SameButInputs s u := by
  unfold fetch at h
  split at h
  · exact fetchWire_inputs h
  · exact fetchHost_inputs h

theorem fetch_inv {s u : State} {i : Instr} (hs : s.Inv) (h : fetch s = some (i, u)) : u.Inv := by
  obtain ⟨script, draws, host, rfl⟩ := fetch_inputs h
  exact { hs with }

theorem hostWrite_inv {r : HostReg} {v : U16} {s t : State} (hs : s.Inv) (h : hostWrite r v s = .next t) : t.Inv := by
  cases r <;> cases h <;> exact { hs with }

theorem hostAct_inv {s t : State} (hs : s.Inv) (hb : s.busy = false) (h : hostAct s = .next t) : t.Inv := by
  unfold hostAct at h
  split at h
  case h_1 => cases h; exact hs
  case h_2 r v rest _ => exact hostWrite_inv (s := { s with host := rest }) { hs with } h
  case h_3 bs rest _ => cases h; exact { hs with txWf := Memory.writeAll_wf 0 bs hs.txWf }
  case h_4 bs rest _ => cases h; exact { hs with rxWf := Memory.writeAll_wf 0 bs hs.rxWf }
  case h_5 rest _ => cases h; exact { hs with }
  case h_6 rest _ => cases h; exact inv_refuse (s := { s with host := rest }) { hs with } hb

/-- R31: with BUSY clear and no request pending, a step is the host's next move. -/
theorem step_hostAct {s : State} (hb : s.busy = false) (h : fetchHost s = none) : step s = hostAct s := by
  simp [step, fetch, noInstr, hb, h]

/-- A host move that is no request is not fetched. -/
theorem step_hostAct_of_move {s : State} {m : HostMove} {rest : List HostMove} (hb : s.busy = false)
    (hs : s.host = m :: rest) (hm : hostCode m = none) : step s = hostAct s :=
  step_hostAct hb (by simp [fetchHost, hs, hm])

/-- R30: a write to a register other than OP is no request. -/
theorem step_write {s : State} {r : HostReg} {v : U16} {rest : List HostMove} (hb : s.busy = false) (hr : r ≠ .op)
    (hs : s.host = .write r v :: rest) : step s = hostWrite r v { s with host := rest } := by
  have hm : hostCode (.write r v) = none := by
    cases r with
    | op => exact absurd rfl hr
    | argCmd | argTxn | argExp | argCap | status | resKind | resLen => rfl
  rw [step_hostAct_of_move hb hs hm]
  simp only [hostAct, hs]

/-! ## Requests -/

theorem encode_decodeOp : ∀ o : BitVec 3, encode (decodeOp o) = .op o := by decide

/-- R80, R81: a row of the host port is run as the request of its code. -/
theorem exec_of_encode_op {i : Instr} {o : BitVec 3} (h : encode i = .op o) (s : State) :
    exec i s = .next (request o s) := by
  cases i <;> cases h <;> rfl

theorem exec_decodeOp (o : BitVec 3) (s : State) : exec (decodeOp o) s = .next (request o s) :=
  exec_of_encode_op (encode_decodeOp o) s

/-- R31: with BUSY set a request has no effect. -/
theorem request_busy {s : State} (hb : s.busy = true) (o : BitVec 3) : request o s = s := by simp [request, hb]

/-- R31, R64: from acceptance on, a request changes neither the operands nor anything else a move keeps. -/
theorem keeps_request {s : State} (hb : s.busy = false) (o : BitVec 3) : Keeps (accept o s) (request o s) := by
  simp only [request, hb, Bool.false_eq_true, if_false]
  exact (keeps_dispatch _).trans (keeps_run _ _)

/-! ## What an instruction leaves unchanged -/

/-- R34, R30, R51: the configuration, the host's list, the ARG_ registers and TXBUF stand. -/
structure HostSideKept (s t : State) : Prop where
  cfg : t.cfg = s.cfg
  host : t.host = s.host
  args : t.args = s.args
  txbuf : t.txbuf = s.txbuf

theorem HostSideKept.refl (s : State) : HostSideKept s s := ⟨rfl, rfl, rfl, rfl⟩

theorem Keeps.hostSideKept {s t : State} (h : Keeps s t) : HostSideKept s t := ⟨h.cfg, h.host, h.args, h.txbuf⟩

theorem hostSideKept_request (o : BitVec 3) (s : State) : HostSideKept s (request o s) := by
  cases hb : s.busy with
  | true => rw [request_busy hb]; exact .refl s
  | false => exact { (keeps_request hb o).hostSideKept with }

theorem hostSideKept_deliver (bs : List Byte) (s : State) : HostSideKept s (deliver bs s) := by
  unfold deliver
  split
  · exact { (keeps_inFlight (present bs s)).hostSideKept with }
  · exact { HostSideKept.refl s with }

/-- Every instruction but XCHG, which is the host's own program. -/
theorem exec_hostSideKept {i : Instr} {s t : State} (hi : ∀ c p cap, i ≠ .xchg c p cap) (ht : exec i s = .next t) :
    HostSideKept s t := by
  cases i <;> cases ht
  case wake | waitrdy | sendcmd | readrsp | sendack | reservedOp0 | reservedOp67 | init => exact hostSideKept_request _ s
  case rn | rx | stReady | stNotReady => exact hostSideKept_deliver _ s
  case xchg c p cap => exact absurd rfl (hi c p cap)
  case cf c data =>
    split
    · rw [sendFrame_eq]; exact { HostSideKept.refl s with }
    · exact .refl s
  case ak =>
    split
    · exact (keeps_inFlight s).hostSideKept
    · exact hostSideKept_deliver _ s

/-- R180: XCHG's two requests leave TXBUF as the host filled it. -/
theorem exchange_frame (c : Byte) (bs : List Byte) (cap : U16) (s : State) :
    (exchange c bs cap s).cfg = s.cfg ∧ (exchange c bs cap s).host = s.host
      ∧ (exchange c bs cap s).txbuf = Memory.writeAll s.txbuf 0 bs := by
  have hsend := hostSideKept_request opSendcmd (loadSend c bs s)
  have hread := hostSideKept_request opReadrsp
    (loadRead (Codec.add8 c 1) cap (request opSendcmd (loadSend c bs s)))
  simp only [exchange]
  split
  · exact ⟨hread.cfg.trans hsend.cfg, hread.host.trans hsend.host, hread.txbuf.trans hsend.txbuf⟩
  · exact ⟨hsend.cfg, hsend.host, hsend.txbuf⟩

/-- R51, R84: a buffer after the host filled it from index 0. -/
theorem read_fill {m : Memory} (hm : m.wf = true) (bs : List Byte) (a : Nat) :
    (Memory.writeAll m 0 bs).read a = if a < bs.length then bs[a]?.getD 0 else m.read a := by
  rw [Memory.read_writeAll hm]
  simp [Memory.fill]

end Sys2Proof.Machine.Laws

namespace Sys2Proof.Machine

open Laws

/-- Settles O21: what the step runs, an instruction or a bare move, keeps the invariant. -/
theorem stepKeepsTheInvariant : Obligations.StepKeepsTheInvariant := by
  intro s s' hs hstep
  unfold step at hstep
  split at hstep
  next i u hfetch => exact exec_inv i (fetch_inv hs hfetch) hstep
  next =>
    unfold noInstr at hstep
    split at hstep
    next hb =>
      cases hstep
      exact inv_inFlight hs hb
    next hb => exact hostAct_inv hs (Bool.eq_false_of_not_eq_true hb) hstep

/-- Settles O16: none of these moves is fetched as an instruction, so each step is `hostAct`. -/
theorem hostMovesBetweenOperations : Obligations.HostMovesBetweenOperations := by
  intro s v bs rest hb
  refine ⟨fun hs => ?_, step_write hb (by decide), step_write hb (by decide), step_write hb (by decide),
    step_write hb (by decide), fun r hr hs => ?_, fun hs hwf => ?_, fun hs hwf => ?_, fun c cap hs hlong => ?_⟩
  · rw [step_hostAct hb (by simp [fetchHost, hs])]
    simp only [hostAct, hs]
  · rcases hr with rfl | rfl | rfl <;> exact step_write hb (by decide) hs
  · rw [step_hostAct_of_move hb hs rfl]
    exact ⟨{ s with txbuf := Memory.writeAll s.txbuf 0 bs, host := rest }, by simp only [hostAct, hs], rfl, read_fill hwf bs⟩
  · rw [step_hostAct_of_move hb hs rfl]
    exact ⟨{ s with rxbuf := Memory.writeAll s.rxbuf 0 bs, host := rest }, by simp only [hostAct, hs], rfl, read_fill hwf bs⟩
  · have hline : fetchHost s = none := by
      simp [fetchHost, hs, hostCode, decode, Config.maxTxPayload, Nat.not_le.mpr hlong, instrOf]
    rw [step_hostAct hb hline]
    simp [hostAct, hs, refuse, hb]

/-- Settles O22: every move is one of `Move`'s, and each of those walks the table. -/
theorem movesFollowTheTransitionTable : Obligations.MovesFollowTheTransitionTable :=
  fun s => (move_tick s).followsTable

/-- Settles O26: the request keeps what acceptance latched. -/
theorem acceptanceLatchesTheOperands : Obligations.AcceptanceLatchesTheOperands := by
  intro s o hb
  have hkeeps := keeps_request hb o
  exact ⟨request o s, exec_decodeOp o s, hkeeps.args, hkeeps.latch⟩

/-- Settles O56: XCHG writes TXBUF only through `loadSend`; every other instruction leaves the host's side alone. -/
theorem frameOfEveryInstruction : Obligations.FrameOfEveryInstruction := by
  intro i s t hwf ht
  by_cases hi : ∃ c p cap, i = .xchg c p cap
  · obtain ⟨c, p, cap, rfl⟩ := hi
    have hframe : t.cfg = s.cfg ∧ t.host = s.host ∧ ∀ a, p.length ≤ a → t.txbuf.read a = s.txbuf.read a := by
      cases ht
      split
      · exact ⟨rfl, rfl, fun _ _ => rfl⟩
      · obtain ⟨hcfg, hhost, htx⟩ := exchange_frame c p cap s
        exact ⟨hcfg, hhost, fun a ha => by rw [htx, read_fill hwf, if_neg (Nat.not_lt.mpr ha)]⟩
    obtain ⟨hcfg, hhost, hread⟩ := hframe
    refine ⟨hcfg, hhost, ?_, fun hne => absurd rfl (hne c p cap)⟩
    rintro _ _ _ ⟨⟩
    exact hread
  · have hne : ∀ c p cap, i ≠ .xchg c p cap := fun c p cap h => hi ⟨c, p, cap, h⟩
    have hkept := exec_hostSideKept hne ht
    exact ⟨hkept.cfg, hkept.host, fun c p cap h => absurd h (hne c p cap),
      fun _ => ⟨hkept.args, fun _ => by rw [hkept.txbuf]⟩⟩

/-- Settles O13: with BUSY clear a step fetches from the host's list. -/
theorem stepRunsTheHostsRequest : Obligations.StepRunsTheHostsRequest := by
  intro s m rest code i left hb hs hcode hdecode
  have hfetch : fetchHost s = some (i, { s with host := rest }) := by
    simp [fetchHost, hs, hcode, hdecode, instrOf]
  simp [step, fetch, hb, hfetch]

/-- Settles O17: a register narrower than the port reads as its value; STATUS and RES_KIND by their few values. -/
theorem hostReads : Obligations.HostReads := by
  intro s
  have hwiden (b : Byte) : (b.setWidth 16).toNat = b.toNat := by simp; omega
  refine ⟨rfl, hwiden _, hwiden _, hwiden _, rfl, ?_, ?_, rfl⟩
  · simp only [hostRead, statusReg]
    cases s.busy <;> rfl
  · simp only [hostRead]
    cases s.resKind <;> rfl

/-- Settles O19: each value as `State.reset` gives it; with an empty list the host has nothing to run. -/
theorem resetValues : Obligations.ResetValues :=
  ⟨rfl, rfl, rfl, rfl, rfl, rfl, rfl, rfl, step_hostAct rfl rfl⟩

/-- Settles O20: clause by clause on the state after reset. -/
theorem resetMeetsTheInvariant : Obligations.ResetMeetsTheInvariant where
  txWf := rfl
  rxWf := rfl
  pathOk := rfl
  pathLast := rfl
  bracket := rfl
  selReader := rfl
  idle _ := rfl
  failZero _ := rfl
  lenBound := by decide
  dlenBound _ := by decide
  txnBound _ := by decide

/-- Settles O25: each is a request or XCHG's program, and both look at BUSY first. -/
theorem requestWhileBusyHasNoEffect : Obligations.RequestWhileBusyHasNoEffect := by
  intro s o c p cap hb
  refine ⟨?_, ?_, ?_⟩
  · rw [exec_decodeOp, request_busy hb]
  · exact congrArg Host.Outcome.next (request_busy hb opWake)
  · exact congrArg Host.Outcome.next (if_pos hb)

/-- Settles O52: the five rows met at an inbound port are all delivered, and an idle machine only keeps the bytes. -/
theorem inboundBytesWaitWhileIdle : Obligations.InboundBytesWaitWhileIdle := by
  intro s i bs hb hport
  have hdeliver (bs : List Byte) : deliver bs s = present bs s := by simp [deliver, hb]
  rcases hport with hack | hstatus | hresponse
  · cases i <;> cases hack
    rw [exec, execAk, if_neg (by simp [hb])]
    exact congrArg Host.Outcome.next (hdeliver _)
  · cases i <;> cases hstatus <;> exact congrArg Host.Outcome.next (hdeliver _)
  · cases i <;> cases hresponse <;> exact congrArg Host.Outcome.next (hdeliver _)

end Sys2Proof.Machine
end

section
/-! PROOFS of the family 20_memory: one blocking call is its single steps (O24), and who writes RXBUF and where (O57). -/

namespace Sys2Proof.Codec.Laws

/-! ## What the decoder reads is what the encoder writes (R70 to R74), for the ports of a running operation -/

theorem lenByte_toNat {n : Nat} (h : n ≤ Config.maxTxPayload) : (lenByte n).toNat = n + 2 := by
  simp only [Config.maxTxPayload] at h
  simp only [lenByte, BitVec.toNat_ofNat]
  omega

/-- R70: a command frame decodes to itself, with any bytes behind it. -/
theorem decodeCommand_encodeFrame (c : Byte) {data : List Byte} (h : data.length ≤ Config.maxTxPayload)
    (more : List Byte) : decodeCommand (encodeFrame c data ++ more) = .ok (.cf c data, more) := by
  have hdata : (data ++ ([dcs Config.tfiHostToChip c data, Config.postamble] ++ more)).take
      (dataLen (lenByte data.length).toNat) = data := by
    rw [dataLen, lenByte_toNat h, Nat.add_sub_cancel, List.take_left]
  have hframe : encodeFrame c data ++ more = Config.preamble :: Config.start1 :: Config.start2 :: lenByte data.length
      :: lcs (lenByte data.length) :: Config.tfiHostToChip :: c
      :: (data ++ ([dcs Config.tfiHostToChip c data, Config.postamble] ++ more)) := by
    simp [encodeFrame]
  rw [hframe]
  simp only [decodeCommand]
  rw [hdata, ← hframe, if_pos List.take_left, List.drop_left]

/-- R74: bits [7:1] and bit 0 are the whole status byte. -/
theorem statusByte_extract (b : Byte) : statusByte (b.extractLsb' 1 7) (BitVec.ofBool (b.getLsbD 0)) = b := by
  apply BitVec.eq_of_getLsbD_eq
  intro j hj
  rw [statusByte, BitVec.getLsbD_append]
  split
  next h =>
    obtain rfl : j = 0 := by omega
    simp
  next h =>
    rw [BitVec.getLsbD_extractLsb', show 1 + (j - 1) = j by omega]
    simp only [show j - 1 < 7 by omega, decide_true, Bool.true_and]

/-- R74: no bit of a status byte is dropped. -/
theorem encode_decodeStatus (b : Byte) : encode (decodeStatus b) = .status [b] := by
  have hb := statusByte_extract b
  unfold decodeStatus
  split
  next h =>
    rw [h] at hb
    exact congrArg (Code.status [·]) hb
  next h =>
    rw [Bool.eq_false_of_not_eq_true h] at hb
    exact congrArg (Code.status [·]) hb

/-- R73. -/
theorem decodeAck_ok {bs rest : List Byte} {i : Instr} (h : decodeAck bs = .ok (i, rest)) :
    i = .ak ∧ bs = Config.ackSeq ++ rest := by
  unfold decodeAck at h
  split at h
  · cases h
  split at h
  next hack =>
    cases h
    rw [isAck, beq_iff_eq] at hack
    exact ⟨rfl, by rw [← hack, List.take_append_drop]⟩
  next => cases h

/-- R71, R72: what follows the length field of a response. -/
theorem decodeBody_some {n : Nat} {bs d rest : List Byte} {t r x p : Byte}
    (h : decodeBody n bs = some ((t, r, d, x, p), rest)) : bs = t :: r :: (d ++ x :: p :: rest) := by
  unfold decodeBody at h
  split at h
  next t' r' tail =>
    split at h
    next x' p' more hdrop =>
      cases h
      rw [← hdrop, List.take_append_drop]
    next => cases h
  next => cases h

/-- R71, R72, R78: the instruction a response decodes to is the frame at the front of the stream, noise included. -/
theorem decodeResponse_ok {bs rest : List Byte} {i : Instr} (h : decodeResponse bs = .ok (i, rest)) :
    ∃ frame, encode i = .response frame ∧ bs = frame ++ rest := by
  unfold decodeResponse at h
  split at h
  next => cases h
  next noise l0 l1 tail hsplit =>
    obtain ⟨rfl, -⟩ := splitStart_some hsplit
    split at h
    next hmark =>
      simp only [isExtMark, Bool.and_eq_true, beq_iff_eq] at hmark
      obtain ⟨rfl, rfl⟩ := hmark
      split at h
      next m l k body =>
        split at h
        next hbody =>
          cases h
          exact ⟨_, rfl, by rw [decodeBody_some hbody]; simp [encodeRx]⟩
        next => cases h
      next => cases h
    next =>
      split at h
      next hbody =>
        cases h
        exact ⟨_, rfl, by rw [decodeBody_some hbody]; simp [encodeRn]⟩
      next => cases h
  next => cases h

end Sys2Proof.Codec.Laws

namespace Sys2Proof.Machine.Laws

open Codec Codec.Laws

/-! ## Answers framed first and answers read one by one come to the same (log 1, log 2) -/

/-- The next `n` answers taken off the stream, as `fetchWire` frames them, and presented again, as their format's meaning does:
where the script was used up, free draws have become script, so this need not be `s`. -/
def reframed (n : Nat) (s : State) : State := present (s.answers 0 n) (s.skip n)

theorem reframed_answers (n : Nat) (s : State) : (reframed n s).answers 0 n = s.answers 0 n := by
  have h := answers_script (reframed n s) (s.answers 0 n) (s.skip n).script rfl
  rwa [answers_length] at h

theorem reframed_skip (n : Nat) (s : State) : (reframed n s).skip n = s.skip n := by
  simp [reframed, present, State.skip]

theorem statusRead_reframed (s : State) : statusRead (reframed 1 s) = statusRead s := by
  have hanswer : (reframed 1 s).answer 0 = s.answer 0 := by
    simpa only [answers_succ, answers_zero, List.cons.injEq, and_true] using reframed_answers 1 s
  rw [statusRead_eq, statusRead_eq, reframed_skip, hanswer]
  rfl

/-- R124: a poll with budget left reads the one status byte. -/
theorem tick_reframed_poll {s : State} (hq : inPoll s.seq = true) (h : s.work.cnt < s.cfg.readyPollBudget) :
    tick (reframed 1 s) = tick s := by
  have h' : (reframed 1 s).work.cnt < (reframed 1 s).cfg.readyPollBudget := h
  rw [tick_poll hq, tick_poll (s := reframed 1 s) hq, poll, poll, if_pos h, if_pos h', statusRead_reframed]
  rfl

/-- R132: the ACK check reads the six bytes. -/
theorem tick_reframed_ack {s : State} (hq : s.seq = .ackCheck) : tick (reframed 6 s) = tick s := by
  have hack : ackOf (reframed 6 s) 0 = ackOf s 0 := ackOf_eq (by rw [reframed_answers, ackOf_toList])
  rw [tick_ack hq, tick_ack (x := reframed 6 s) hq]
  simp only [reframed_answers, reframed_skip, hack]
  rfl

/-! ## A step with BUSY set is the running operation's next move (log 1) -/

/-- R74, R73, R71: a wire format met inbound is delivered to the machine (log 9). -/
theorem exec_inbound {i : Instr} {bs : List Byte} {s : State} (hq : s.seq ≠ .saSend)
    (hport : encode i = .status bs ∨ encode i = .ack bs ∨ encode i = .response bs) :
    exec i s = .next (deliver bs s) := by
  rcases hport with h | h | h
  · cases i <;> cases h <;> rfl
  · cases i <;> cases h
    rw [exec, execAk, if_neg (by simp [hq])]
  · cases i <;> cases h <;> rfl

theorem fetchInbound_some {code : Code} {f : List Byte → State} {u : State} {i : Instr}
    (h : fetchInbound code f = some (i, u)) : ∃ rest, decode code = .ok (i, rest) ∧ u = f rest := by
  unfold fetchInbound at h
  split at h
  next j rest hdecode =>
    cases h
    exact ⟨rest, hdecode, rfl⟩
  next => cases h

theorem deliver_busy {s : State} (hb : s.busy = true) (bs : List Byte) : deliver bs s = inFlight (present bs s) :=
  if_pos hb

theorem inFlight_outside {s : State} (hq : s.seq.inReader = false) : inFlight s = tick s := by rw [inFlight, hq]; rfl

/-- A format framed out of the next `n` answers is the next move, if that move reads all `n` of them. -/
theorem exec_reframed {s : State} {n : Nat} {i : Instr} (hb : s.busy = true) (hreader : s.seq.inReader = false)
    (hsend : s.seq ≠ .saSend) (htick : tick (reframed n s) = tick s)
    (hport : encode i = .status (s.answers 0 n) ∨ encode i = .ack (s.answers 0 n)
      ∨ encode i = .response (s.answers 0 n)) : exec i (s.skip n) = .next (inFlight s) := by
  have hmove : inFlight (reframed n s) = inFlight s := by
    rw [inFlight_outside hreader, inFlight_outside (s := reframed n s) hreader, htick]
  rw [exec_inbound (s := s.skip n) hsend hport, deliver_busy (s := s.skip n) hb, ← hmove]
  rfl

/-- The wire format a running operation stands before is its next move. -/
theorem exec_of_fetchWire {s u : State} {i : Instr} (hb : s.busy = true) (h : fetchWire s = some (i, u)) :
    exec i u = .next (inFlight s) := by
  cases hq : s.seq <;> simp only [fetchWire, hq] at h
  case idle | done | failed | wkHold | rrLen | rrXlen | rrHdr | rrData | rrTail => cases h
  case sent =>
    split at h
    next htxn =>
      have hmove : inFlight s = sent s := by rw [inFlight_outside (by rw [hq]; rfl)]; simp only [tick, hq]
      have hlen : (payload s).length ≤ Config.maxTxPayload := by rw [payload, Memory.bytes_length]; exact htxn
      have hframe := decodeCommand_encodeFrame s.work.cmd hlen []
      rw [List.append_nil] at hframe
      obtain ⟨rest, hdecode, rfl⟩ := fetchInbound_some h
      cases hframe.symm.trans hdecode
      exact congrArg Host.Outcome.next ((if_pos ⟨hq, hlen⟩).trans hmove.symm)
    next => cases h
  case wrPoll | awaitReady1 | awaitReady2 =>
    split at h
    next hcnt =>
      obtain ⟨rest, hdecode, rfl⟩ := fetchInbound_some h
      have hone : s.answers 0 1 = [s.answer 0] := by rw [answers_succ, answers_zero]
      rw [hone] at hdecode
      cases hdecode
      have hpoll : inPoll s.seq = true := by rw [hq]; rfl
      exact exec_reframed hb (by rw [hq]; rfl) (by simp [hq]) (tick_reframed_poll hpoll hcnt)
        (.inl (by rw [hone, encode_decodeStatus]))
    next => cases h
  case ackCheck =>
    obtain ⟨rest, hdecode, rfl⟩ := fetchInbound_some h
    obtain ⟨rfl, hack⟩ := decodeAck_ok hdecode
    obtain ⟨hsix, -⟩ := List.append_inj ((List.append_nil _).trans hack) (answers_length s 0 6)
    exact exec_reframed hb (by rw [hq]; rfl) (by simp [hq]) (tick_reframed_ack hq) (.inr (.inl (by rw [hsix]; rfl)))
  case saSend =>
    obtain ⟨rest, hdecode, rfl⟩ := fetchInbound_some h
    obtain ⟨rfl, -⟩ := decodeAck_ok hdecode
    exact congrArg Host.Outcome.next (if_pos (by simp [hb, hq]))
  case rrScan =>
    obtain ⟨rest, hdecode, hu⟩ := fetchInbound_some h
    obtain ⟨frame, hframe, hscript⟩ := decodeResponse_ok hdecode
    have hs : present frame u = s := by rw [hu, present, ← hscript, ← hq]
    rw [exec_inbound (by simp [hu]) (.inr (.inr hframe)), deliver_busy (by rw [hu]; exact hb), hs]

/-- Log 1: framing the stream with the decoder first and reading it byte by byte are one step. -/
theorem step_busy {s : State} (hb : s.busy = true) : step s = .next (inFlight s) := by
  unfold step
  rw [fetch, if_pos hb]
  split
  next i u h => exact exec_of_fetchWire hb h
  next => rw [noInstr, if_pos hb]

/-! ## The steps of a running operation reach its exit (R13, R61) -/

theorem rank_le_of_inReader {s : State} (hq : s.seq.inReader = true) : rank s ≤ 6 := by
  cases h : s.seq
  case rrScan | rrLen | rrXlen | rrHdr | rrData | rrTail => simp [rank, h]
  all_goals rw [h] at hq; cases hq

theorem coreRun_succ {s t : State} (h : step s = .next t) (n : Nat) : core.run (n + 1) s = core.run n t := by
  have hcore : core.step s = .next t := h
  simp only [Host.Core.run, hcore]

/-- R61, log 1: where the moves of an operation end, its steps end. Inside the Response Reader one step is all moves left. -/
theorem coreRun_of_run (n : Nat) {s : State} (hend : (run n s).busy = false) :
    ∃ m, core.run m s = .next (run n s) := by
  induction n generalizing s with
  | zero => exact ⟨0, rfl⟩
  | succ n ih =>
    cases hb : s.busy with
    | false => exact ⟨0, by rw [run_idle hb]; rfl⟩
    | true =>
      have hstep := step_busy hb
      cases hq : s.seq.inReader with
      | false =>
        rw [inFlight_outside hq] at hstep
        rw [run_busy hb] at hend ⊢
        obtain ⟨m, hm⟩ := ih hend
        exact ⟨m + 1, by rw [coreRun_succ hstep, hm]⟩
      | true =>
        have hall : inFlight s = run 6 s := if_pos hq
        rw [hall, run_unique (run_ends (rank_le_of_inReader hq)) hend] at hstep
        exact ⟨1, by rw [coreRun_succ hstep]; rfl⟩

/-- R31: the first move after acceptance is the dispatch. -/
theorem run_accept {o : BitVec 3} {s : State} (hb : s.busy = false) (hq : s.seq = .idle) :
    run (opFuel (dispatch (accept o s)) + 1) (accept o s) = request o s := by
  rw [run_busy (s := accept o s) rfl]
  simp [tick, request, hb, hq]

end Sys2Proof.Machine.Laws

namespace Sys2Proof.Machine

open Laws

/-- Settles O24: the call is a run of moves from acceptance (`run_accept`), and every step with BUSY set makes the next moves
(`step_busy`). -/
theorem oneCallIsItsMoves : Obligations.OneCallIsItsMoves := by
  intro o s hb hq
  have hrun := run_accept (o := o) hb hq
  rw [exec_decodeOp, ← hrun]
  exact coreRun_of_run _ (by rw [hrun]; exact request_ends hb)

end Sys2Proof.Machine

namespace Sys2Proof.Machine.Laws

open Codec

/-! ## The Response Reader is the only writer of RXBUF (R54, R134, R225) -/

@[simp] theorem raise_rxbuf (k : Kind) (x : DiagInfo) (s : State) : (raise k x s).rxbuf = s.rxbuf := by rw [raise_eq]

theorem rxbuf_poll {f g : State → State} (hf : ∀ u, (f u).rxbuf = u.rxbuf) (hg : ∀ u, (g u).rxbuf = u.rxbuf)
    (s : State) : (poll f g s).rxbuf = s.rxbuf := by
  simp only [poll, statusRead_eq]
  split
  · split
    · exact hf _
    · split
      · rfl
      · exact hg _
  · exact hg s

theorem rxbuf_scanLoop (n : Nat) (s : State) : (scanLoop n s).2.rxbuf = s.rxbuf := by
  induction n generalizing s with
  | zero => rfl
  | succ n ih =>
    simp only [scanLoop]
    rw [busRead_first s]
    split
    · rfl
    · exact ih _

theorem rxbuf_dispatch (s : State) : (dispatch s).rxbuf = s.rxbuf := by
  unfold dispatch
  split
  · rfl
  split
  · rfl
  split
  · split <;> rfl
  split
  · rw [rrEntry_eq]
  split <;> rfl

/-- R158: RR_DATA stores up to CAPL of the answers it reads. -/
theorem rxbuf_tick_data {s : State} (hq : s.seq = .rrData) :
    (tick s).rxbuf = Memory.writeAll s.rxbuf 0 ((s.answers 0 s.work.dlen.toNat).take s.work.capl.toNat) := by
  simp only [tick, hq]
  rw [rrData_eq]

/-- R54: no other move writes RXBUF. -/
theorem rxbuf_tick {s : State} (hq : s.seq ≠ .rrData) : (tick s).rxbuf = s.rxbuf := by
  cases h : s.seq
  case rrData => exact absurd h hq
  case wrPoll | awaitReady1 | awaitReady2 =>
    rw [tick_poll (by rw [h]; rfl)]
    exact rxbuf_poll (fun _ => by rw [h]; rfl) (raise_rxbuf _ _) s
  all_goals simp only [tick, h]
  case idle => exact rxbuf_dispatch s
  case wkHold | done | failed => rfl
  case sent => rw [sent, sendFrame_eq]
  case saSend => simp [saSend, transfer, ackFrameBody, writeBytes_eq, openTransfer_eq]
  case ackCheck =>
    simp only [ackCheck, transfer, readAck_eq, openTransfer_eq]
    split
    · rfl
    · exact raise_rxbuf _ _ _
  case rrScan =>
    have hscan := rxbuf_scanLoop s.cfg.scanBudget { s with work := { s.work with cnt := 0, pz := false } }
    simp only [rrScan]
    split
    · exact hscan
    · exact (raise_rxbuf _ _ _).trans hscan
  case rrLen =>
    rw [rrLen_eq]
    simp only
    split
    · rfl
    split
    · rfl
    · exact raise_rxbuf _ _ _
  case rrXlen =>
    rw [rrXlen_eq]
    simp only
    split
    · rfl
    · exact raise_rxbuf _ _ _
  case rrHdr =>
    rw [rrHdr_eq]
    simp only
    split
    · rfl
    · exact raise_rxbuf _ _ _
  case rrTail =>
    rw [rrTail_eq]
    simp only
    split
    · rfl
    · exact raise_rxbuf _ _ _

/-! ## Operations other than READRSP never enter the Response Reader -/

/-- R22: with an operation other than READRSP latched and SEQ outside the Response Reader while BUSY is set. -/
structure OutsideReader (s : State) : Prop where
  opl : s.work.opl ≠ opReadrsp
  seq : s.busy = true → s.seq.inReader = false

theorem outsideReader_dispatch {s : State} (ho : s.work.opl ≠ opReadrsp) : OutsideReader (dispatch s) := by
  refine ⟨by rw [(keeps_dispatch s).latch.1]; exact ho, ?_⟩
  have hrefuse : (refuse s).busy = true → (refuse s).seq.inReader = false := fun h => absurd h Bool.noConfusion
  simp only [dispatch, if_neg ho]
  split
  · exact fun _ => rfl
  split
  · exact fun _ => rfl
  split
  · split
    · exact hrefuse
    · exact fun _ => rfl
  split
  · exact fun _ => rfl
  · exact hrefuse

/-- R22: only IDLE leads into the Response Reader. -/
theorem inReader_of_row : ∀ r ∈ seqTable, r.1 ≠ .idle → r.1.inReader = false → r.2.inReader = false := by decide

theorem Move.inReader {s t : State} (h : Move s t) (hidle : s.seq ≠ .idle) (hq : s.seq.inReader = false) :
    t.seq.inReader = false := by
  cases h with
  | stay _ h => rw [h.seq]; exact hq
  | refuse hs => exact hq
  | enter q _ row _ => exact inReader_of_row _ row hidle hq
  | succeed => rfl
  | raise => rw [raise_eq]; rfl

theorem OutsideReader.tick {s : State} (h : OutsideReader s) (hb : s.busy = true) : OutsideReader (tick s) := by
  by_cases hidle : s.seq = .idle
  · simp only [Machine.tick, hidle]
    exact outsideReader_dispatch h.opl
  · exact ⟨by rw [(keeps_tick s).latch.1]; exact h.opl, fun _ => (move_tick s).inReader hidle (h.seq hb)⟩

theorem ne_rrData_of_outside {q : Seq} (h : q.inReader = false) : q ≠ .rrData := by
  rintro rfl
  cases h

theorem rxbuf_run (n : Nat) {s : State} (h : OutsideReader s) : (run n s).rxbuf = s.rxbuf := by
  induction n generalizing s with
  | zero => rfl
  | succ n ih =>
    rw [run]
    split
    next hb => exact (ih (h.tick hb)).trans (rxbuf_tick (ne_rrData_of_outside (h.seq hb)))
    next => rfl

/-- R54: a request other than READRSP leaves RXBUF as it is. -/
theorem rxbuf_request {o : BitVec 3} (ho : o ≠ opReadrsp) (s : State) : (request o s).rxbuf = s.rxbuf := by
  cases hb : s.busy with
  | true => rw [request_busy hb]
  | false =>
    simp only [request, hb, Bool.false_eq_true, if_false]
    rw [rxbuf_run _ (outsideReader_dispatch (s := accept o s) ho), rxbuf_dispatch, accept_rxbuf]

theorem rxbuf_inFlight {s : State} (hq : s.seq.inReader = false) : (inFlight s).rxbuf = s.rxbuf := by
  rw [inFlight_outside hq]
  exact rxbuf_tick (ne_rrData_of_outside hq)

theorem rxbuf_deliver (bs : List Byte) {s : State} (hq : s.busy = true → s.seq.inReader = false) :
    (deliver bs s).rxbuf = s.rxbuf := by
  unfold deliver
  split
  next hb => exact rxbuf_inFlight (s := present bs s) (hq hb)
  next => rfl

theorem rxbuf_sendFrame (c : Byte) (data : List Byte) (s : State) : (sendFrame c data s).rxbuf = s.rxbuf := by
  rw [sendFrame_eq]

/-- R54: outside the Response Reader an instruction other than READRSP and XCHG leaves RXBUF as it is. -/
theorem exec_rxbuf {i : Instr} {s t : State} (hq : s.busy = true → s.seq.inReader = false) (hread : i ≠ .readrsp)
    (hxchg : ∀ c p cap, i ≠ .xchg c p cap) (ht : exec i s = .next t) : t.rxbuf = s.rxbuf := by
  cases i <;> cases ht
  case readrsp => exact absurd rfl hread
  case xchg c p cap => exact absurd rfl (hxchg c p cap)
  case wake | waitrdy | sendcmd | sendack | reservedOp0 | init => exact rxbuf_request (by decide) s
  case reservedOp67 low =>
    have hcode : ∀ low : BitVec 1, 0b11#2 ++ low ≠ opReadrsp := by decide
    exact rxbuf_request (hcode low) s
  case rn | rx | stReady | stNotReady => exact rxbuf_deliver _ hq
  case cf c data =>
    split
    · exact rxbuf_sendFrame c data s
    · rfl
  case ak =>
    split
    next h =>
      rw [Bool.and_eq_true] at h
      exact rxbuf_inFlight (hq h.1)
    next => exact rxbuf_deliver _ hq

/-! ## Inside the Response Reader nothing at or above the capacity is written (R54, R158) -/

/-- Every byte of RXBUF from index `c` on is in `t` what it was in `s`; the canonical form is kept. -/
structure RxKeptFrom (c : Nat) (s t : State) : Prop where
  wf : t.rxbuf.wf = true
  read : ∀ a, c ≤ a → t.rxbuf.read a = s.rxbuf.read a

theorem RxKeptFrom.of_eq {c : Nat} {s t : State} (hwf : s.rxbuf.wf = true) (h : t.rxbuf = s.rxbuf) : RxKeptFrom c s t :=
  ⟨by rw [h]; exact hwf, fun _ _ => by rw [h]⟩

theorem RxKeptFrom.trans {c : Nat} {s t u : State} (h : RxKeptFrom c s t) (k : RxKeptFrom c t u) : RxKeptFrom c s u :=
  ⟨k.wf, fun a ha => (k.read a ha).trans (h.read a ha)⟩

theorem rxKeptFrom_tick {s : State} (hwf : s.rxbuf.wf = true) : RxKeptFrom s.work.capl.toNat s (tick s) := by
  by_cases hq : s.seq = .rrData
  · refine ⟨(move_tick s).rxbuf_wf hwf, fun a ha => ?_⟩
    rw [rxbuf_tick_data hq, Memory.read_writeAll hwf, if_neg]
    simp only [List.length_take]
    omega
  · exact .of_eq hwf (rxbuf_tick hq)

theorem rxKeptFrom_run (n : Nat) {s : State} (hwf : s.rxbuf.wf = true) : RxKeptFrom s.work.capl.toNat s (run n s) := by
  induction n generalizing s with
  | zero => exact .of_eq hwf rfl
  | succ n ih =>
    rw [run]
    split
    · obtain ⟨-, -, -, -, hcapl⟩ := (keeps_tick s).latch
      have htick := rxKeptFrom_tick hwf
      have hrun := ih htick.wf
      rw [hcapl] at hrun
      exact htick.trans hrun
    · exact .of_eq hwf rfl

theorem rxKeptFrom_inFlight {s : State} (hwf : s.rxbuf.wf = true) : RxKeptFrom s.work.capl.toNat s (inFlight s) := by
  unfold inFlight
  split
  · exact rxKeptFrom_run 6 hwf
  · exact rxKeptFrom_tick hwf

theorem rxKeptFrom_deliver (bs : List Byte) {s : State} (hwf : s.rxbuf.wf = true) :
    RxKeptFrom s.work.capl.toNat s (deliver bs s) := by
  unfold deliver
  split
  · obtain ⟨hwf', hread⟩ := rxKeptFrom_inFlight (s := present bs s) hwf
    exact ⟨hwf', hread⟩
  · exact .of_eq hwf rfl

/-- R31, R158: a request stores nothing at or above the capacity it latches. -/
theorem rxKeptFrom_request (o : BitVec 3) {s : State} (hwf : s.rxbuf.wf = true) :
    RxKeptFrom s.args.cap.toNat s (request o s) := by
  cases hb : s.busy with
  | true => rw [request_busy hb]; exact .of_eq hwf rfl
  | false =>
    simp only [request, hb, Bool.false_eq_true, if_false]
    obtain ⟨-, -, -, -, hcapl⟩ := (keeps_dispatch (accept o s)).latch
    have hentry : RxKeptFrom s.args.cap.toNat s (dispatch (accept o s)) := .of_eq hwf (rxbuf_dispatch _)
    have hrun := rxKeptFrom_run (opFuel (dispatch (accept o s))) hentry.wf
    rw [hcapl] at hrun
    exact hentry.trans hrun

/-- R180: XCHG's SENDCMD leaves RXBUF alone, and its READRSP gets the capacity `cap`. -/
theorem rxKeptFrom_exchange (c : Byte) (bs : List Byte) (cap : U16) {s : State} (hwf : s.rxbuf.wf = true) :
    RxKeptFrom cap.toNat s (exchange c bs cap s) := by
  have hsend : RxKeptFrom cap.toNat s (request opSendcmd (loadSend c bs s)) :=
    .of_eq hwf (rxbuf_request (by decide) (loadSend c bs s))
  simp only [exchange]
  split
  · obtain ⟨hwf', hread⟩ := rxKeptFrom_request opReadrsp
      (s := loadRead (add8 c 1) cap (request opSendcmd (loadSend c bs s))) hsend.wf
    exact hsend.trans ⟨hwf', hread⟩
  · exact hsend

/-- R54: with an operation in flight an instruction stores nothing at or above the latched capacity. -/
theorem exec_rxKeptFrom {i : Instr} {s t : State} (hb : s.busy = true) (hwf : s.rxbuf.wf = true)
    (ht : exec i s = .next t) : RxKeptFrom s.work.capl.toNat s t := by
  cases i <;> cases ht
  case wake | waitrdy | sendcmd | readrsp | sendack | reservedOp0 | reservedOp67 | init =>
    exact .of_eq hwf (by rw [request_busy hb])
  case rn | rx | stReady | stNotReady => exact rxKeptFrom_deliver _ hwf
  case xchg => exact .of_eq hwf (by rw [if_pos hb])
  case cf c data =>
    split
    · exact .of_eq hwf (rxbuf_sendFrame c data s)
    · exact .of_eq hwf rfl
  case ak =>
    split
    · exact rxKeptFrom_inFlight hwf
    · exact rxKeptFrom_deliver _ hwf

end Sys2Proof.Machine.Laws

namespace Sys2Proof.Machine

open Laws

/-- Settles O57: outside the reader nothing writes RXBUF (`exec_rxbuf`); READRSP, XCHG and the reader's states write it below the
capacity only (`RxKeptFrom`). -/
theorem rxbufIsWrittenByTheReaderOnly : Obligations.RxbufIsWrittenByTheReaderOnly := by
  intro i s t hwf ht
  refine ⟨fun hq hread hxchg a => ?_, ?_, ?_, fun hb _ => (exec_rxKeptFrom hb hwf ht).read⟩
  · rw [exec_rxbuf hq hread hxchg ht]
  · rintro - rfl
    cases ht
    exact (rxKeptFrom_request opReadrsp hwf).read
  · rintro c p cap hb rfl
    cases ht
    rw [if_neg (by simp [hb])]
    exact (rxKeptFrom_exchange c p cap hwf).read

end Sys2Proof.Machine
end

section
/-! PROOFS of the family 30_encoding: decoder and encoder invert each other (O10, O11, O12), a step runs the wire format or the
placed instruction it stands before (O14, O18), refused requests (O29, O36), and the extended response's round trip (O9). -/

namespace Sys2Proof.Codec.Laws

/-! ## The decoder reads back what the encoder writes (R70 to R74, R80, R81, R85) -/

/-- R71, R72: what follows the length field of a response, the length being that of its data. -/
theorem decodeBody_frame (t r x p : Byte) (d more : List Byte) :
    decodeBody d.length (t :: r :: (d ++ x :: p :: more)) = some ((t, r, d, x, p), more) := by
  simp [decodeBody]

theorem decodeResponse_encodeRn {noise d : List Byte} {l k t r x p : Byte}
    (hw : (Instr.rn noise l k t r d x p).WellFormed) (more : List Byte) :
    decodeResponse (encodeRn noise l k t r d x p ++ more) = .ok (.rn noise l k t r d x p, more) := by
  obtain ⟨hnoise, hmark, hlen⟩ := Machine.Laws.wf_rn hw
  have hframe : encodeRn noise l k t r d x p ++ more =
      noise ++ Config.start1 :: Config.start2 :: l :: k :: t :: r :: (d ++ x :: p :: more) := by simp [encodeRn]
  rw [hframe, decodeResponse, splitStart_noise hnoise]
  simp [hmark, dataLen, ← hlen, decodeBody_frame]

theorem decodeResponse_encodeRx {noise d : List Byte} {m l k t r x p : Byte}
    (hw : (Instr.rx noise m l k t r d x p).WellFormed) (more : List Byte) :
    decodeResponse (encodeRx noise m l k t r d x p ++ more) = .ok (.rx noise m l k t r d x p, more) := by
  obtain ⟨hnoise, hlen⟩ := Machine.Laws.wf_rx hw
  have hframe : encodeRx noise m l k t r d x p ++ more = noise ++ Config.start1 :: Config.start2 :: Config.extMark
      :: Config.extMark :: m :: l :: k :: t :: r :: (d ++ x :: p :: more) := by simp [encodeRx]
  have hmark : isExtMark Config.extMark Config.extMark = true := rfl
  rw [hframe, decodeResponse, splitStart_noise hnoise]
  simp [hmark, dataLen, ← hlen, decodeBody_frame]

theorem decodeAck_ackSeq (more : List Byte) : decodeAck (Config.ackSeq ++ more) = .ok (.ak, more) := by
  simp [decodeAck, Config.ackSeq, isAck]

theorem decodeStatus_ready : ∀ hi : BitVec 7, decodeStatus (statusByte hi 1#1) = .stReady hi := by decide

theorem decodeStatus_notReady : ∀ hi : BitVec 7, decodeStatus (statusByte hi 0#1) = .stNotReady hi := by decide

theorem decodeOp_reserved : ∀ low : BitVec 1, decodeOp (0b11#2 ++ low) = .reservedOp67 low := by decide

/-- What a code followed by the bytes `more` leaves of them: a port without bytes leaves none. -/
def leftBehind (more : List Byte) : Code → List Byte
  | .op _ | .lineInit | .lineXchg _ _ _ => []
  | .command _ | .ack _ | .status _ | .response _ => more

theorem bytes_append (code : Code) (more : List Byte) :
    (code.append more).bytes = code.bytes ++ leftBehind more code := by
  cases code <;> simp [Code.append, Code.bytes, leftBehind]

/-- Row by row, the encoding of a well-formed instruction decodes to it. -/
theorem decode_encode_append {i : Instr} (hw : i.WellFormed) (more : List Byte) :
    decode ((encode i).append more) = .ok (i, leftBehind more (encode i)) := by
  cases i
  case wake | waitrdy | sendcmd | readrsp | sendack | reservedOp0 | init => rfl
  case reservedOp67 low => simp [encode, Code.append, decode, decodeOp_reserved, leftBehind]
  case xchg c payload cap =>
    have hlen : payload.length ≤ Config.maxTxPayload := of_decide_eq_true hw
    simp [encode, Code.append, decode, hlen, leftBehind]
  case cf c data => exact decodeCommand_encodeFrame c (of_decide_eq_true hw) more
  case rn => exact decodeResponse_encodeRn hw more
  case rx => exact decodeResponse_encodeRx hw more
  case ak => exact decodeAck_ackSeq more
  case stReady hi => simp [encode, Code.append, decode, decodeStatus_ready, leftBehind]
  case stNotReady hi => simp [encode, Code.append, decode, decodeStatus_notReady, leftBehind]

/-! ## Whatever decodes is well formed and is the encoding of what it decodes to -/

theorem decodeBody_length {n : Nat} {bs d rest : List Byte} {t r x p : Byte}
    (h : decodeBody n bs = some ((t, r, d, x, p), rest)) : d.length = n := by
  unfold decodeBody at h
  split at h
  next t' r' tail =>
    split at h
    next x' p' more hdrop =>
      cases h
      have hlen := congrArg List.length hdrop
      rw [List.length_drop, List.length_cons] at hlen
      rw [List.length_take]
      omega
    next => cases h
  next => cases h

/-- R71, R72, R76, R78: what the response port decodes meets the checks of its format. -/
theorem decodeResponse_wellFormed {bs rest : List Byte} {i : Instr} (h : decodeResponse bs = .ok (i, rest)) :
    i.WellFormed := by
  unfold decodeResponse at h
  split at h
  next => cases h
  next noise l0 l1 tail hsplit =>
    obtain ⟨-, hnoise⟩ := splitStart_some hsplit
    split at h
    next =>
      split at h
      next =>
        split at h
        next hbody =>
          cases h
          simp [Instr.WellFormed, Instr.wellFormed, hnoise, decodeBody_length hbody]
        next => cases h
      next => cases h
    next hmark =>
      split at h
      next hbody =>
        cases h
        simp [Instr.WellFormed, Instr.wellFormed, hnoise, hmark, decodeBody_length hbody]
      next => cases h
  next => cases h

theorem dataLen_le_maxTxPayload (l : Byte) : dataLen l.toNat ≤ Config.maxTxPayload := by
  simp only [dataLen, Config.maxTxPayload]
  omega

/-- R70: the instruction command bytes decode to is the frame at their front. -/
theorem decodeCommand_ok {bs rest : List Byte} {i : Instr} (h : decodeCommand bs = .ok (i, rest)) :
    i.WellFormed ∧ Code.command bs = (encode i).append rest := by
  unfold decodeCommand at h
  split at h
  next l _ _ c tail =>
    simp only at h
    split at h
    next hframe =>
      cases h
      refine ⟨decide_eq_true ((List.length_take_le _ _).trans (dataLen_le_maxTxPayload l)), ?_⟩
      exact congrArg Code.command ((List.take_append_drop _ _).symm.trans (congrArg (· ++ _) hframe))
    next => cases h
  next => cases h

/-- R80, R74: the rows of the host port and the status bytes have no operand to check. -/
theorem wellFormed_of_encode {i : Instr} (h : (∃ o, encode i = .op o) ∨ ∃ bs, encode i = .status bs) :
    i.WellFormed := by
  rcases h with ⟨_, h⟩ | ⟨_, h⟩ <;> cases i <;> cases h <;> rfl

/-- Port by port, what decodes is the encoding of a well-formed instruction followed by the rest. -/
theorem decode_ok {code : Code} {i : Instr} {rest : List Byte} (h : decode code = .ok (i, rest)) :
    i.WellFormed ∧ code = (encode i).append rest := by
  cases code with
  | op o =>
    cases h
    have hop := Machine.Laws.encode_decodeOp o
    exact ⟨wellFormed_of_encode (.inl ⟨o, hop⟩), by rw [hop]; rfl⟩
  | lineInit =>
    cases h
    exact ⟨rfl, rfl⟩
  | lineXchg c payload cap =>
    simp only [decode] at h
    split at h
    next hlen =>
      cases h
      exact ⟨decide_eq_true hlen, rfl⟩
    next => cases h
  | command bs => exact decodeCommand_ok h
  | ack bs =>
    obtain ⟨rfl, hbs⟩ := decodeAck_ok h
    exact ⟨rfl, congrArg Code.ack hbs⟩
  | status bs =>
    cases bs with
    | nil => cases h
    | cons b bs =>
      cases h
      have hstatus := encode_decodeStatus b
      exact ⟨wellFormed_of_encode (.inr ⟨[b], hstatus⟩), by rw [hstatus]; rfl⟩
  | response bs =>
    obtain ⟨frame, hframe, hbs⟩ := decodeResponse_ok h
    exact ⟨decodeResponse_wellFormed h, by rw [hframe]; exact congrArg Code.response hbs⟩

theorem wellFormed_of_instrOf {code : Code} {i : Instr} (h : instrOf (decode code) = some i) : i.WellFormed := by
  unfold instrOf at h
  split at h
  next j rest hdecode =>
    cases h
    exact (decode_ok hdecode).1
  next => cases h

/-- R86: the instruction of a table word is well formed, whichever port the word is read at (log 10). -/
theorem decodeTableWord_wellFormed {nbits w : Nat} {i : Instr} (h : decodeTableWord nbits w = some i) :
    i.WellFormed := by
  unfold decodeTableWord at h
  split at h
  · split at h <;> exact wellFormed_of_instrOf h
  · simp only at h
    split at h
    · cases h
      rfl
    · rcases (Option.orElse_eq_some _ _ _).mp h with hcommand | ⟨-, hresponse⟩
      · exact wellFormed_of_instrOf hcommand
      · exact wellFormed_of_instrOf hresponse

end Sys2Proof.Codec.Laws

namespace Sys2Proof.Machine

open Codec.Laws

/-- Settles O10: row by row (`decode_encode_append`); the rest is what the port leaves of the bytes behind. -/
theorem decodeInvertsEncode : Obligations.DecodeInvertsEncode := fun i more hw =>
  ⟨leftBehind more (encode i), decode_encode_append hw more, bytes_append (encode i) more⟩

/-- Settles O11: port by port (`decode_ok`). -/
theorem encodeInvertsDecode : Obligations.EncodeInvertsDecode := fun _ _ _ h => decode_ok h

/-- Settles O12: the decoder evaluated on each word. -/
theorem wordsOfTheTableDecode : Obligations.WordsOfTheTableDecode := by
  refine ⟨by decide, ?_, ?_, ?_, ?_, ?_, ?_⟩ <;> rfl

end Sys2Proof.Machine

namespace Sys2Proof.Machine.Laws

open Codec Codec.Laws

/-! ## What a fetch meets (R70 to R77, R80, R85) -/

theorem step_of_fetch {s u : State} {i : Instr} (h : fetch s = some (i, u)) : step s = exec i u := by simp [step, h]

theorem fetch_busy {s : State} (hb : s.busy = true) : fetch s = fetchWire s := if_pos hb

theorem fetch_notBusy {s : State} (hb : s.busy = false) : fetch s = fetchHost s := by simp [fetch, hb]

/-- A well-formed instruction's encoding at the front of the stream is met as that instruction. -/
theorem fetchInbound_encode {i : Instr} (hw : i.WellFormed) (rest : List Byte) (f : List Byte → State) :
    fetchInbound ((encode i).append rest) f = some (i, f (leftBehind rest (encode i))) := by
  simp [fetchInbound, decode_encode_append hw]

/-- Taking off the stream bytes that are in the script. -/
theorem skip_of_script {s : State} {bs rest : List Byte} (h : s.script = bs ++ rest) :
    s.skip bs.length = { s with script := rest } := by
  simp [State.skip, h]

theorem fetchWire_sent {s : State} (hq : s.seq = .sent) (htxn : s.work.txn.toNat ≤ Config.maxTxPayload) :
    fetchWire s = some (.cf s.work.cmd (payload s), s) := by
  have hw : (Instr.cf s.work.cmd (payload s)).WellFormed := by
    refine decide_eq_true ?_
    rwa [payload, Memory.bytes_length]
  have hfetch := fetchInbound_encode hw [] fun _ => s
  simp only [encode, Code.append, List.append_nil] at hfetch
  simp only [fetchWire, hq, if_pos htxn, hfetch]

theorem fetchWire_of_inPoll {s : State} (hq : inPoll s.seq = true) (hcnt : s.work.cnt < s.cfg.readyPollBudget) :
    fetchWire s = fetchInbound (.status (s.answers 0 1)) fun _ => s.skip 1 := by
  cases hseq : s.seq <;> simp [fetchWire, hseq, inPoll, hcnt] at hq ⊢

/-- R124: a ready loop with budget left stands before the status byte at the front of the stream. -/
theorem fetchWire_poll {s : State} {i : Instr} {b : Byte} {rest : List Byte} (hq : inPoll s.seq = true)
    (hcnt : s.work.cnt < s.cfg.readyPollBudget) (hi : encode i = .status [b]) (hs : s.script = b :: rest) :
    fetchWire s = some (i, { s with script := rest }) := by
  have hanswer : s.answers 0 1 = [b] := answers_script s [b] rest hs
  have hskip : s.skip 1 = { s with script := rest } := skip_of_script (bs := [b]) hs
  have hfetch := fetchInbound_encode (wellFormed_of_encode (.inr ⟨_, hi⟩)) [] fun _ => { s with script := rest }
  rw [hi] at hfetch
  rw [fetchWire_of_inPoll hq hcnt, hanswer, hskip]
  exact hfetch

theorem fetchWire_ackCheck {s : State} {rest : List Byte} (hq : s.seq = .ackCheck)
    (hs : s.script = Config.ackSeq ++ rest) : fetchWire s = some (.ak, { s with script := rest }) := by
  have hanswer : s.answers 0 6 = Config.ackSeq := answers_script s Config.ackSeq rest hs
  have hskip : s.skip 6 = { s with script := rest } := skip_of_script (bs := Config.ackSeq) hs
  simp only [fetchWire, hq, hanswer, hskip]
  exact fetchInbound_encode (i := .ak) rfl [] _

theorem fetchWire_saSend {s : State} (hq : s.seq = .saSend) : fetchWire s = some (.ak, s) := by
  simp only [fetchWire, hq]
  exact fetchInbound_encode (i := .ak) rfl [] _

/-- R77, R78: the scanner stands before the response frame at the front of the stream, its noise included. -/
theorem fetchWire_rrScan {s : State} {i : Instr} {frame rest : List Byte} (hq : s.seq = .rrScan) (hw : i.WellFormed)
    (hi : encode i = .response frame) (hs : s.script = frame ++ rest) :
    fetchWire s = some (i, { s with script := rest }) := by
  have hfetch := fetchInbound_encode hw rest fun rest => { s with script := rest }
  rw [hi] at hfetch
  simp only [fetchWire, hq, hs]
  rw [← hq]
  exact hfetch

/-- R80, R85: a request at the head of the host's list. -/
theorem fetchHost_request {s : State} {m : HostMove} {rest : List HostMove} {i : Instr} (hs : s.host = m :: rest)
    (hm : hostCode m = some (encode i)) (hdecode : decode (encode i) = .ok (i, [])) :
    fetchHost s = some (i, { s with host := rest }) := by
  simp [fetchHost, hs, hm, hdecode, instrOf]

end Sys2Proof.Machine.Laws

namespace Sys2Proof.Machine

open Laws

/-- Settles O14: in each sequencer state the fetch meets the wire format that stands there. -/
theorem stepRunsTheWireFormat : Obligations.StepRunsTheWireFormat := by
  intro s rest hb
  have hstep {i : Instr} {u : State} (h : fetchWire s = some (i, u)) : step s = exec i u :=
    step_of_fetch ((fetch_busy hb).trans h)
  refine ⟨fun hq htxn => hstep (fetchWire_sent hq htxn), fun hi hq hcnt => ?_,
    fun hq hs => hstep (fetchWire_ackCheck hq hs), fun hq => hstep (fetchWire_saSend hq),
    fun _ _ _ _ _ _ _ _ hq hw hs => hstep (fetchWire_rrScan hq hw rfl hs),
    fun _ _ _ _ _ _ _ _ _ hq hw hs => hstep (fetchWire_rrScan hq hw rfl hs)⟩
  have hpoll : inPoll s.seq = true := by rcases hq with hq | hq | hq <;> rw [hq] <;> rfl
  exact ⟨fun hs => hstep (fetchWire_poll hpoll hcnt rfl hs), fun hs => hstep (fetchWire_poll hpoll hcnt rfl hs)⟩

end Sys2Proof.Machine

namespace Sys2Proof.Machine.Laws

open Codec Codec.Laws

/-! ## Refused requests (R81, R194) -/

theorem dispatch_reserved {s : State} (ho : s.work.opl = 0b000 ∨ ∃ low : BitVec 1, s.work.opl = 0b11#2 ++ low) :
    dispatch s = refuse s := by
  have hno : ∀ low : BitVec 1, 0b11#2 ++ low ∉ [opWake, opWaitrdy, opSendcmd, opReadrsp, opSendack] := by decide
  rcases ho with ho | ⟨low, ho⟩
  · simp [dispatch, ho, opWake, opWaitrdy, opSendcmd, opReadrsp, opSendack]
  · simp only [List.mem_cons, List.not_mem_nil, or_false, not_or] at hno
    obtain ⟨h1, h2, h3, h4, h5⟩ := hno low
    simp only [dispatch, ho, if_neg h1, if_neg h2, if_neg h3, if_neg h4, if_neg h5]

theorem dispatch_longPayload {s : State} (ho : s.work.opl = opSendcmd) (htxn : Config.maxTxPayload < s.work.txn.toNat) :
    dispatch s = refuse s := by
  simp [dispatch, ho, htxn, opWake, opWaitrdy, opSendcmd]

/-- R31, R194: a request whose dispatch refuses it leaves the operands latched and the result, and nothing else. -/
theorem request_refused {o : BitVec 3} {s : State} (hb : s.busy = false)
    (h : dispatch (accept o s) = refuse (accept o s)) :
    request o s = { s with work := latched o s, resKind := .refused, resLen := 0 } := by
  have hrefuse : refuse (accept o s) = { s with work := latched o s, resKind := .refused, resLen := 0 } := by
    rw [refuse, accept, ← hb]
    rfl
  exact request_eq hb 0 (h.trans hrefuse) hb

/-! ## The instruction placed (log 11) -/

/-- What the placing of an instruction leaves as it was. -/
structure KeptByPlacing (s u : State) : Prop where
  cfg : u.cfg = s.cfg
  args : u.args = s.args
  rxbuf : u.rxbuf = s.rxbuf
  trace : u.trace = s.trace
  path : u.path = s.path
  script : u.script = s.script
  draws : u.draws = s.draws
  host : u.host = s.host
  diag : u.diag = s.diag
  resKind : u.resKind = s.resKind
  resLen : u.resLen = s.resLen

theorem keptByPlacing_quiet (s : State) : KeptByPlacing s (quiet s) :=
  ⟨rfl, rfl, rfl, rfl, rfl, rfl, rfl, rfl, rfl, rfl, rfl⟩

theorem keptByPlacing_inside (o : BitVec 3) (q : Seq) (s : State) : KeptByPlacing s (inside o q s) :=
  ⟨rfl, rfl, rfl, rfl, rfl, rfl, rfl, rfl, rfl, rfl, rfl⟩

/-- R80, R85: a request that a host move makes, placed, is fetched in the quiet machine. -/
theorem fetch_hostMove {i : Instr} {m : HostMove} (s : State) (hw : i.WellFormed)
    (hm : hostCode m = some (encode i)) :
    fetch { quiet s with host := m :: s.host } = some (i, quiet s) := by
  have hcode : (encode i).append [] = encode i ∧ leftBehind [] (encode i) = [] := by
    cases encode i <;> simp [Code.append, leftBehind]
  have hdecode := decode_encode_append hw []
  rw [hcode.1, hcode.2] at hdecode
  rw [fetch_notBusy (s := { quiet s with host := m :: s.host }) rfl]
  exact fetchHost_request (s := { quiet s with host := m :: s.host }) rfl hm hdecode

theorem hostCode_writeOp (o : BitVec 3) : hostCode (.write .op (o.setWidth 16)) = some (.op o) := by
  simp [hostCode, BitVec.setWidth_setWidth_of_le]

/-- R71, R72: a response frame presented to the scanner is fetched there. -/
theorem fetch_presented_response {i : Instr} {frame : List Byte} (s : State) (hw : i.WellFormed)
    (hi : encode i = .response frame) :
    fetch (present frame (inside opReadrsp .rrScan s)) = some (i, inside opReadrsp .rrScan s) :=
  (fetch_busy rfl).trans (fetchWire_rrScan rfl hw hi rfl)

/-- R74: a status byte presented to a ready loop with a budget is fetched there. -/
theorem fetch_presented_status {i : Instr} {b : Byte} {s : State} (hbudget : 1 ≤ s.cfg.readyPollBudget)
    (hi : encode i = .status [b]) :
    fetch (present [b] (inside opWaitrdy .wrPoll s)) = some (i, inside opWaitrdy .wrPoll s) :=
  (fetch_busy rfl).trans (fetchWire_poll rfl hbudget hi rfl)

theorem fetch_placed_cf {s : State} (c : Byte) {data : List Byte} (htx : s.txbuf.wf = true)
    (hlen : data.length ≤ Config.maxTxPayload) :
    ∃ u, fetch (place (.cf c data) s) = some (.cf c data, u) ∧ KeptByPlacing s u := by
  have htxn : (BitVec.ofNat 8 data.length).toNat = data.length := by
    simp only [Config.maxTxPayload] at hlen
    simp only [BitVec.toNat_ofNat]
    omega
  have hpayload : payload (place (.cf c data) s) = data := by
    simp only [place, payload, htxn]
    exact Memory.bytes_writeAll htx data
  have hfetch := fetchWire_sent (s := place (.cf c data) s) rfl (by simpa only [place, htxn] using hlen)
  rw [hpayload] at hfetch
  exact ⟨_, (fetch_busy rfl).trans hfetch, { keptByPlacing_inside opSendcmd .sent s with }⟩

/-- Log 11: a well-formed instruction, placed, is what the machine stands before. -/
theorem fetch_place {i : Instr} {s : State} (hw : i.WellFormed) (hbudget : 1 ≤ s.cfg.readyPollBudget)
    (htx : s.txbuf.wf = true) : ∃ u, fetch (place i s) = some (i, u) ∧ KeptByPlacing s u := by
  have hmove {m : HostMove} (hm : hostCode m = some (encode i)) :
      ∃ u, fetch { quiet s with host := m :: s.host } = some (i, u) ∧ KeptByPlacing s u :=
    ⟨_, fetch_hostMove s hw hm, keptByPlacing_quiet s⟩
  cases i
  case wake | waitrdy | sendcmd | readrsp | sendack | reservedOp67 => exact hmove (hostCode_writeOp _)
  case reservedOp0 => exact hmove (hostCode_writeOp 0b000)
  case init | xchg => exact hmove rfl
  case cf c data => exact fetch_placed_cf c htx (of_decide_eq_true hw)
  case rn | rx => exact ⟨_, fetch_presented_response s hw rfl, keptByPlacing_inside _ _ s⟩
  case ak =>
    exact ⟨_, (fetch_busy rfl).trans (fetchWire_ackCheck rfl rfl), keptByPlacing_inside opSendcmd .ackCheck s⟩
  case stReady | stNotReady => exact ⟨_, fetch_presented_status hbudget rfl, keptByPlacing_inside _ _ s⟩

/-! ## READRSP from acceptance to its exit, and R108's DECODE -/

theorem bodyOk_dcs (t c : Byte) (data : List Byte) : bodyOk t c data (dcs t c data) = true := by
  rw [body_acc, dcs, neg8_eq, sum8_cons, sum8_cons, ← BitVec.add_assoc t, beq_iff_eq]
  exact BitVec.add_left_neg _

/-- R31, R151: the state in which an accepted READRSP begins to scan. -/
def scanStart (s : State) : State :=
  { s with
    seq := .rrScan, path := s.path ++ [.rrScan], busy := true, sel := true, work := latched opReadrsp s, resLen := 0
    trace := s.trace ++ openEvents s.cfg s.cfg.pfxRead }

theorem dispatch_readrsp (s : State) : dispatch (accept opReadrsp s) = scanStart s := by
  have hentry : dispatch (accept opReadrsp s) = rrEntry (accept opReadrsp s) := by
    simp [dispatch, accept, opWake, opWaitrdy, opSendcmd, opReadrsp]
  rw [hentry, rrEntry_eq]
  rfl

theorem request_readrsp {s t : State} (hb : s.busy = false) (n : Nat) (h : run n (scanStart s) = t)
    (ht : t.busy = false) : request opReadrsp s = t :=
  request_eq hb n (by rw [dispatch_readrsp, h]) ht

/-- R108: DECODE of a stream whose every byte READRSP reads on its way to the success exit, the data `d` stored up to the
capacity. -/
theorem decodeStream_of_okAt {cfg : Config} {t e : Byte} {cap : U16} {bs d : List Byte} {n : Nat} {p : List Seq} {w : Work}
    (hidx : w.idx = d.length)
    (h : run n (scanStart (decoderStart cfg t e cap bs)) =
      okAt (scanStart (decoderStart cfg t e cap bs)) bs.length p w (Memory.writeAll [] 0 (d.take cap.toNat))
        (BitVec.ofNat 16 (min d.length cap.toNat))) :
    decodeStream cfg t e cap bs = ⟨.ok, min d.length cap.toNat, d.take cap.toNat, bs.length⟩ := by
  have hlen : (BitVec.ofNat 16 (min d.length cap.toNat)).toNat = min d.length cap.toNat := by
    simp only [BitVec.toNat_ofNat]
    omega
  have hstored : Memory.bytes (Memory.writeAll [] 0 (d.take cap.toNat)) (min d.length cap.toNat) = d.take cap.toNat := by
    rw [Nat.min_comm, ← List.length_take]
    exact Memory.bytes_writeAll rfl _
  rw [decodeStream, request_readrsp rfl n h rfl]
  simp [okAt, hidx, hlen, hstored, scanStart, decoderStart]

end Sys2Proof.Machine.Laws

namespace Sys2Proof.Machine

open Laws Codec Codec.Laws

/-- Settles O9: the good extended frame is read whole (`run_rx`), and the verdict on its checksum is good (`bodyOk_dcs`). -/
theorem extendedResponseRoundTrip : Obligations.ExtendedResponseRoundTrip := by
  intro cfg t e m l k p data cap hscan _ hlen hxlen
  have hw : (Instr.rx [0x00] m l k t e data (dcs t e data) p).WellFormed := by
    simp [Instr.WellFormed, Instr.wellFormed, splitStart, dataLen, hlen]
  have hrun := run_rx (x := scanStart (decoderStart cfg t e cap (encodeRx [0x00] m l k t e data (dcs t e data) p))) rfl rfl
    hw hscan (answers_script _ _ [] (List.append_nil _).symm) hxlen (by omega) rfl rfl 0
  have hbytes : (encodeRx [0x00] m l k t e data (dcs t e data) p).length = 12 + data.length := by
    simp [encodeRx]
    omega
  rw [← hbytes]
  simp only [bodyOk_dcs, if_true] at hrun
  exact decodeStream_of_okAt rfl hrun

/-- Settles O18: the instruction of a word is well formed, and a well-formed instruction is fetched where it was placed. -/
theorem placedWordRunsNext : Obligations.PlacedWordRunsNext := by
  intro s nbits w i hbudget htx hword
  have hplace : s.withFetchWord nbits w = place i s := by simp [State.withFetchWord, hword]
  obtain ⟨u, hfetch, hkept⟩ := fetch_place (decodeTableWord_wellFormed hword) hbudget htx
  exact ⟨u, by rw [hplace, step_of_fetch hfetch], hkept.cfg, hkept.args, hkept.rxbuf, hkept.trace, hkept.path,
    hkept.script, hkept.draws, hkept.host, hkept.diag, hkept.resKind, hkept.resLen⟩

/-- Settles O29: the three codes are dispatched to the refusal. -/
theorem reservedCodesAreRefused : Obligations.ReservedCodesAreRefused := fun _ low hb =>
  ⟨congrArg Host.Outcome.next (request_refused hb (dispatch_reserved (.inl rfl))),
    congrArg Host.Outcome.next (request_refused hb (dispatch_reserved (.inr ⟨low, rfl⟩)))⟩

/-- Settles O36: TXN is latched from ARG_TXN, and dispatch refuses more than 253. -/
theorem sendcmdRefusesALongPayload : Obligations.SendcmdRefusesALongPayload := fun _ hb htxn =>
  congrArg Host.Outcome.next (request_refused hb (dispatch_longPayload rfl htxn))

end Sys2Proof.Machine
end

section
/-! PROOFS of the family 40_frame_codec: the round trips of command and response frames (O7, O8), the checksum arithmetic and
what a changed byte does to it (O1, O2, O5, O6), the layouts (O3, O4), and CF and AK where the machine meets them (O48, O49). -/

namespace Sys2Proof.Codec.Laws

/-! ## Byte arithmetic is arithmetic modulo 256 (R100) -/

theorem add8_toNat (a b : Byte) : (add8 a b).toNat = (a.toNat + b.toNat) % 256 := by rw [add8_eq, BitVec.toNat_add]

theorem neg8_toNat (x : Byte) : (neg8 x).toNat = (256 - x.toNat) % 256 := by rw [neg8_eq, BitVec.toNat_neg]

theorem sum8_eq_sum (bs : List Byte) : sum8 bs = bs.sum := by
  induction bs with
  | nil => rfl
  | cons b bs ih => rw [sum8_cons, List.sum_cons, ih]

theorem sum8_toNat (bs : List Byte) : (sum8 bs).toNat = (bs.map BitVec.toNat).sum % 256 := by
  induction bs with
  | nil => rfl
  | cons b bs ih => rw [sum8_cons, BitVec.toNat_add, ih, List.map_cons, List.sum_cons, Nat.add_mod_mod]

theorem sum8_eq_zero_iff (bs : List Byte) : sum8 bs = 0 ↔ (bs.map BitVec.toNat).sum % 256 = 0 := by
  rw [← BitVec.toNat_inj, sum8_toNat]
  rfl

theorem sum8_perm {xs ys : List Byte} (h : xs.Perm ys) : sum8 xs = sum8 ys := by
  rw [sum8_eq_sum, sum8_eq_sum, h.sum_eq]

/-- A byte sum keeps its value under the change of one byte only if that byte keeps its value. -/
theorem sum8_set_eq_iff {bs : List Byte} {i : Nat} (hi : i < bs.length) (v : Byte) :
    sum8 (bs.set i v) = sum8 bs ↔ v = bs[i] := by
  rw [sum8_eq_sum, sum8_eq_sum, List.sum_set', dif_pos hi, add_eq_left, neg_add_eq_zero, eq_comm]

/-! ## The length checks and the data check (R101, R102) -/

theorem lenOk_iff (l k : Byte) : lenOk l k = true ↔ l + k = 0 := by rw [lenOk, beq_iff_eq, add8_eq]

theorem lenOk_lcs (l : Byte) : lenOk l (lcs l) = true := by rw [lenOk_iff, lcs, neg8_eq, add_neg_cancel]

/-- R101, R77: the two bytes of the extended marker fail the length check. -/
theorem isExtMark_of_lenOk {l k : Byte} (h : lenOk l k = true) : isExtMark l k = false := by
  rw [Bool.eq_false_iff]
  intro hmark
  simp only [isExtMark, Bool.and_eq_true, beq_iff_eq] at hmark
  obtain ⟨rfl, rfl⟩ := hmark
  exact absurd h (by decide)

theorem bodyOk_iff_sum8 (t c : Byte) (data : List Byte) (k : Byte) :
    bodyOk t c data k = true ↔ sum8 (t :: c :: (data ++ [k])) = 0 := by rw [bodyOk, beq_iff_eq]

/-- R102: the only checksum the data check takes is DCS. -/
theorem bodyOk_iff_dcs (t c : Byte) (data : List Byte) (k : Byte) : bodyOk t c data k = true ↔ k = dcs t c data := by
  have hsum : t :: c :: (data ++ [k]) = (t :: c :: data) ++ [k] := rfl
  rw [bodyOk_iff_sum8, hsum, sum8_append, sum8_cons k, sum8_nil, add_zero, add_comm, dcs, neg8_eq, eq_neg_iff_add_eq_zero]

/-! ## The ACK comparator (R107) -/

theorem isAck_iff (bs : List Byte) : isAck bs = true ↔ bs = Config.ackSeq := by rw [isAck, beq_iff_eq]

/-- R107: the ACK sequence with one position changed is no ACK. -/
theorem isAck_set_ackSeq {i : Nat} {v : Byte} (hi : i < 6) (hchanged : Config.ackSeq[i]? ≠ some v) :
    isAck (Config.ackSeq.set i v) = false := by
  rw [Bool.eq_false_iff, ne_eq, isAck_iff]
  intro hsame
  exact hchanged (by rw [← hsame, List.getElem?_set_self hi])

/-! ## Command and response frames with their own length and checksum (R104, R109) -/

/-- R104, R71: ENCODE's frame is the response frame of its own direction, one preamble byte before the start code. -/
theorem encodeFrame_eq_encodeRn (c : Byte) (data : List Byte) :
    encodeFrame c data = encodeRn [Config.preamble] (lenByte data.length) (lcs (lenByte data.length))
      Config.tfiHostToChip c data (dcs Config.tfiHostToChip c data) Config.postamble := by
  simp [encodeFrame, encodeRn]

theorem encodeRn_length (noise : List Byte) (l k t r : Byte) (d : List Byte) (x p : Byte) :
    (encodeRn noise l k t r d x p).length = noise.length + 8 + d.length := by
  simp [encodeRn]
  omega

theorem wellFormed_goodRn (t e : Byte) {data : List Byte} (h : data.length ≤ Config.maxTxPayload) :
    (Instr.rn [0x00] (lenByte data.length) (lcs (lenByte data.length)) t e data (dcs t e data) 0x00).WellFormed := by
  simp [Instr.WellFormed, Instr.wellFormed, splitStart, isExtMark_of_lenOk (lenOk_lcs _), dataLen, lenByte_toNat h]

end Sys2Proof.Codec.Laws

namespace Sys2Proof.Machine.Laws

open Codec Codec.Laws

/-! ## The ACK frame inbound and outbound (R132, R136) -/

/-- R132: the six ACK bytes presented in ACK_CHECK are read in one transfer, captured, and accepted. -/
theorem tick_present_ackSeq {s : State} (hq : s.seq = .ackCheck) :
    tick (present Config.ackSeq s) = { s with
      seq := .awaitReady2
      path := s.path ++ [.awaitReady2]
      sel := false
      work := { s.work with ackb := ⟨0x00, 0x00, 0xFF, 0x00, 0xFF, 0x00⟩, idx := 6, cnt := 0 }
      trace := s.trace ++ transferEvents s.cfg s.cfg.pfxRead (Config.ackSeq.map Event.rd) } := by
  have hread : (present Config.ackSeq s).answers 0 6 = Config.ackSeq := answers_script _ Config.ackSeq s.script rfl
  have hleft : (present Config.ackSeq s).skip 6 = s := skip_of_script (bs := Config.ackSeq) rfl
  have hack : ackOf (present Config.ackSeq s) 0 = ⟨0x00, 0x00, 0xFF, 0x00, 0xFF, 0x00⟩ := ackOf_eq hread
  rw [tick_ack (x := present Config.ackSeq s) hq]
  simp only [hread, hleft, hack, if_true]
  rfl

/-- R136: in SA_SEND the six ACK bytes go out in one write transfer, and the operation ends Ok. -/
theorem tick_saSend {s : State} (hq : s.seq = .saSend) :
    tick s = { s with
      seq := .idle
      path := s.path ++ [.done, .idle]
      busy := false
      sel := false
      work := { s.work with idx := 6 }
      resKind := .ok
      resLen := 0
      trace := s.trace ++ transferEvents s.cfg s.cfg.pfxWrite (Config.ackSeq.map Event.wr) } := by
  have hmove : tick s = saSend s := by simp only [tick, hq]
  rw [hmove, saSend, succeed_eq]
  simp [transfer, ackFrameBody, writeBytes_eq, openTransfer_eq, busDeselect, transferEvents]

/-! ## DECODE of a good normal response frame (R108, R162) -/

/-- A normal frame with a good length field, read whole (`run_rn`), whose checksum is DCS (`bodyOk_dcs`). -/
theorem decodeStream_rn {cfg : Config} {noise data : List Byte} {l k t e p : Byte} (cap : U16)
    (hw : (Instr.rn noise l k t e data (dcs t e data) p).WellFormed) (hn : noise.length + 2 ≤ cfg.scanBudget)
    (hlen : lenOk l k = true) (hmin : 2 ≤ l.toNat) :
    decodeStream cfg t e cap (encodeRn noise l k t e data (dcs t e data) p) =
      ⟨.ok, min data.length cap.toNat, data.take cap.toNat, noise.length + 8 + data.length⟩ := by
  have hrun := run_rn (x := scanStart (decoderStart cfg t e cap (encodeRn noise l k t e data (dcs t e data) p))) rfl rfl
    hw hn (answers_script _ _ [] (List.append_nil _).symm) hlen hmin rfl rfl 0
  simp only [bodyOk_dcs, if_true] at hrun
  rw [← encodeRn_length noise l k t e data (dcs t e data) p]
  exact decodeStream_of_okAt rfl hrun

end Sys2Proof.Machine.Laws

namespace Sys2Proof.Machine

open Laws Codec Codec.Laws

/-- Settles O8: the frame of R109 is a good normal frame behind one byte of noise (`decodeStream_rn`). -/
theorem responseRoundTrip : Obligations.ResponseRoundTrip := fun _ t e data cap hscan hlen =>
  decodeStream_rn cap (wellFormed_goodRn t e hlen) hscan (lenOk_lcs _) (by rw [lenByte_toNat hlen]; omega)

/-- Settles O7: a command frame is a good response frame of direction D4 (`encodeFrame_eq_encodeRn`), and a capacity of at
least N cuts nothing off its data. -/
theorem commandRoundTrip : Obligations.CommandRoundTrip := by
  intro cfg c data cap hscan hlen hcap
  have hframe := responseRoundTrip cfg 0xD4 c data cap hscan hlen
  rw [Nat.min_eq_left hcap, List.take_of_length_le hcap] at hframe
  rw [encodeFrame_eq_encodeRn]
  exact hframe

/-- Settles O2: the data check is a sum of naturals modulo 256, and DCS is the one checksum it takes. -/
theorem dataChecksumRule : Obligations.DataChecksumRule := by
  intro t c data k
  refine ⟨rfl, ?_, bodyOk_iff_dcs t c data k, ?_, by decide, by decide⟩
  · rw [bodyOk_iff_sum8, sum8_eq_zero_iff]
    simp [Nat.add_assoc]
  · rw [dcs, sum8_cons, sum8_cons, sum8_nil, add_zero, add8_eq]

/-- Settles O5: addition and negation are those of the ring of 8-bit vectors, and `sum8` is its list sum. -/
theorem byteArithmeticLaws : Obligations.ByteArithmeticLaws :=
  ⟨add8_toNat, fun x => ⟨by rw [neg8_eq, add8_eq, add_neg_cancel], by rw [neg8_eq, neg8_eq, neg_neg]⟩,
    fun _ _ h => sum8_perm h, rfl, by decide, by decide, by decide, by decide⟩

/-- Settles O6: a sum that stays zero under the change of one of its bytes leaves that byte as it was (`sum8_set_eq_iff`). -/
theorem oneChangedByteBreaksTheCheck : Obligations.OneChangedByteBreaksTheCheck := by
  refine ⟨fun t c data k i v hgood hi hchanged hzero => ?_, fun l k v hgood => ?_⟩
  · have hlt : i < (t :: c :: (data ++ [k])).length := by
      simp
      omega
    have hsame := (sum8_set_eq_iff hlt v).mp (hzero.trans ((bodyOk_iff_sum8 t c data k).mp hgood).symm)
    exact hchanged (by rw [hsame, List.getElem?_eq_getElem hlt])
  · rw [lenOk_iff] at hgood
    simp only [Bool.eq_false_iff, ne_eq, lenOk_iff, ← hgood, add_left_inj, add_right_inj]
    exact ⟨id, id⟩

/-- Settles O48: inbound, the ACK frame is delivered to the ACK check; outbound, it is the move SA_SEND makes. -/
theorem ackFrameTakenAndSent : Obligations.AckFrameTakenAndSent := by
  intro s hb
  refine ⟨fun hq => ?_, fun hq => ?_⟩
  · have htaken : exec .ak s = .next (tick (present Config.ackSeq s)) := by
      rw [exec_inbound (by simp [hq]) (.inr (.inl rfl)), deliver_busy hb,
        inFlight_outside (by rw [present_seq, hq]; rfl)]
    rw [htaken, tick_present_ackSeq hq]
    rfl
  · have hsent : exec .ak s = .next (inFlight s) := congrArg Host.Outcome.next (if_pos (by simp [hb, hq]))
    rw [hsent, inFlight_outside (by rw [hq]; rfl), tick_saSend hq]
    rfl

/-- Settles O49: in SENT the frame is one update (`sendFrame_eq`); outside SENT or its domain the codec touches nothing. -/
theorem commandFrameGoesOut : Obligations.CommandFrameGoesOut := by
  intro s c data
  have hout (h : ¬(s.seq = .sent ∧ data.length ≤ Config.maxTxPayload)) : exec (.cf c data) s = .next s :=
    congrArg Host.Outcome.next (if_neg h)
  refine ⟨fun hq hlen => ?_, fun hq => hout fun h => hq h.1, fun hlong => hout fun h => Nat.not_le.mpr hlong h.2⟩
  exact congrArg Host.Outcome.next ((if_pos ⟨hq, hlen⟩).trans (sendFrame_eq c data s))

/-- Settles O1: both length checks are sums of naturals modulo 256 (`sum8_toNat`). -/
theorem lengthChecksumRule : Obligations.LengthChecksumRule := by
  intro l l0 l1 xm xl xc
  refine ⟨rfl, neg8_toNat l, ?_, ?_, by decide, by decide, by decide, by decide, by decide⟩
  · rw [lenOk, beq_iff_eq, ← BitVec.toNat_inj, add8_toNat]
    rfl
  · rw [xlenOk, beq_iff_eq, sum8_eq_zero_iff]
    simp [Nat.add_assoc]

/-- Settles O3: the layout is ENCODE's own, and LEN is at most 255 because N is at most 253. -/
theorem commandFrameLayout : Obligations.CommandFrameLayout := by
  refine ⟨fun c data hlen => ⟨rfl, lenByte_toNat hlen, encodeFrame_length c data, fun hmax => ?_⟩, by decide⟩
  have hbytes : (encodeFrame c data)[3]? = some (lenByte data.length)
      ∧ (encodeFrame c data)[4]? = some (lcs (lenByte data.length)) := ⟨rfl, rfl⟩
  rw [hmax] at hbytes
  exact hbytes

/-- Settles O4: the comparator is equality with the ACK sequence (`isAck_iff`). -/
theorem ackComparatorIsExact : Obligations.AckComparatorIsExact := by
  refine ⟨fun a b c d e f => ?_, fun _ _ => isAck_set_ackSeq⟩
  rw [isAck_iff]
  simp [Config.ackSeq]

end Sys2Proof.Machine
end

section
/-! PROOFS of the family 41_handshake: the ready test (O45), one status byte in a ready loop (O46, O47), and WAKE, SENDACK,
WAITRDY and SENDCMD whole (O27, O28, O30 to O35). -/

namespace Sys2Proof.Machine.Laws

open Codec Codec.Laws

/-! ## The ready test (R123) -/

theorem ready_eq_getLsbD (b : Byte) : ready b = b.getLsbD 0 := by
  have hmask : b &&& Config.readyMask = (BitVec.ofBool (b.getLsbD 0)).setWidth 8 :=
    BitVec.and_one_eq_setWidth_ofBool_getLsbD
  rw [ready, hmask]
  cases b.getLsbD 0 <;> rfl

/-- R74: bit 0 of a status byte is its ready bit. -/
theorem ready_statusByte (hi : BitVec 7) (rdy : BitVec 1) : ready (statusByte hi rdy) = rdy.getLsbD 0 := by
  rw [ready_eq_getLsbD, statusByte, BitVec.getLsbD_append]
  rfl

/-! ## One status byte presented to a ready loop (R122, R124) -/

/-- A ready loop after one status transfer of the byte `b`, its verdict still to come. -/
def statusTaken (b : Byte) (s : State) : State :=
  { s with
    sel := false
    work := { s.work with cnt := s.work.cnt + 1 }
    trace := s.trace ++ pollEvents s.cfg [b] }

theorem polled_present (b : Byte) (s : State) : polled (present [b] s) 1 = statusTaken b s := by
  have hread : (present [b] s).answers 0 1 = [b] := answers_script _ [b] s.script rfl
  have hleft : (present [b] s).skip 1 = s := skip_of_script (bs := [b]) rfl
  rw [polled, hread, hleft]
  rfl

/-- R124: with budget left, the byte is read, and it decides between the loop's two exits and staying. -/
theorem tick_present_status {s : State} (hq : inPoll s.seq = true) (hcnt : s.work.cnt < s.cfg.readyPollBudget) (b : Byte) :
    tick (present [b] s) =
      if ready b then onReady s.seq (statusTaken b s)
      else if s.work.cnt + 1 < s.cfg.readyPollBudget then statusTaken b s
      else pollTimeout s.seq (statusTaken b s) := by
  have hpoll := poll_polled (onReady s.seq) (pollTimeout s.seq) (present [b] s) 0 hcnt
  rw [polled_zero, polled_present] at hpoll
  exact (tick_poll (s := present [b] s) hq).trans hpoll

/-- R127, R133: a ready byte ends WAITRDY, and SENDCMD in its second loop. -/
theorem onReady_eq_succeed {q : Seq} (hq : q = .wrPoll ∨ q = .awaitReady2) : onReady q = succeed 0 := by
  rcases hq with rfl | rfl <;> rfl

theorem inReader_of_inPoll {q : Seq} (hq : inPoll q = true) : q.inReader = false := by
  cases q
  case wrPoll | awaitReady1 | awaitReady2 => rfl
  all_goals cases hq

/-- Log 9: a status row met in a ready loop is the loop's next move on that byte. -/
theorem exec_status_of_inPoll {i : Instr} {b : Byte} {s : State} (hb : s.busy = true) (hq : inPoll s.seq = true)
    (hi : encode i = .status [b]) : exec i s = .next (tick (present [b] s)) := by
  have hsend : s.seq ≠ .saSend := fun h => by rw [h] at hq; cases hq
  rw [exec_inbound hsend (.inl hi), deliver_busy hb, inFlight_outside (s := present [b] s) (inReader_of_inPoll hq)]

/-! ## Requests as chains of moves (R31, R61) -/

/-- Some number of moves leads from `x` to `y`. -/
def Reaches (x y : State) : Prop := ∃ n, run n x = y

theorem Reaches.trans {x y z : State} (h : Reaches x y) (k : Reaches y z) : Reaches x z := by
  obtain ⟨n, rfl⟩ := h
  obtain ⟨m, rfl⟩ := k
  exact ⟨n + m, run_add n m x⟩

theorem reaches_tick {x : State} (hb : x.busy = true) : Reaches x (tick x) := ⟨1, run_busy hb 0⟩

/-- A request of an idle machine whose moves lead to `t`, BUSY cleared there, answers `t`. -/
theorem request_of_reaches {o : BitVec 3} {s t : State} (hb : s.busy = false) (ht : t.busy = false)
    (h : Reaches (dispatch (accept o s)) { t with busy := false }) : request o s = t := by
  have hidle : { t with busy := false } = t := by rw [← ht]
  obtain ⟨n, hn⟩ := h
  exact request_eq hb n (hn.trans hidle) ht

/-! ## Dispatch (R31, R80) and the moves of WAKE, SENDACK and SENDCMD that read nothing (R126, R130) -/

theorem dispatch_wake (s : State) : dispatch (accept opWake s) = setSeq .wkHold (accept opWake s) := if_pos rfl

theorem dispatch_sendack (s : State) : dispatch (accept opSendack s) = setSeq .saSend (accept opSendack s) := by
  simp [dispatch, accept, opWake, opWaitrdy, opSendcmd, opReadrsp, opSendack]

theorem dispatch_sendcmd {s : State} (htxn : s.args.txn.toNat ≤ Config.maxTxPayload) :
    dispatch (accept opSendcmd s) = setSeq .sent (accept opSendcmd s) := by
  simp [dispatch, accept, opWake, opWaitrdy, opSendcmd, Nat.not_lt.mpr htxn]

/-- R126: WK_HOLD's move. -/
theorem tick_wkHold {s : State} (hq : s.seq = .wkHold) :
    tick s = { s with
      seq := .idle
      path := s.path ++ [.done, .idle]
      busy := false
      sel := false
      resKind := .ok
      resLen := 0
      trace := s.trace ++ [.sel, .dly s.cfg.wakeUs, .des] } := by
  have hmove : tick s = wkHold s := by simp only [tick, hq]
  rw [hmove, wkHold, succeed_eq]
  simp [busDeselect, delay, busSelect]

/-- R130: SENT's move. -/
theorem tick_sent {s : State} (hq : s.seq = .sent) : tick s = sendFrame s.work.cmd (payload s) s := by
  simp only [tick, hq, sent]

/-- R126, R181: WAKE from acceptance to its exit. -/
theorem request_wake {s : State} (hb : s.busy = false) :
    request opWake s = { s with
      seq := .idle
      path := s.path ++ [.wkHold, .done, .idle]
      sel := false
      work := latched opWake s
      resKind := .ok
      resLen := 0
      trace := s.trace ++ [.sel, .dly s.cfg.wakeUs, .des] } := by
  refine request_of_reaches hb hb ?_
  have hmove := reaches_tick (x := setSeq .wkHold (accept opWake s)) rfl
  rw [tick_wkHold rfl, setSeq_path, List.append_assoc] at hmove
  rw [dispatch_wake]
  exact hmove

/-! ## WAITRDY and SENDCMD between two moves -/

/-- An operation accepted in `s`, after `n` answers, at sequencer state `q`: `p` has been added to the path, SEL is `b`, the
working registers are `w` and TRACE is `tr`; nothing else has changed. -/
def flight (s : State) (n : Nat) (q : Seq) (p : List Seq) (b : Bool) (w : Work) (tr : List Event) : State :=
  { s.skip n with seq := q, path := s.path ++ p, busy := true, sel := b, work := w, trace := tr }

section

variable {s : State} {n : Nat} {q : Seq} {p : List Seq} {b : Bool} {w : Work} {tr : List Event}

theorem flight_answer (j : Nat) : (flight s n q p b w tr).answer j = s.answer (n + j) := answer_skip s n j

theorem flight_answers (j k : Nat) : (flight s n q p b w tr).answers j k = s.answers (n + j) k := answers_skip s n j k

theorem flight_skip (k : Nat) : (flight s n q p b w tr).skip k = flight s (n + k) q p b w tr := by
  simp only [flight, State.skip, List.drop_drop, drop_draws]

theorem setSeq_flight (r : Seq) : setSeq r (flight s n q p b w tr) = flight s n r (p ++ [r]) b w tr := by
  simp only [setSeq, flight, List.append_assoc]

/-- R195: the success exit. -/
theorem succeed_flight (m : U16) : succeed m (flight s n q p b w tr) =
    { flight s n .idle (p ++ [.done, .idle]) b w tr with busy := false, resKind := .ok, resLen := m } := by
  rw [succeed_eq]
  simp only [flight, List.append_assoc]

/-- R196: the failure exit of an operation that has closed its transfers. -/
theorem raise_flight (hsel : b = false) (k : Kind) (x : DiagInfo) : raise k x (flight s n q p b w tr) =
    { flight s n .idle (p ++ [.failed, .idle]) b w tr with
      busy := false, resKind := k, resLen := 0, diag := s.diag.map fun log => log ++ [⟨k, x⟩] } := by
  subst hsel
  rw [raise_eq]
  simp only [flight, List.append_assoc]
  rfl

theorem polled_flight (k : Nat) : polled (flight s n q p b w tr) k =
    flight s (n + k) q p (if k = 0 then b else false) { w with cnt := w.cnt + k }
      (tr ++ pollEvents s.cfg (s.answers n k)) := by
  rw [polled, flight_skip, flight_answers]
  rfl

/-- R124: a ready loop just entered, whose `k`-th poll is the first to see ready. -/
theorem reaches_ready {k : Nat} (hq : inPoll q = true) (hc : w.cnt = 0) (h : readyAt s n k) :
    Reaches (flight s n q p b w tr) (onReady q
      (flight s (n + (k + 1)) q p false { w with cnt := k + 1 } (tr ++ pollEvents s.cfg (s.answers n (k + 1))))) := by
  obtain ⟨hk, hno, hyes⟩ := h
  have hrun := run_poll_ready (s := flight s n q p b w tr) rfl hq (fun j hj => by rw [flight_answer, hno j hj])
    (by rw [flight_answer, hyes]) (by rw [show (flight s n q p b w tr).work.cnt = 0 from hc, Nat.zero_add]; exact hk) 0
  rw [polled_flight, hc, Nat.zero_add (k + 1)] at hrun
  exact ⟨_, hrun⟩

/-- R124, R191: a ready loop just entered that sees no ready byte within its budget. -/
theorem reaches_exhausted (hq : inPoll q = true) (hc : w.cnt = 0) (hsel : b = false) (h : neverReady s n) :
    Reaches (flight s n q p b w tr) (raise .timeout (.loop q)
      (flight s (n + s.cfg.readyPollBudget) q p b { w with cnt := s.cfg.readyPollBudget }
        (tr ++ pollEvents s.cfg (s.answers n s.cfg.readyPollBudget)))) := by
  subst hsel
  have hrun := run_poll_exhausted (s := flight s n q p false w tr) rfl hq hc
    (fun j hj => by rw [flight_answer, h j hj]) 0
  rw [polled_flight, hc, ite_self, Nat.zero_add, Nat.zero_add] at hrun
  exact ⟨_, hrun⟩

/-- R132: the ACK is next: captured, and on to the second ready loop. -/
theorem reaches_ack (h : answersAre s n Config.ackSeq) :
    Reaches (flight s n .ackCheck p b w tr)
      (flight s (n + 6) .awaitReady2 (p ++ [.awaitReady2]) false
        { w with ackb := ⟨0x00, 0x00, 0xFF, 0x00, 0xFF, 0x00⟩, idx := 6, cnt := 0 }
        (tr ++ transferEvents s.cfg s.cfg.pfxRead (Config.ackSeq.map Event.rd))) := by
  have hread : (flight s n .ackCheck p b w tr).answers 0 6 = Config.ackSeq := (flight_answers 0 6).trans h
  have hack : ackOf (flight s n .ackCheck p b w tr) 0 = ⟨0x00, 0x00, 0xFF, 0x00, 0xFF, 0x00⟩ := ackOf_eq hread
  have hmove := reaches_tick (x := flight s n .ackCheck p b w tr) rfl
  rw [tick_ack rfl] at hmove
  simp only [hread, hack, if_true, flight_skip] at hmove
  simpa only [flight, skip_cfg, skip_diag, List.append_assoc] using hmove

/-- R132, R192: six other bytes are next: captured all the same, and ProtocolMismatch. -/
theorem reaches_noAck {a : AckBytes} (h : answersAre s n a.toList) (hno : a.toList ≠ Config.ackSeq) :
    Reaches (flight s n .ackCheck p b w tr)
      (raise .protocolMismatch (.ackBytes a) (flight s (n + 6) .ackCheck p false { w with ackb := a, idx := 6 }
        (tr ++ transferEvents s.cfg s.cfg.pfxRead (a.toList.map Event.rd)))) := by
  have hread : (flight s n .ackCheck p b w tr).answers 0 6 = a.toList := (flight_answers 0 6).trans h
  have hmove := reaches_tick (x := flight s n .ackCheck p b w tr) rfl
  rw [tick_ack rfl] at hmove
  simp only [hread, hno, ackOf_eq hread, if_false, flight_skip] at hmove
  rw [raise_flight rfl]
  simpa only [flight, skip_cfg, skip_diag, List.append_assoc] using hmove

end

/-- R127, R124: an accepted WAITRDY has just entered its ready loop. -/
theorem reaches_wrPoll (s : State) : Reaches (dispatch (accept opWaitrdy s))
    (flight s 0 .wrPoll [.wrPoll] s.sel { latched opWaitrdy s with cnt := 0 } s.trace) := by
  have hentry : dispatch (accept opWaitrdy s) = enterPoll .wrPoll (accept opWaitrdy s) := by
    simp [dispatch, accept, opWake, opWaitrdy]
  rw [hentry, flight, skip_zero]
  exact ⟨0, rfl⟩

/-! ## SENDCMD up to its second ready loop (R130 to R132) -/

/-- The working registers once the command frame is out. -/
def frameWork (s : State) : Work :=
  { latched opSendcmd s with
    acc := sum8 (0xD4 :: s.args.cmd :: requestPayload s), idx := s.args.txn.toNat, cnt := 0 }

/-- TRACE once the command frame is out. -/
def frameTrace (s : State) : List Event :=
  s.trace ++ transferEvents s.cfg s.cfg.pfxWrite ((encodeFrame s.args.cmd (requestPayload s)).map Event.wr)

/-- R130: an accepted SENDCMD sends its frame and enters the first ready loop. -/
theorem reaches_frame {s : State} (htxn : s.args.txn.toNat ≤ 253) :
    Reaches (dispatch (accept opSendcmd s))
      (flight s 0 .awaitReady1 [.sent, .awaitReady1] false (frameWork s) (frameTrace s)) := by
  have hlen : (payload (setSeq .sent (accept opSendcmd s))).length = s.args.txn.toNat := Memory.bytes_length _ _
  have hmove := reaches_tick (x := setSeq .sent (accept opSendcmd s)) rfl
  rw [tick_sent rfl, sendFrame_eq, hlen, setSeq_path, List.append_assoc] at hmove
  rw [dispatch_sendcmd htxn, flight, skip_zero]
  exact hmove

/-- R131: its first ready loop sees ready at poll `k`. -/
theorem reaches_ackCheck {s : State} {k : Nat} (htxn : s.args.txn.toNat ≤ 253) (h : readyAt s 0 k) :
    Reaches (dispatch (accept opSendcmd s))
      (flight s (k + 1) .ackCheck [.sent, .awaitReady1, .ackCheck] false { frameWork s with cnt := k + 1 }
        (frameTrace s ++ pollEvents s.cfg (s.answers 0 (k + 1)))) := by
  have hready := (reaches_frame htxn).trans (reaches_ready rfl rfl h)
  rw [onReady, setSeq_flight, Nat.zero_add (k + 1)] at hready
  exact hready

/-- R132: and the six bytes behind those polls are the ACK. -/
theorem reaches_awaitReady2 {s : State} {k : Nat} (htxn : s.args.txn.toNat ≤ 253) (h : readyAt s 0 k)
    (hack : answersAre s (k + 1) Config.ackSeq) :
    Reaches (dispatch (accept opSendcmd s))
      (flight s (k + 7) .awaitReady2 [.sent, .awaitReady1, .ackCheck, .awaitReady2] false
        { frameWork s with ackb := ⟨0x00, 0x00, 0xFF, 0x00, 0xFF, 0x00⟩, idx := 6 }
        (frameTrace s ++ pollEvents s.cfg (s.answers 0 (k + 1))
          ++ transferEvents s.cfg s.cfg.pfxRead (Config.ackSeq.map Event.rd))) :=
  (reaches_ackCheck htxn h).trans (reaches_ack hack)

end Sys2Proof.Machine.Laws

namespace Sys2Proof.Machine

open Laws Codec Codec.Laws

/-- Settles O45: the mask is 1 (`ready_eq_getLsbD`), and the appended bit is bit 0 (`ready_statusByte`). -/
theorem readyIsBitZero : Obligations.ReadyIsBitZero :=
  ⟨ready_eq_getLsbD, fun hi => ⟨ready_statusByte hi 1, ready_statusByte hi 0⟩⟩

/-- Settles O27: WAKE is the request, and INIT expands to it. -/
theorem wakeHoldsTheSelect : Obligations.WakeHoldsTheSelect := fun _ hb =>
  ⟨congrArg Host.Outcome.next (request_wake hb), congrArg Host.Outcome.next (request_wake hb)⟩

/-- Settles O28: the only move is SA_SEND's (`tick_saSend`). -/
theorem sendackWritesTheAckFrame : Obligations.SendackWritesTheAckFrame := by
  intro s hb
  refine congrArg Host.Outcome.next (request_of_reaches hb hb ?_)
  have hmove := reaches_tick (x := setSeq .saSend (accept opSendack s)) rfl
  rw [tick_saSend rfl, setSeq_path, List.append_assoc] at hmove
  rw [dispatch_sendack]
  exact hmove

/-- Settles O46: the byte is ready, so each loop leaves by its ready exit. -/
theorem readyByteEndsTheLoop : Obligations.ReadyByteEndsTheLoop := by
  intro s hi hb hcnt
  have hready : ready (statusByte hi 1) = true := ready_statusByte hi 1
  have hexit (hq : inPoll s.seq = true) :
      exec (.stReady hi) s = .next (onReady s.seq (statusTaken (statusByte hi 1) s)) := by
    rw [exec_status_of_inPoll hb hq rfl, tick_present_status hq hcnt, if_pos hready]
  refine ⟨fun hq => ?_, fun hq => ?_⟩
  · rw [hexit (by rcases hq with hq | hq <;> rw [hq] <;> rfl), onReady_eq_succeed hq, succeed_eq]
    rfl
  · rw [hexit (by rw [hq]; rfl), hq]
    rfl

/-- Settles O47: the byte is not ready, so the loop stays or, its budget used up, times out. -/
theorem notReadyByteGoesOnOrTimesOut : Obligations.NotReadyByteGoesOnOrTimesOut := by
  intro s hi hb hcnt hq
  have hpoll : inPoll s.seq = true := by rcases hq with hq | hq | hq <;> rw [hq] <;> rfl
  have hready : ready (statusByte hi 0) = false := ready_statusByte hi 0
  have hmove := exec_status_of_inPoll (i := .stNotReady hi) hb hpoll rfl
  rw [tick_present_status hpoll hcnt, hready, if_neg Bool.false_ne_true] at hmove
  refine ⟨fun hleft => ?_, fun hlast => ?_⟩
  · rw [hmove, if_pos hleft]
    rfl
  · rw [hmove, if_neg (by omega), pollTimeout, raise_eq]
    rfl

/-- Settles O30: from WR_POLL the ready loop is left by its ready exit. -/
theorem waitrdySeesReady : Obligations.WaitrdySeesReady := by
  intro s k hb h
  refine congrArg Host.Outcome.next (request_of_reaches hb hb ?_)
  have hready := (reaches_wrPoll s).trans (reaches_ready rfl rfl h)
  rw [onReady_eq_succeed (.inl rfl), succeed_flight, Nat.zero_add (k + 1)] at hready
  exact hready

/-- Settles O31: the ready loop runs out of its budget, deselected since SEL was clear. -/
theorem waitrdyTimesOut : Obligations.WaitrdyTimesOut := by
  intro s hb hsel h
  refine congrArg Host.Outcome.next (request_of_reaches hb hb ?_)
  have htimeout := (reaches_wrPoll s).trans (reaches_exhausted rfl rfl hsel h)
  rw [raise_flight hsel, Nat.zero_add] at htimeout
  exact htimeout

/-- Settles O33: the frame goes out, and the first ready loop runs out of its budget. -/
theorem sendcmdTimesOutBeforeTheAck : Obligations.SendcmdTimesOutBeforeTheAck := by
  intro s hb htxn h
  refine congrArg Host.Outcome.next (request_of_reaches hb hb ?_)
  have htimeout := (reaches_frame htxn).trans (reaches_exhausted rfl rfl rfl h)
  rw [raise_flight rfl, Nat.zero_add] at htimeout
  exact htimeout

/-- Settles O34: the first ready loop ends, and the ACK check meets six other bytes. -/
theorem sendcmdMeetsNoAck : Obligations.SendcmdMeetsNoAck := by
  intro s k a hb htxn h hread hno
  refine congrArg Host.Outcome.next (request_of_reaches hb hb ?_)
  have hmismatch := (reaches_ackCheck htxn h).trans (reaches_noAck hread hno)
  rw [raise_flight rfl] at hmismatch
  exact hmismatch

/-- Settles O32: the second ready loop, with a fresh budget, is left by its ready exit. -/
theorem sendcmdSucceeds : Obligations.SendcmdSucceeds := by
  intro s k1 k2 hb htxn h1 hack h2
  refine congrArg Host.Outcome.next (request_of_reaches hb hb ?_)
  have hready := (reaches_awaitReady2 htxn h1 hack).trans (reaches_ready rfl rfl h2)
  rw [onReady_eq_succeed (.inr rfl), succeed_flight, show k1 + 7 + (k2 + 1) = k1 + k2 + 8 by omega] at hready
  exact hready

/-- Settles O35: the second ready loop, with a fresh budget, runs out of it. -/
theorem sendcmdTimesOutAfterTheAck : Obligations.SendcmdTimesOutAfterTheAck := by
  intro s k hb htxn h1 hack h2
  refine congrArg Host.Outcome.next (request_of_reaches hb hb ?_)
  have htimeout := (reaches_awaitReady2 htxn h1 hack).trans (reaches_exhausted rfl rfl rfl h2)
  rw [raise_flight rfl] at htimeout
  exact htimeout

end Sys2Proof.Machine
end

section
/-! PROOFS of the family 42_response_reader: the rules of RR_LEN, RR_XLEN and RR_DATA (O53 to O55), READRSP whole on good and bad
responses (O37 to O42), and RN and RX met in RR_SCAN (O50, O51, O60). -/

namespace Sys2Proof.Codec.Laws

/-! ## Length fields and start codes (R76, R77, R78, R101) -/

theorem isExtMark_iff (l0 l1 : Byte) : isExtMark l0 l1 = true ↔ l0 = 0xFF ∧ l1 = 0xFF := by
  rw [isExtMark, Bool.and_eq_true, beq_iff_eq, beq_iff_eq]
  rfl

/-- R59, R76: an extended length is most significant byte first. -/
theorem xlen_eq_ofNat (m l : Byte) : xlen m l = BitVec.ofNat 16 (m.toNat * 256 + l.toNat) := by
  have hshift : m.toNat <<< 8 ||| l.toNat = m.toNat * 256 + l.toNat := by
    rw [← Nat.shiftLeft_add_eq_or_of_lt l.isLt, Nat.shiftLeft_eq]
  apply BitVec.eq_of_toNat_eq
  rw [xlen, BitVec.toNat_or, BitVec.toNat_shiftLeft, BitVec.toNat_setWidth_of_le (by decide),
    BitVec.toNat_setWidth_of_le (by decide), BitVec.toNat_ofNat, ← hshift]
  have hm := m.isLt
  have hl := l.isLt
  rw [Nat.mod_eq_of_lt (by rw [Nat.shiftLeft_eq]; omega), Nat.mod_eq_of_lt (by omega)]

/-- R152: no start code ends before the first one does. -/
theorem splitStart_take {noise : List Byte} (h : splitStart noise = none) (rest : List Byte) {n : Nat}
    (hn : n < noise.length + 2) :
    splitStart ((noise ++ Config.start1 :: Config.start2 :: rest).take n) = none := by
  cases hcut : splitStart ((noise ++ Config.start1 :: Config.start2 :: rest).take n) with
  | none => rfl
  | some split =>
    obtain ⟨early, behind⟩ := split
    obtain ⟨hbytes, hearly⟩ := splitStart_some hcut
    have hwhole := splitStart_noise h rest
    rw [← List.take_append_drop n (noise ++ _), hbytes, List.append_assoc, List.cons_append, List.cons_append,
      splitStart_noise hearly] at hwhole
    obtain ⟨rfl, -⟩ := Prod.mk.inj (Option.some.inj hwhole)
    have hlen := congrArg List.length hbytes
    simp only [List.length_take, List.length_append, List.length_cons] at hlen
    omega

/-! ## Response frames behind their noise (R71, R72) -/

theorem encodeRn_eq_noise (noise : List Byte) (l k t r : Byte) (d : List Byte) (x p : Byte) :
    encodeRn noise l k t r d x p = noise ++ Config.start1 :: Config.start2 :: ([l, k, t, r] ++ d ++ [x, p]) := by
  simp [encodeRn]

theorem encodeRx_eq_noise (noise : List Byte) (m l k t r : Byte) (d : List Byte) (x p : Byte) :
    encodeRx noise m l k t r d x p =
      noise ++ Config.start1 :: Config.start2 :: ([Config.extMark, Config.extMark, m, l, k, t, r] ++ d ++ [x, p]) := by
  simp [encodeRx]

theorem encodeRx_length (noise : List Byte) (m l k t r : Byte) (d : List Byte) (x p : Byte) :
    (encodeRx noise m l k t r d x p).length = noise.length + d.length + 11 := by
  rw [encodeRx_eq_noise]
  simp only [List.length_append, List.length_cons, List.length_nil]
  omega

end Sys2Proof.Codec.Laws

namespace Sys2Proof.Machine.Laws

open Codec Codec.Laws

/-! ## READRSP's failures, from RR_SCAN on (R191, R193) -/

/-- From RR_SCAN the machine `x` reads exactly `bs` and leaves by R196's exit: kind `k`, record `i`, RXBUF `m`, the sequencer
states `p` passed. -/
def ReaderFails (x : State) (k : Kind) (i : DiagInfo) (bs : List Byte) (m : Memory) (p : List Seq) : Prop :=
  answersAre x 0 bs ∧ ∃ w : Work, run 6 x = failAt x bs.length p w m k i ∧ w.ackb = x.work.ackb

/-- R151: an accepted READRSP opens its one read transfer and goes on from RR_SCAN. -/
theorem ReaderFails.readrspFails {s : State} {k : Kind} {i : DiagInfo} {bs : List Byte} {m : Memory} {p : List Seq}
    (hb : s.busy = false) (h : ReaderFails (scanStart s) k i bs m p) : ReadrspFails s k i bs m (.rrScan :: p) := by
  obtain ⟨hread, w, hrun, hack⟩ := h
  obtain ⟨hopl, hcmd, htxn, hexp, hcapl⟩ := (hrun ▸ keeps_run 6 (scanStart s)).latch
  refine ⟨w, congrArg Host.Outcome.next ((request_readrsp hb 6 hrun rfl).trans ?_), hopl, hcmd, htxn, hexp, hcapl, hack⟩
  rw [failAt, hread]
  simp [scanStart, transferEvents, State.skip, hb]

/-- A format presented in RR_SCAN is met by the rest of the READRSP. -/
theorem exec_response_in_scan {s : State} {i : Instr} {bs : List Byte} (hb : s.busy = true) (hq : s.seq = .rrScan)
    (hi : encode i = .response bs) : exec i s = .next (run 6 (present bs s)) := by
  have hreader : (present bs s).seq.inReader = true := by rw [present_seq, hq]; rfl
  rw [exec_inbound (by simp [hq]) (.inr (.inr hi)), deliver_busy hb, inFlight, if_pos hreader]

/-- Reading presented bytes takes them off the stream again. -/
theorem skip_present (bs left : List Byte) (s : State) :
    (present (bs ++ left) s).skip bs.length = { s with script := left ++ s.script } :=
  skip_of_script (List.append_assoc bs left s.script)

theorem answers_present (bs left : List Byte) (s : State) : answersAre (present (bs ++ left) s) 0 bs :=
  answers_script _ bs (left ++ s.script) (List.append_assoc bs left s.script)

/-- Log 9: a frame presented in RR_SCAN is read up to the failing check, and what is behind it stays. -/
theorem ReaderFails.scannedFrameFails {s : State} {i : Instr} {k : Kind} {e : DiagInfo} {bs left : List Byte} {m : Memory}
    {p : List Seq} (hb : s.busy = true) (hq : s.seq = .rrScan) (hsel : s.sel = true)
    (hi : encode i = .response (bs ++ left)) (h : ReaderFails (present (bs ++ left) s) k e bs m p) :
    ScannedFrameFails s i k e bs left m p := by
  obtain ⟨hread, w, hrun, hack⟩ := h
  obtain ⟨hopl, hcmd, htxn, hexp, hcapl⟩ := (hrun ▸ keeps_run 6 (present (bs ++ left) s)).latch
  refine ⟨w, ?_, hopl, hcmd, htxn, hexp, hcapl, hack⟩
  rw [exec_response_in_scan hb hq hi, hrun, failAt, hread, skip_present]
  simp [hsel]

/-- R152: the scan budget holds no start code. -/
theorem run_noStart {x : State} (hb : x.busy = true) (hq : x.seq = .rrScan)
    (h : splitStart (x.answers 0 x.cfg.scanBudget) = none) :
    run 6 x = failAt x x.cfg.scanBudget []
      { x.work with cnt := x.cfg.scanBudget, pz := pzAfter false (x.answers 0 x.cfg.scanBudget) } x.rxbuf .timeout
      (.loop .rrScan) := by
  rw [run_busy hb, tick_no_start hq h, run_idle rfl]

/-- A run of at most six moves that leaves by the failure exit. -/
theorem ReaderFails.of_run {x : State} {n j : Nat} {p : List Seq} {w : Work} {m : Memory} {k : Kind} {i : DiagInfo}
    {bs : List Byte} (ha : answersAre x 0 bs) (h : run 6 x = run j (failAt x n p w m k i)) (hn : bs.length = n)
    (hack : w.ackb = x.work.ackb) : ReaderFails x k i bs m p := by
  subst hn
  exact ⟨ha, w, h.trans (run_idle rfl j), hack⟩

theorem readerFails_noStart {x : State} (hb : x.busy = true) (hq : x.seq = .rrScan)
    (h : splitStart (x.answers 0 x.cfg.scanBudget) = none) :
    ReaderFails x .timeout (.loop .rrScan) (x.answers 0 x.cfg.scanBudget) x.rxbuf [] :=
  .of_run (j := 0) (by rw [answersAre, answers_length]) (run_noStart hb hq h) (answers_length _ _ _) rfl

section

variable {x : State} {noise : List Byte} (hb : x.busy = true) (hq : x.seq = .rrScan) (hs : splitStart noise = none)
  (hn : noise.length + 2 ≤ x.cfg.scanBudget)

include hb hq hs hn

/-- R153: two length bytes, no marker, whose sum is not 0. -/
theorem readerFails_length_rn {l k : Byte} (ha : answersAre x 0 (noise ++ [0x00, 0xFF, l, k]))
    (hmark : isExtMark l k = false) (hlen : lenOk l k = false) :
    ReaderFails x .corruption (.lengthBytes l k) (noise ++ [0x00, 0xFF, l, k]) x.rxbuf [.rrLen] := by
  have hrun := run_len_rn hb hq hs hn hmark ha 4
  simp only [hlen, Bool.false_eq_true, if_false] at hrun
  exact .of_run ha hrun (by simp) rfl

/-- R154: the marker and three bytes whose sum is not 0. -/
theorem readerFails_length_rx {m l k : Byte} (ha : answersAre x 0 (noise ++ [0x00, 0xFF, 0xFF, 0xFF, m, l, k]))
    (hlen : xlenOk m l k = false) :
    ReaderFails x .corruption (.extLengthBytes m l k) (noise ++ [0x00, 0xFF, 0xFF, 0xFF, m, l, k]) x.rxbuf
      [.rrLen, .rrXlen] := by
  have hrun := run_len_rx hb hq hs hn ha 3
  simp only [hlen, Bool.false_eq_true, if_false] at hrun
  exact .of_run ha hrun (by simp) rfl

/-- R156: direction, id or length wrong behind a normal length field. -/
theorem readerFails_header_rn {l k t r : Byte} (ha : answersAre x 0 (noise ++ [0x00, 0xFF, l, k, t, r]))
    (hmark : isExtMark l k = false) (hlen : lenOk l k = true)
    (hbad : t ≠ x.cfg.tfiChipToHost ∨ r ≠ x.work.exp ∨ l.toNat < 2) :
    ReaderFails x .corruption (.header t r (l.setWidth 16)) (noise ++ [0x00, 0xFF, l, k, t, r]) x.rxbuf
      [.rrLen, .rrHdr] := by
  obtain ⟨hfield, hheader⟩ := answers_split (x := x) (st := 0) (a := noise ++ ([0x00, 0xFF] ++ [l, k])) (b := [t, r])
    (by rw [List.append_assoc]; exact ha)
  have hrun := run_len_rn hb hq hs hn hmark hfield 4
  simp only [hlen, if_true] at hrun
  have hwidth : (l.setWidth 16).toNat = l.toNat := BitVec.toNat_setWidth_of_le (by decide)
  rw [← hwidth] at hbad
  exact .of_run (j := 0) ha (hrun.trans (run_bad_hdr hb (by simpa using hheader) hbad 3)) (by simp) rfl

/-- R156: the same behind an extended length field. -/
theorem readerFails_header_rx {m l k t r : Byte} (ha : answersAre x 0 (noise ++ [0x00, 0xFF, 0xFF, 0xFF, m, l, k, t, r]))
    (hlen : xlenOk m l k = true) (hbad : t ≠ x.cfg.tfiChipToHost ∨ r ≠ x.work.exp ∨ (xlen m l).toNat < 2) :
    ReaderFails x .corruption (.header t r (xlen m l)) (noise ++ [0x00, 0xFF, 0xFF, 0xFF, m, l, k, t, r]) x.rxbuf
      [.rrLen, .rrXlen, .rrHdr] := by
  obtain ⟨hfield, hheader⟩ := answers_split (x := x) (st := 0)
    (a := noise ++ ([0x00, 0xFF] ++ [0xFF, 0xFF, m, l, k])) (b := [t, r]) (by rw [List.append_assoc]; exact ha)
  have hrun := run_len_rx hb hq hs hn hfield 3
  simp only [hlen, if_true] at hrun
  exact .of_run (j := 0) ha (hrun.trans (run_bad_hdr hb (by simpa using hheader) hbad 2)) (by simp) rfl

end

/-- R160, R196: a selected bus is deselected before the verdict, and not a second time by the failure exit. -/
theorem failAt_deselected {x : State} {bs : List Byte} (hsel : x.sel = true) (ha : answersAre x 0 bs) (p : List Seq)
    (w : Work) (m : Memory) (k : Kind) (i : DiagInfo) :
    { failAt x bs.length p w m k i with trace := x.trace ++ bs.map Event.rd ++ [.des] } = failAt x bs.length p w m k i := by
  rw [failAt, hsel, ha]
  rfl

/-- R160: a normal frame whose data checksum alone is wrong. -/
theorem readerFails_checksum_rn {x : State} {noise d : List Byte} {l k t r c po : Byte} (hb : x.busy = true)
    (hq : x.seq = .rrScan) (hsel : x.sel = true) (hw : (Instr.rn noise l k t r d c po).WellFormed)
    (hn : noise.length + 2 ≤ x.cfg.scanBudget) (ha : answersAre x 0 (encodeRn noise l k t r d c po))
    (hlen : lenOk l k = true) (hmin : 2 ≤ l.toNat) (ht : t = x.cfg.tfiChipToHost) (hr : r = x.work.exp)
    (hbody : bodyOk t r d c = false) :
    ReaderFails x .corruption (.checksum c (dcs t r d)) (encodeRn noise l k t r d c po)
      (Memory.writeAll x.rxbuf 0 (d.take x.work.capl.toNat)) [.rrLen, .rrHdr, .rrData, .rrTail] := by
  have hrun := run_rn hb hq hw hn ha hlen hmin ht hr 1
  simp only [hbody, Bool.false_eq_true, if_false, failAt_deselected hsel ha] at hrun
  exact .of_run ha hrun rfl rfl

/-- R160: an extended frame whose data checksum alone is wrong. -/
theorem readerFails_checksum_rx {x : State} {noise d : List Byte} {m l k t r c po : Byte} (hb : x.busy = true)
    (hq : x.seq = .rrScan) (hsel : x.sel = true) (hw : (Instr.rx noise m l k t r d c po).WellFormed)
    (hn : noise.length + 2 ≤ x.cfg.scanBudget) (ha : answersAre x 0 (encodeRx noise m l k t r d c po))
    (hlen : xlenOk m l k = true) (hmin : 2 ≤ (xlen m l).toNat) (ht : t = x.cfg.tfiChipToHost) (hr : r = x.work.exp)
    (hbody : bodyOk t r d c = false) :
    ReaderFails x .corruption (.checksum c (dcs t r d)) (encodeRx noise m l k t r d c po)
      (Memory.writeAll x.rxbuf 0 (d.take x.work.capl.toNat)) [.rrLen, .rrXlen, .rrHdr, .rrData, .rrTail] := by
  have hrun := run_rx hb hq hw hn ha hlen hmin ht hr 0
  simp only [hbody, Bool.false_eq_true, if_false, failAt_deselected hsel ha] at hrun
  exact .of_run ha hrun rfl rfl

/-- R152: a frame whose start code stands beyond the scan budget. -/
theorem scannedFrameFails_noStart {s : State} {i : Instr} {noise rest bs : List Byte} (hb : s.busy = true)
    (hq : s.seq = .rrScan) (hsel : s.sel = true) (hi : encode i = .response bs) (hs : splitStart noise = none)
    (hbs : bs = noise ++ Config.start1 :: Config.start2 :: rest) (hlong : s.cfg.scanBudget < noise.length + 2) :
    ScannedFrameFails s i .timeout (.loop .rrScan) (bs.take s.cfg.scanBudget) (bs.drop s.cfg.scanBudget) s.rxbuf [] := by
  have hcut : (bs.take s.cfg.scanBudget).length = s.cfg.scanBudget := by
    rw [List.length_take, hbs, List.length_append, List.length_cons, List.length_cons]
    omega
  have hread := answers_present (bs.take s.cfg.scanBudget) (bs.drop s.cfg.scanBudget) s
  rw [answersAre, hcut] at hread
  have hfails := readerFails_noStart (x := present (bs.take s.cfg.scanBudget ++ bs.drop s.cfg.scanBudget) s) hb hq
    (by rw [present_cfg, hread, hbs]; exact splitStart_take hs rest hlong)
  rw [present_cfg, hread] at hfails
  exact hfails.scannedFrameFails hb hq hsel (by rw [hi, List.take_append_drop])

/-! ## READRSP's success, from RR_SCAN on (R195) -/

/-- READRSP that reads exactly `bs` on its way to the success exit. -/
theorem exec_readrsp_of_okAt {s : State} {bs : List Byte} {n : Nat} {p : List Seq} {w : Work} {m : Memory} {len : U16}
    (hb : s.busy = false) (ha : answersAre s 0 bs)
    (h : run n (scanStart s) = okAt (scanStart s) bs.length p w m len) :
    exec .readrsp s = .next { s.skip bs.length with
      seq := .idle
      path := s.path ++ .rrScan :: (p ++ [.done, .idle])
      sel := false
      work := w
      resKind := .ok
      resLen := len
      rxbuf := m
      trace := s.trace ++ transferEvents s.cfg s.cfg.pfxRead (bs.map Event.rd) } := by
  have hread : (scanStart s).answers 0 bs.length = bs := ha
  refine congrArg Host.Outcome.next ((request_readrsp hb n h rfl).trans ?_)
  rw [okAt, hread]
  simp [scanStart, transferEvents, State.skip, hb]

/-- A frame presented in RR_SCAN that is read exactly on the way to the success exit. -/
theorem exec_scanned_of_okAt {s : State} {i : Instr} {bs : List Byte} {p : List Seq} {w : Work} {m : Memory} {len : U16}
    (hb : s.busy = true) (hq : s.seq = .rrScan) (hi : encode i = .response bs)
    (h : run 6 (present bs s) = okAt (present bs s) bs.length p w m len) :
    exec i s = .next { s with
      seq := .idle
      path := s.path ++ (p ++ [.done, .idle])
      busy := false
      sel := false
      work := w
      resKind := .ok
      resLen := len
      rxbuf := m
      trace := s.trace ++ bs.map Event.rd ++ [.des] } := by
  have hread : (present bs s).answers 0 bs.length = bs := answers_script _ bs s.script rfl
  have hleft : (present bs s).skip bs.length = s := skip_of_script (bs := bs) rfl
  rw [exec_response_in_scan hb hq hi, h, okAt, hread, hleft]
  simp

/-! ## Rules of single states (R153, R154, R158) -/

/-- R196, the SEQ path and the diagnostic record left open. -/
theorem raise_eq_openRecords (k : Kind) (x : DiagInfo) (s : State) :
    raise k x s = { s with
      seq := .idle
      path := (raise k x s).path
      busy := false
      sel := false
      trace := s.trace ++ (if s.sel then [.des] else [])
      resKind := k
      resLen := 0
      diag := (raise k x s).diag } := by
  rw [raise_eq]
  cases h : s.sel <;> simp

/-- R158, R54: the byte RXBUF holds at each index after RR_DATA. -/
theorem read_rxbuf_tick_data {s : State} (hq : s.seq = .rrData) (hwf : s.rxbuf.wf = true) (a : Nat) :
    (tick s).rxbuf.read a =
      if a < s.work.dlen.toNat ∧ a < s.work.capl.toNat then s.answer a else s.rxbuf.read a := by
  rw [rxbuf_tick_data hq, Memory.read_writeAll hwf, List.length_take, answers_length]
  by_cases h : a < s.work.dlen.toNat ∧ a < s.work.capl.toNat
  · have hbyte : (s.answers 0 s.work.dlen.toNat)[a]? = some (s.answer a) := by simp [State.answers, h.1]
    rw [if_pos h, if_pos (by omega), Nat.sub_zero, List.getElem?_take_of_lt h.2, hbyte]
    rfl
  · rw [if_neg h, if_neg (by omega)]

end Sys2Proof.Machine.Laws

namespace Sys2Proof.Machine

open Laws Codec Codec.Laws

/-- Settles O39: from RR_SCAN the scanner reads its whole budget (`run_noStart`), and the last byte decides PZ (`pzAfter_eq`). -/
theorem readrspFindsNoStartCode : Obligations.ReadrspFindsNoStartCode := by
  intro s hb hnone
  refine ⟨(readerFails_noStart (x := scanStart s) rfl rfl hnone).readrspFails hb, ?_⟩
  exact ⟨_, congrArg Host.Outcome.next (request_readrsp hb 6 (run_noStart (x := scanStart s) rfl rfl hnone) rfl),
    pzAfter_eq _⟩

/-- Settles O40: in both forms the length check fails right behind RR_SCAN. -/
theorem readrspRejectsABadLength : Obligations.ReadrspRejectsABadLength := by
  intro s noise l0 l1 m l k hb hs hn
  exact ⟨fun ha hmark hlen => (readerFails_length_rn (x := scanStart s) rfl rfl hs hn ha hmark hlen).readrspFails hb,
    fun ha hlen => (readerFails_length_rx (x := scanStart s) rfl rfl hs hn ha hlen).readrspFails hb⟩

/-- Settles O41: in both forms the length check passes and the header check fails. -/
theorem readrspRejectsABadHeader : Obligations.ReadrspRejectsABadHeader := by
  intro s noise l0 l1 m l k t r hb hs hn
  exact ⟨fun ha hmark hlen hbad =>
      (readerFails_header_rn (x := scanStart s) rfl rfl hs hn ha hmark hlen hbad).readrspFails hb,
    fun ha hlen hbad => (readerFails_header_rx (x := scanStart s) rfl rfl hs hn ha hlen hbad).readrspFails hb⟩

/-- Settles O42: in both forms the frame is read whole, and the verdict on its checksum is bad. -/
theorem readrspRejectsABadChecksum : Obligations.ReadrspRejectsABadChecksum := by
  intro s noise d m l k t r x p hb hn ht hr hbody
  exact ⟨fun hw ha hlen hmin =>
      (readerFails_checksum_rn (x := scanStart s) rfl rfl rfl hw hn ha hlen hmin ht hr hbody).readrspFails hb,
    fun hw ha hlen hmin =>
      (readerFails_checksum_rx (x := scanStart s) rfl rfl rfl hw hn ha hlen hmin ht hr hbody).readrspFails hb⟩

/-- Settles O37: the frame is read whole (`run_rn`), and the verdict on its checksum is good. -/
theorem readrspTakesANormalFrame : Obligations.ReadrspTakesANormalFrame := by
  intro s noise d l k t r x p hb hw hn ha hlen hmin ht hr hbody
  have hrun := run_rn (x := scanStart s) rfl rfl hw hn ha hlen hmin ht hr 0
  simp only [hbody, if_true] at hrun
  have hbytes : noise.length + d.length + 8 = (encodeRn noise l k t r d x p).length := by rw [encodeRn_length]; omega
  rw [hbytes]
  exact ⟨_, exec_readrsp_of_okAt hb ha hrun, rfl⟩

/-- Settles O38: the frame is read whole (`run_rx`), and the verdict on its checksum is good. -/
theorem readrspTakesAnExtendedFrame : Obligations.ReadrspTakesAnExtendedFrame := by
  intro s noise d m l k t r x p hb hw hn ha hlen hmin ht hr hbody
  have hrun := run_rx (x := scanStart s) rfl rfl hw hn ha hlen hmin ht hr 0
  simp only [hbody, if_true] at hrun
  rw [← encodeRx_length noise m l k t r d x p]
  exact ⟨_, exec_readrsp_of_okAt hb ha hrun, rfl⟩

/-- Settles O50: the frame presented in RR_SCAN is read whole (`run_rn`) and leaves the stream as it was. -/
theorem normalFrameIsTakenWhole : Obligations.NormalFrameIsTakenWhole := by
  intro s noise d l k t r x p hb hq hw hn hlen hmin ht hr hbody
  have hrun := run_rn (x := present (encodeRn noise l k t r d x p) s) hb hq hw hn (answers_script _ _ s.script rfl) hlen hmin
    ht hr 1
  simp only [hbody, if_true] at hrun
  exact exec_scanned_of_okAt hb hq rfl (hrun.trans (run_idle rfl 1))

/-- Settles O51: the frame presented in RR_SCAN is read whole (`run_rx`) and leaves the stream as it was. -/
theorem extendedFrameIsTakenWhole : Obligations.ExtendedFrameIsTakenWhole := by
  intro s noise d m l k t r x p hb hq hw hn hlen hmin ht hr hbody
  have hrun := run_rx (x := present (encodeRx noise m l k t r d x p) s) hb hq hw hn (answers_script _ _ s.script rfl) hlen hmin
    ht hr 0
  simp only [hbody, if_true] at hrun
  exact exec_scanned_of_okAt hb hq rfl hrun

/-- Settles O60: each check fails for the presented frame as it does for READRSP, with the bytes behind it left over. -/
theorem badFrameInTheScannerFails : Obligations.BadFrameInTheScannerFails := by
  intro s noise d m l k t r x p hb hq hsel
  refine ⟨fun hw => ?_, fun hw => ?_⟩
  · obtain ⟨hs, hmark, -⟩ := wf_rn hw
    refine ⟨fun hlong => scannedFrameFails_noStart hb hq hsel rfl hs (encodeRn_eq_noise ..) hlong, fun hn => ⟨?_, ?_, ?_⟩⟩
    · intro hlen
      exact (readerFails_length_rn (x := present _ s) hb hq hs hn (answers_present _ _ s) hmark hlen).scannedFrameFails
        hb hq hsel (by simp [encode, encodeRn, Config.start1, Config.start2])
    · intro hlen hbad
      exact (readerFails_header_rn (x := present _ s) hb hq hs hn (answers_present _ _ s) hmark hlen hbad).scannedFrameFails
        hb hq hsel (by simp [encode, encodeRn, Config.start1, Config.start2])
    · intro hlen hmin ht hr hbody
      exact (readerFails_checksum_rn (x := present _ s) hb hq hsel hw hn (answers_present _ _ s) hlen hmin ht hr
        hbody).scannedFrameFails hb hq hsel (by simp [encode])
  · obtain ⟨hs, -⟩ := wf_rx hw
    refine ⟨fun hlong => scannedFrameFails_noStart hb hq hsel rfl hs (encodeRx_eq_noise ..) hlong, fun hn => ⟨?_, ?_, ?_⟩⟩
    · intro hlen
      exact (readerFails_length_rx (x := present _ s) hb hq hs hn (answers_present _ _ s) hlen).scannedFrameFails
        hb hq hsel (by simp [encode, encodeRx, Config.start1, Config.start2, Config.extMark])
    · intro hlen hbad
      exact (readerFails_header_rx (x := present _ s) hb hq hs hn (answers_present _ _ s) hlen hbad).scannedFrameFails
        hb hq hsel (by simp [encode, encodeRx, Config.start1, Config.start2, Config.extMark])
    · intro hlen hmin ht hr hbody
      exact (readerFails_checksum_rx (x := present _ s) hb hq hsel hw hn (answers_present _ _ s) hlen hmin ht hr
        hbody).scannedFrameFails hb hq hsel (by simp [encode])

/-- Settles O53: the three outcomes are the branches of `rrLen_eq`, its tests read as arithmetic. -/
theorem lengthFieldRule : Obligations.LengthFieldRule := by
  intro s hq l0 l1 was
  obtain ⟨-, -, hsum, -⟩ := lengthChecksumRule 0 l0 l1 0 0 0
  have hmove : tick s = rrLen s := by simp only [tick, hq]
  simp only [rrLen_eq] at hmove
  refine ⟨(tick s).path, (tick s).diag, fun hmark => ?_, fun hmark hok => ?_, fun hmark hbad => ?_⟩
  · rw [hmove, if_pos ((isExtMark_iff l0 l1).mpr hmark)]
    rfl
  · rw [hmove, if_neg (mt (isExtMark_iff l0 l1).mp hmark), if_pos (hsum.mpr hok)]
    rfl
  · rw [hmove, if_neg (mt (isExtMark_iff l0 l1).mp hmark), if_neg (mt hsum.mp hbad)]
    exact raise_eq_openRecords _ _ _

/-- Settles O54: the two outcomes are the branches of `rrXlen_eq`, its test and LEN read as arithmetic. -/
theorem extendedLengthRule : Obligations.ExtendedLengthRule := by
  intro s hq xm xl xc was
  obtain ⟨-, -, -, hsum, -⟩ := lengthChecksumRule 0 0 0 xm xl xc
  have hmove : tick s = rrXlen s := by simp only [tick, hq]
  simp only [rrXlen_eq] at hmove
  refine ⟨(tick s).path, (tick s).diag, fun hok => ?_, fun hbad => ?_⟩
  · rw [← xlen_eq_ofNat, hmove, if_pos (hsum.mpr hok)]
    rfl
  · rw [hmove, if_neg (mt hsum.mp hbad)]
    exact raise_eq_openRecords _ _ _

/-- Settles O55: what the move leaves is `rrData_eq`'s, what RXBUF holds then `read_rxbuf_tick_data`'s. -/
theorem dataRule : Obligations.DataRule := by
  intro s hq hwf n
  have hmove : tick s = rrData s := by simp only [tick, hq]
  refine ⟨⟨s.path ++ [.rrTail], (tick s).rxbuf, n, ?_⟩, read_rxbuf_tick_data hq hwf⟩
  rw [← List.sum_eq_foldl, ← sum8_eq_sum, hmove, rrData_eq]
  rfl

end Sys2Proof.Machine
end

section
/-! PROOFS of the family 43_transaction_pseudo_ops: XCHG is SENDCMD and then READRSP (O43), and XCHG completed (O44). -/

namespace Sys2Proof.Codec.Laws

/-- R180: the response id READRSP expects, however its sum is written. -/
theorem add8_one_eq_ofNat (c : Byte) : add8 c 1 = BitVec.ofNat 8 (c.toNat + 1) := by
  apply BitVec.eq_of_toNat_eq
  rw [add8_toNat, BitVec.toNat_ofNat]
  rfl

end Sys2Proof.Codec.Laws

namespace Sys2Proof.Machine.Laws

open Codec Codec.Laws

/-! ## XCHG's expansion (R180, D12) -/

/-- R180: the outcome of the SENDCMD decides whether READRSP is requested. -/
theorem exec_xchg_of_sendcmd {s t : State} {c : Byte} {pl : List Byte} (cap : U16) (hb : s.busy = false)
    (h : exec .sendcmd (loadSend c pl s) = .next t) :
    exec (.xchg c pl cap) s =
      if t.resKind = .ok then exec .readrsp (loadRead (BitVec.ofNat 8 (c.toNat + 1)) cap t) else .next t := by
  have ht : request opSendcmd (loadSend c pl s) = t := Host.Outcome.next.inj h
  have hxchg : exec (.xchg c pl cap) s = .next (exchange c pl cap s) := by simp [exec, execXchg, hb]
  rw [hxchg, exchange, ht, add8_one_eq_ofNat]
  split <;> rfl

/-- R84, log 17: ARG_TXN counts a payload up to 255. -/
theorem loadSend_txn (c : Byte) (pl : List Byte) (s : State) : (loadSend c pl s).args.txn.toNat = min pl.length 255 := by
  simp only [loadSend, BitVec.toNat_ofNat]
  omega

/-- R52, R84: what SENDCMD sends is the payload the host has loaded. -/
theorem requestPayload_loadSend {s : State} {pl : List Byte} (c : Byte) (htx : s.txbuf.wf = true) (hlen : pl.length ≤ 255) :
    requestPayload (loadSend c pl s) = pl := by
  rw [requestPayload, loadSend_txn, Nat.min_eq_left hlen]
  exact Memory.bytes_writeAll htx pl

/-! ## XCHG between its two operations -/

/-- What a successful SENDCMD of XCHG leaves in `t` for the READRSP: BUSY and RXBUF as in `s`, the answers behind the polls and
the ACK, and TRACE up to the last poll. -/
structure CommandAcked (s : State) (c : Byte) (pl : List Byte) (k1 k2 : Nat) (t : State) : Prop where
  sendcmd : exec .sendcmd (loadSend c pl s) = .next t
  resKind : t.resKind = .ok
  busy : t.busy = false
  cfg : t.cfg = s.cfg
  rxbuf : t.rxbuf = s.rxbuf
  answers : ∀ n, t.answers 0 n = s.answers (k1 + k2 + 8) n
  trace : t.trace = s.trace
    ++ transferEvents s.cfg s.cfg.pfxWrite ((encodeFrame c pl).map Event.wr)
    ++ pollEvents s.cfg (s.answers 0 (k1 + 1))
    ++ transferEvents s.cfg s.cfg.pfxRead (Config.ackSeq.map Event.rd)
    ++ pollEvents s.cfg (s.answers (k1 + 7) (k2 + 1))

/-- R130 to R134 for the operands of XCHG. -/
theorem exists_commandAcked {s : State} {k1 k2 : Nat} {pl : List Byte} (c : Byte) (hb : s.busy = false)
    (htx : s.txbuf.wf = true) (hlen : pl.length ≤ 253) (h1 : readyAt s 0 k1) (hack : answersAre s (k1 + 1) Config.ackSeq)
    (h2 : readyAt s (k1 + 7) k2) : ∃ t, CommandAcked s c pl k1 k2 t := by
  have htxn : (loadSend c pl s).args.txn.toNat ≤ 253 := by rw [loadSend_txn]; omega
  have hsend := sendcmdSucceeds (loadSend c pl s) k1 k2 hb htxn h1 hack h2
  rw [requestPayload_loadSend c htx (by omega)] at hsend
  exact ⟨_, hsend, rfl, hb, rfl, rfl, answers_skip (loadSend c pl s) (k1 + k2 + 8) 0, rfl⟩

/-- R180: XCHG whose READRSP takes the frame `fr` with the data `d` ends as R180 says. -/
theorem CommandAcked.xchgEndsOk {s t : State} {c : Byte} {pl : List Byte} {cap : U16} {k1 k2 n : Nat} {d fr : List Byte}
    {p : List Seq} {w : Work} (hb : s.busy = false) (hsent : CommandAcked s c pl k1 k2 t)
    (hread : exec .readrsp (loadRead (BitVec.ofNat 8 (c.toNat + 1)) cap t) = .next { t.skip n with
      args := { t.args with exp := BitVec.ofNat 8 (c.toNat + 1), cap := cap }
      seq := .idle
      path := p
      sel := false
      work := w
      resKind := .ok
      resLen := BitVec.ofNat 16 (min d.length cap.toNat)
      rxbuf := Memory.writeAll t.rxbuf 0 (d.take cap.toNat)
      trace := t.trace ++ transferEvents t.cfg t.cfg.pfxRead (fr.map Event.rd) }) :
    XchgEndsOk s c pl cap k1 k2 d fr := by
  have hxchg := exec_xchg_of_sendcmd cap hb hsent.sendcmd
  rw [if_pos hsent.resKind, hread] at hxchg
  refine ⟨_, hxchg, rfl, ?_, congrArg (Memory.writeAll · 0 _) hsent.rxbuf, hsent.busy, rfl, rfl, ?_⟩
  · simp only [BitVec.toNat_ofNat]
    omega
  · rw [hsent.trace, hsent.cfg]

end Sys2Proof.Machine.Laws

namespace Sys2Proof.Machine

open Laws Codec Codec.Laws

/-- Settles O43: up to 253 bytes XCHG is its expansion (`exec_xchg_of_sendcmd`); beyond, its SENDCMD is refused. -/
theorem xchgIsSendThenRead : Obligations.XchgIsSendThenRead := by
  intro s c p cap hb
  refine ⟨fun _ t hsend => ⟨fun hok => ?_, fun hfail => ?_⟩, fun hlong => ?_⟩
  · rw [exec_xchg_of_sendcmd cap hb hsend, if_pos hok]
    rfl
  · rw [exec_xchg_of_sendcmd cap hb hsend, if_neg hfail]
  · have htxn : 253 < (loadSend c p s).args.txn.toNat := by rw [loadSend_txn]; omega
    have hrefused := sendcmdRefusesALongPayload (loadSend c p s) hb htxn
    rw [exec_xchg_of_sendcmd cap hb hrefused, if_neg nofun]
    rfl

/-- Settles O44: the SENDCMD succeeds (`exists_commandAcked`), and its READRSP takes the frame of either form behind it. -/
theorem xchgCompletes : Obligations.XchgCompletes := by
  intro s k1 k2 c pl noise d m l k t r x p cap hb htx hlen h1 hack h2 hscan ht hr hbody
  obtain ⟨u, hsent⟩ := exists_commandAcked c hb htx hlen h1 hack h2
  have hid : r = BitVec.ofNat 8 (c.toNat + 1) := BitVec.eq_of_toNat_eq (by rw [hr, BitVec.toNat_ofNat])
  rw [← hsent.cfg] at hscan ht
  refine ⟨fun hw hsum hmin ha => ?_, fun hw hsum hmin ha => ?_⟩
  · obtain ⟨w, hread, -⟩ := readrspTakesANormalFrame (loadRead (BitVec.ofNat 8 (c.toNat + 1)) cap u) noise d l k t r x p
      hsent.busy hw hscan ((hsent.answers _).trans ha) hsum hmin ht hid hbody
    exact hsent.xchgEndsOk hb hread
  · obtain ⟨w, hread, -⟩ := readrspTakesAnExtendedFrame (loadRead (BitVec.ofNat 8 (c.toNat + 1)) cap u) noise d m l k t r x p
      hsent.busy hw hscan ((hsent.answers _).trans ha) hsum hmin ht hid hbody
    exact hsent.xchgEndsOk hb hread

end Sys2Proof.Machine
end

section
/-! PROOFS of the family 60_exceptions: the diagnostic sink's presence changes nothing else (O59). -/

namespace Sys2Proof.Machine.Laws

/-- R198: whether there is a diagnostic sink makes no difference to what `f` does with the rest of the machine. -/
def SinkBlind (f : State → State) : Prop := ∀ s, (f s).dropSink = f s.dropSink

@[simp] theorem dropSink_seq (s : State) : s.dropSink.seq = s.seq := rfl

@[simp] theorem dropSink_host (s : State) : s.dropSink.host = s.host := rfl

/-! ## The exits, and the moves of the sequencer (R22): each is one update or a choice of updates that does not read the sink -/

theorem sinkBlind_setSeq (q : Seq) : SinkBlind (setSeq q) := fun _ => rfl

theorem sinkBlind_succeed (n : U16) : SinkBlind (succeed n) := fun _ => rfl

/-- R196, R198: the one exit that hands the sink a record; no sink takes none. -/
theorem sinkBlind_raise (k : Kind) (x : DiagInfo) : SinkBlind (raise k x) := fun s => by
  rw [raise_eq, raise_eq]
  rfl

theorem sinkBlind_poll {f g : State → State} (hf : SinkBlind f) (hg : SinkBlind g) : SinkBlind (poll f g) := fun s => by
  simp only [poll, statusRead_eq, apply_ite State.dropSink, hf _, hg _]
  rfl

theorem sinkBlind_sendFrame (c : Byte) (data : List Byte) : SinkBlind (sendFrame c data) := fun s => by
  rw [sendFrame_eq, sendFrame_eq]
  rfl

theorem sinkBlind_ackCheck : SinkBlind ackCheck := fun s => by
  simp only [ackCheck, transfer, readAck_eq, openTransfer_eq, apply_ite State.dropSink, sinkBlind_raise _ _ _]
  rfl

theorem sinkBlind_saSend : SinkBlind saSend := fun s => by
  simp only [saSend, transfer, ackFrameBody, writeBytes_eq, openTransfer_eq]
  rfl

theorem sinkBlind_rrEntry : SinkBlind rrEntry := fun s => by
  rw [rrEntry_eq, rrEntry_eq]
  rfl

theorem sinkBlind_dispatch : SinkBlind dispatch := fun s => by
  simp only [dispatch, apply_ite State.dropSink, sinkBlind_rrEntry _]
  rfl

/-- R152: the scanner reads the same bytes and finds the same start code. -/
theorem scanLoop_dropSink (n : Nat) (s : State) :
    (scanLoop n s).map id State.dropSink = scanLoop n s.dropSink := by
  induction n generalizing s with
  | zero => rfl
  | succ n ih =>
    simp only [scanLoop, busRead_first, apply_ite (Prod.map id State.dropSink), ih]
    rfl

/-- R152: how the scanner leaves RR_SCAN, by what its loop answers. -/
def scanExit (r : Bool × State) : State := if r.1 then setSeq .rrLen r.2 else raise .timeout (.loop .rrScan) r.2

theorem rrScan_eq_scanExit (s : State) :
    rrScan s = scanExit (scanLoop s.cfg.scanBudget { s with work := { s.work with cnt := 0, pz := false } }) := rfl

theorem scanExit_dropSink (r : Bool × State) : (scanExit r).dropSink = scanExit (r.map id State.dropSink) := by
  simp only [scanExit, apply_ite State.dropSink, sinkBlind_raise _ _ _]
  rfl

theorem sinkBlind_rrScan : SinkBlind rrScan := fun s => by
  rw [rrScan_eq_scanExit, scanExit_dropSink, scanLoop_dropSink]
  rfl

theorem sinkBlind_rrLen : SinkBlind rrLen := fun s => by
  simp only [rrLen_eq, apply_ite State.dropSink, sinkBlind_raise _ _ _]
  rfl

theorem sinkBlind_rrXlen : SinkBlind rrXlen := fun s => by
  simp only [rrXlen_eq, apply_ite State.dropSink, sinkBlind_raise _ _ _]
  rfl

theorem sinkBlind_rrHdr : SinkBlind rrHdr := fun s => by
  simp only [rrHdr_eq, apply_ite State.dropSink, sinkBlind_raise _ _ _]
  rfl

theorem sinkBlind_rrData : SinkBlind rrData := fun s => by
  rw [rrData_eq, rrData_eq]
  rfl

theorem sinkBlind_rrTail : SinkBlind rrTail := fun s => by
  simp only [rrTail_eq, apply_ite State.dropSink, sinkBlind_raise _ _ _]
  rfl

/-- R22: every move. -/
theorem sinkBlind_tick : SinkBlind tick := fun s => by
  simp only [tick, dropSink_seq]
  cases s.seq with
  | idle => exact sinkBlind_dispatch s
  | wkHold => rfl
  | wrPoll | awaitReady2 => exact sinkBlind_poll (sinkBlind_succeed 0) (sinkBlind_raise _ _) s
  | awaitReady1 => exact sinkBlind_poll (sinkBlind_setSeq _) (sinkBlind_raise _ _) s
  | sent => exact sinkBlind_sendFrame _ _ s
  | ackCheck => exact sinkBlind_ackCheck s
  | saSend => exact sinkBlind_saSend s
  | rrScan => exact sinkBlind_rrScan s
  | rrLen => exact sinkBlind_rrLen s
  | rrXlen => exact sinkBlind_rrXlen s
  | rrHdr => exact sinkBlind_rrHdr s
  | rrData => exact sinkBlind_rrData s
  | rrTail => exact sinkBlind_rrTail s
  | done | failed => rfl

/-! ## Operations and instructions (R31, R61) -/

theorem sinkBlind_run (n : Nat) : SinkBlind (run n) := fun s => by
  induction n generalizing s with
  | zero => rfl
  | succ n ih =>
    simp only [run, apply_ite State.dropSink, ih, sinkBlind_tick _]
    rfl

theorem sinkBlind_request (o : BitVec 3) : SinkBlind (request o) := fun s => by
  have hdispatch : dispatch (accept o s.dropSink) = (dispatch (accept o s)).dropSink :=
    (sinkBlind_dispatch (accept o s)).symm
  simp only [request, hdispatch, apply_ite State.dropSink, sinkBlind_run _ _]
  rfl

theorem sinkBlind_inFlight : SinkBlind inFlight := fun s => by
  simp only [inFlight, apply_ite State.dropSink, sinkBlind_run _ _, sinkBlind_tick _]
  rfl

theorem sinkBlind_deliver (bs : List Byte) : SinkBlind (deliver bs) := fun s => by
  simp only [deliver, apply_ite State.dropSink, sinkBlind_inFlight _]
  rfl

/-- R180: READRSP is requested behind the same outcome of SENDCMD. -/
theorem sinkBlind_exchange (c : Byte) (bs : List Byte) (cap : U16) : SinkBlind (exchange c bs cap) := fun s => by
  have hsend : request opSendcmd (loadSend c bs s.dropSink) = (request opSendcmd (loadSend c bs s)).dropSink :=
    (sinkBlind_request opSendcmd (loadSend c bs s)).symm
  simp only [exchange, hsend]
  rw [apply_ite State.dropSink, sinkBlind_request opReadrsp]
  rfl

@[simp] theorem dropSinkOutcome_next (s : State) : dropSinkOutcome (.next s) = .next s.dropSink := rfl

/-- R198, R204: every instruction. -/
theorem exec_dropSink (i : Instr) (s : State) : dropSinkOutcome (exec i s) = exec i s.dropSink := by
  cases i with
  | wake | waitrdy | sendcmd | readrsp | sendack | reservedOp0 | reservedOp67 | init =>
    exact congrArg Host.Outcome.next (sinkBlind_request _ s)
  | rn | rx | stReady | stNotReady => exact congrArg Host.Outcome.next (sinkBlind_deliver _ s)
  | xchg c bs cap =>
    simp only [exec, execXchg, dropSinkOutcome_next, apply_ite State.dropSink, sinkBlind_exchange _ _ _ _]
    rfl
  | cf c data =>
    simp only [exec, execCf, dropSinkOutcome_next, apply_ite State.dropSink, sinkBlind_sendFrame _ _ _]
    rfl
  | ak =>
    simp only [exec, execAk, dropSinkOutcome_next, apply_ite State.dropSink, sinkBlind_inFlight _, sinkBlind_deliver _ _]
    rfl

/-! ## Steps: the same instruction is met, or none -/

/-- What a fetch answers, with no diagnostic sink. -/
def dropSinkFetched : Option (Instr × State) → Option (Instr × State) := Option.map (Prod.map id State.dropSink)

theorem fetchInbound_dropSink (code : Code) (f : List Byte → State) :
    dropSinkFetched (fetchInbound code f) = fetchInbound code fun rest => (f rest).dropSink := by
  unfold fetchInbound
  cases decode code <;> rfl

theorem fetchWire_dropSink (s : State) : dropSinkFetched (fetchWire s) = fetchWire s.dropSink := by
  simp only [fetchWire, dropSink_seq]
  cases s.seq with
  | sent | wrPoll | awaitReady1 | awaitReady2 =>
    simp only [apply_ite dropSinkFetched, fetchInbound_dropSink]
    rfl
  | ackCheck | saSend | rrScan => exact fetchInbound_dropSink _ _
  | idle | done | failed | wkHold | rrLen | rrXlen | rrHdr | rrData | rrTail => rfl

theorem fetchHost_dropSink (s : State) : dropSinkFetched (fetchHost s) = fetchHost s.dropSink := by
  simp only [fetchHost, dropSink_host]
  cases s.host with
  | nil => rfl
  | cons m rest =>
    dsimp only
    cases hostCode m with
    | none => rfl
    | some code => exact Option.map_map _ _ _

theorem fetch_dropSink (s : State) : dropSinkFetched (fetch s) = fetch s.dropSink := by
  simp only [fetch, apply_ite dropSinkFetched, fetchWire_dropSink, fetchHost_dropSink]
  rfl

theorem hostWrite_dropSink (r : HostReg) (v : U16) (s : State) :
    dropSinkOutcome (hostWrite r v s) = hostWrite r v s.dropSink := by
  cases r <;> rfl

/-- R12 (2): the host's next move that is no request. -/
theorem hostAct_dropSink (s : State) : dropSinkOutcome (hostAct s) = hostAct s.dropSink := by
  simp only [hostAct, dropSink_host]
  cases s.host with
  | nil => rfl
  | cons m rest =>
    cases m with
    | write r v => exact hostWrite_dropSink r v _
    | fillTx | fillRx | lineInit | lineXchg => rfl

theorem noInstr_dropSink (s : State) : dropSinkOutcome (noInstr s) = noInstr s.dropSink := by
  simp only [noInstr, apply_ite dropSinkOutcome, hostAct_dropSink, dropSinkOutcome_next, sinkBlind_inFlight _]
  rfl

theorem step_dropSink (s : State) : dropSinkOutcome (step s) = step s.dropSink := by
  rw [step, step, ← fetch_dropSink]
  cases fetch s with
  | none => exact noInstr_dropSink s
  | some met => exact exec_dropSink met.1 met.2

end Sys2Proof.Machine.Laws

namespace Sys2Proof.Machine

open Laws

/-- Settles O59: no move reads the sink (`sinkBlind_tick`), so no instruction (`exec_dropSink`) and no step does. -/
theorem sinkDoesNotMatter : Obligations.SinkDoesNotMatter := fun i s => ⟨exec_dropSink i s, step_dropSink s⟩

end Sys2Proof.Machine
end

section
/-! PROOFS of the family other: framing the stream first and reading it byte by byte are one step (O15). -/

namespace Sys2Proof.Machine

open Laws

/-- Settles O15: a wire format met in flight is delivered back to the machine as the answers its next move reads
(`exec_of_fetchWire`), and where none is met a step is that move already; `step_busy` puts the two together. -/
theorem stepInFlightIsTheNextMove : Obligations.StepInFlightIsTheNextMove := fun _ hb => step_busy hb

end Sys2Proof.Machine
end
